-- ==== Sys2Proof/Word.lean ====
section
/-! DEFINITION. The word types of the RSNES-DMA engine. -/

namespace Sys2Proof

/-- `NCH` of R6: the number of channels. -/
abbrev nch : Nat := 8

/-- `ADDR_W` of R6: the width of a bus address. -/
abbrev addrWidth : Nat := 24

/-- `BYTE_W` of R6: every bus transfer is one byte (R61). -/
abbrev Byte := BitVec 8

/-- A register-port offset (R91), the offset part of a bus address (R62), a 16-bit register (R22). -/
abbrev Offset := BitVec 16

/-- A 24-bit bus address, bank in bits 23:16 and offset in bits 15:0 (R62). -/
abbrev Addr := BitVec addrWidth

/-- A channel number 0..7 (R22). It names a channel and is never computed with. -/
abbrev Channel := Fin nch

end Sys2Proof
end

