-- ==== Sys2Proof/Syntax.lean ====
section
/-! DEFINITION. The operations of the engine as syntax: one constructor per row of the spec's opcode table, and
the encoded objects the engine decodes (R90). -/

namespace Sys2Proof

/-- `DMAP[c].dir` (R23): bit 7 of the control byte. -/
inductive Dir where
  /-- 0: read the A side, write the port. -/
  | busToPort
  /-- 1: read the port, write the A side. -/
  | portToBus
deriving DecidableEq, Repr

/-- The argument of `Reset` (R250). -/
inductive ResetKind where
  | powerOn
  | soft
deriving DecidableEq, Repr

/-- The three data-less signals of the platform (R12, R213, R250). -/
inductive Event where
  | reset (kind : ResetKind)
  | hdmaInit
  | hdmaLine
deriving DecidableEq, Repr

/-- Which of the two mask registers a `MASK` byte is written to (R92). -/
inductive MaskReg where
  | mdmaen
  | hdmaen
deriving DecidableEq, Repr

/-- Which part of a control byte is decoded (R103): the table has eight rows for the pattern, two for the
direction, two for the HDMA addressing mode and three for the address step, and a control byte matches one row
of each of these four groups. -/
inductive CtrlView where
  | pattern
  | direction
  | addressing
  | addressStep
deriving DecidableEq, Repr

/-- The encoded objects the engine decodes (R90), each with the operands the object's own bits do not hold: the
strobe and the data byte of a register-port access (R120), the mask register of a `MASK` byte, the channel of a
control byte or of a header byte, the group of rows that reads a control byte. An `EVENT` has no bits (R103). -/
inductive Encoded where
  /-- Format `REGADDR`, strobe W: `RegWrite(o, v)`. -/
  | regWrite (o : Offset) (v : Byte)
  /-- Format `REGADDR`, strobe R: `RegRead(o)`. -/
  | regRead (o : Offset)
  /-- Format `MASK`. -/
  | mask (r : MaskReg) (m : Byte)
  /-- Format `DMAP`. -/
  | dmap (w : CtrlView) (c : Channel) (b : Byte)
  /-- Format `HDR`. -/
  | hdr (c : Channel) (h : Byte)
  /-- Format `EVENT`. -/
  | event (e : Event)
deriving DecidableEq, Repr

/-- One constructor per row of the opcode table. The fields of a `DMAP` row are named as in R93: direction `d`,
addressing mode `n`, the bit without function `u`, `dec` as `z`, `fix` as `f`, pattern code `p`; a row's own fixed
bits are no operand. -/
inductive Instr where
  /-- `WR_MDMAEN`, R121. -/
  | wrMdmaen (v : Byte)
  /-- `RD_MDMAEN`, R121. -/
  | rdMdmaen
  /-- `WR_HDMAEN`, R122. -/
  | wrHdmaen (v : Byte)
  /-- `RD_HDMAEN`, R122. -/
  | rdHdmaen
  /-- `WR_DMAP`, R123. -/
  | wrDmap (c : Channel) (v : Byte)
  /-- `RD_DMAP`, R123. -/
  | rdDmap (c : Channel)
  /-- `WR_BBAD`, R124. -/
  | wrBbad (c : Channel) (v : Byte)
  /-- `RD_BBAD`, R124. -/
  | rdBbad (c : Channel)
  /-- `WR_A1TL`, R125. -/
  | wrA1tl (c : Channel) (v : Byte)
  /-- `RD_A1TL`, R125. -/
  | rdA1tl (c : Channel)
  /-- `WR_A1TH`, R126. -/
  | wrA1th (c : Channel) (v : Byte)
  /-- `RD_A1TH`, R126. -/
  | rdA1th (c : Channel)
  /-- `WR_A1B`, R127. -/
  | wrA1b (c : Channel) (v : Byte)
  /-- `RD_A1B`, R127. -/
  | rdA1b (c : Channel)
  /-- `WR_DASL`, R128. -/
  | wrDasl (c : Channel) (v : Byte)
  /-- `RD_DASL`, R128. -/
  | rdDasl (c : Channel)
  /-- `WR_DASH`, R129. -/
  | wrDash (c : Channel) (v : Byte)
  /-- `RD_DASH`, R129. -/
  | rdDash (c : Channel)
  /-- `WR_DASB`, R130. -/
  | wrDasb (c : Channel) (v : Byte)
  /-- `RD_DASB`, R130. -/
  | rdDasb (c : Channel)
  /-- `WR_A2AL`, R131. -/
  | wrA2al (c : Channel) (v : Byte)
  /-- `RD_A2AL`, R131. -/
  | rdA2al (c : Channel)
  /-- `WR_A2AH`, R132. -/
  | wrA2ah (c : Channel) (v : Byte)
  /-- `RD_A2AH`, R132. -/
  | rdA2ah (c : Channel)
  /-- `WR_NLTR`, R133. -/
  | wrNltr (c : Channel) (v : Byte)
  /-- `RD_NLTR`, R133. -/
  | rdNltr (c : Channel)
  /-- `WR_UNUSED_B`, R134. -/
  | wrUnusedB (c : Channel) (v : Byte)
  /-- `RD_UNUSED_B`, R134. -/
  | rdUnusedB (c : Channel)
  /-- `WR_UNMAPPED_C`, R135. -/
  | wrUnmappedC (c : Channel) (v : Byte)
  /-- `RD_UNMAPPED_C`, R135. -/
  | rdUnmappedC (c : Channel)
  /-- `WR_UNMAPPED_D`, R135. -/
  | wrUnmappedD (c : Channel) (v : Byte)
  /-- `RD_UNMAPPED_D`, R135. -/
  | rdUnmappedD (c : Channel)
  /-- `WR_UNMAPPED_E`, R135. -/
  | wrUnmappedE (c : Channel) (v : Byte)
  /-- `RD_UNMAPPED_E`, R135. -/
  | rdUnmappedE (c : Channel)
  /-- `WR_UNUSED_F`, R134. -/
  | wrUnusedF (c : Channel) (v : Byte)
  /-- `RD_UNUSED_F`, R134. -/
  | rdUnusedF (c : Channel)
  /-- `MDMAEN_NONE`, R121. -/
  | mdmaenNone
  /-- `MDMAEN_START`, R150. -/
  | mdmaenStart (m : Byte)
  /-- `HDMAEN_SET`, R122. -/
  | hdmaenSet (m : Byte)
  /-- `PAT0`, R156. -/
  | pat0 (c : Channel) (d : Dir) (n u z f : Bool)
  /-- `PAT1`, R157. -/
  | pat1 (c : Channel) (d : Dir) (n u z f : Bool)
  /-- `PAT2`, R158. -/
  | pat2 (c : Channel) (d : Dir) (n u z f : Bool)
  /-- `PAT3`, R159. -/
  | pat3 (c : Channel) (d : Dir) (n u z f : Bool)
  /-- `PAT4`, R160. -/
  | pat4 (c : Channel) (d : Dir) (n u z f : Bool)
  /-- `PAT5`, R161. -/
  | pat5 (c : Channel) (d : Dir) (n u z f : Bool)
  /-- `PAT6`, R162. -/
  | pat6 (c : Channel) (d : Dir) (n u z f : Bool)
  /-- `PAT7`, R163. -/
  | pat7 (c : Channel) (d : Dir) (n u z f : Bool)
  /-- `DIR_BUS_TO_PORT`, R167. -/
  | dirBusToPort (c : Channel) (n u z f : Bool) (p : BitVec 3)
  /-- `DIR_PORT_TO_BUS`, R167. -/
  | dirPortToBus (c : Channel) (n u z f : Bool) (p : BitVec 3)
  /-- `HDMA_DIRECT`, R188. -/
  | hdmaDirect (c : Channel) (d : Dir) (u z f : Bool) (p : BitVec 3)
  /-- `HDMA_INDIRECT`, R189. -/
  | hdmaIndirect (c : Channel) (d : Dir) (u z f : Bool) (p : BitVec 3)
  /-- `STEP_FIXED`, R168. -/
  | stepFixed (c : Channel) (d : Dir) (n u z : Bool) (p : BitVec 3)
  /-- `STEP_INC`, R153. -/
  | stepInc (c : Channel) (d : Dir) (n u : Bool) (p : BitVec 3)
  /-- `STEP_DEC`, R153. -/
  | stepDec (c : Channel) (d : Dir) (n u : Bool) (p : BitVec 3)
  /-- `HDR_TERMINATE`, R184. -/
  | hdrTerminate (c : Channel)
  /-- `HDR_ONCE_128`, R186. -/
  | hdrOnce128 (c : Channel)
  /-- `HDR_ONCE`, R186. -/
  | hdrOnce (c : Channel) (lines : BitVec 7)
  /-- `HDR_REPEAT`, R187. -/
  | hdrRepeat (c : Channel) (lines : BitVec 7)
  /-- `EV_RESET`, R250. -/
  | evReset (kind : ResetKind)
  /-- `EV_HDMAINIT`, R182. -/
  | evHdmainit
  /-- `EV_HDMALINE`, R185. -/
  | evHdmaline
deriving DecidableEq, Repr

/-- Why an encoded object is rejected. Only an offset that is not the engine's is (R102 item 4, R136): every value
of a mask, a control byte, a header byte or an event is legal (R107). -/
inductive DecodeError where
  /-- A write to an offset the engine does not own. -/
  | notEngineWrite (o : Offset) (v : Byte)
  /-- A read of an offset the engine does not own. -/
  | notEngineRead (o : Offset)
deriving DecidableEq, Repr

end Sys2Proof
end

