-- ==== Sys2Proof/WellFormed.lean ====
section
/-! DEFINITION. Which terms of `Instr` the encodings admit: the checks the operands' types do not make. -/

namespace Sys2Proof

/-- The rows of R103 that are matched in an order leave to a later row only what the earlier ones did not take:
`MDMAEN_START` is any non-zero mask, `HDR_ONCE` and `HDR_REPEAT` have a non-zero line count (R95). Every other
operand may have every value of its type (R50, R107). -/
def Instr.wellFormed : Instr → Bool
  | .mdmaenStart m => m != 0
  | .hdrOnce _ lines => lines != 0
  | .hdrRepeat _ lines => lines != 0
  | .wrMdmaen _ | .rdMdmaen | .wrHdmaen _ | .rdHdmaen | .wrDmap _ _ | .rdDmap _ | .wrBbad _ _ | .rdBbad _
  | .wrA1tl _ _ | .rdA1tl _ | .wrA1th _ _ | .rdA1th _ | .wrA1b _ _ | .rdA1b _ | .wrDasl _ _ | .rdDasl _
  | .wrDash _ _ | .rdDash _ | .wrDasb _ _ | .rdDasb _ | .wrA2al _ _ | .rdA2al _ | .wrA2ah _ _ | .rdA2ah _
  | .wrNltr _ _ | .rdNltr _ | .wrUnusedB _ _ | .rdUnusedB _ | .wrUnmappedC _ _ | .rdUnmappedC _
  | .wrUnmappedD _ _ | .rdUnmappedD _ | .wrUnmappedE _ _ | .rdUnmappedE _ | .wrUnusedF _ _ | .rdUnusedF _
  | .mdmaenNone | .hdmaenSet _ | .pat0 _ _ _ _ _ _ | .pat1 _ _ _ _ _ _ | .pat2 _ _ _ _ _ _ | .pat3 _ _ _ _ _ _
  | .pat4 _ _ _ _ _ _ | .pat5 _ _ _ _ _ _ | .pat6 _ _ _ _ _ _ | .pat7 _ _ _ _ _ _ | .dirBusToPort _ _ _ _ _ _
  | .dirPortToBus _ _ _ _ _ _ | .hdmaDirect _ _ _ _ _ _ | .hdmaIndirect _ _ _ _ _ _ | .stepFixed _ _ _ _ _ _
  | .stepInc _ _ _ _ _ | .stepDec _ _ _ _ _ | .hdrTerminate _ | .hdrOnce128 _ | .evReset _ | .evHdmainit
  | .evHdmaline => true

end Sys2Proof
end

