-- ==== Sys2Proof/Decode.lean ====
section
/-! DEFINITION. The decoder, total on every encoded object and rejecting by name, and the encoder, both written
from 30_encoding.md. -/

namespace Sys2Proof

/-! ### The fields of a control byte (R93, R112) -/

/-- `dir = DMAP[7]`. -/
def ctrlDir (b : Byte) : Dir := if b.getLsbD 7 then .portToBus else .busToPort
/-- `ind = DMAP[6]`. -/
def ctrlInd (b : Byte) : Bool := b.getLsbD 6
/-- `u = DMAP[5]`. -/
def ctrlUnused (b : Byte) : Bool := b.getLsbD 5
/-- `dec = DMAP[4]`. -/
def ctrlDec (b : Byte) : Bool := b.getLsbD 4
/-- `fix = DMAP[3]`. -/
def ctrlFix (b : Byte) : Bool := b.getLsbD 3
/-- `pat = DMAP[2:0]`. -/
def ctrlPat (b : Byte) : BitVec 3 := b.extractLsb' 0 3

/-! ### The decoder -/

/-- `o[15:7] = 0b010000110`: the channel block `0x4300..0x437F` (R91). -/
def isChannelBlock (o : Offset) : Bool := o.extractLsb' 7 9 == 0b010000110#9

/-- `c = o[6:4]` (R112). -/
def offsetChannel (o : Offset) : Channel := ⟨(o.extractLsb' 4 3).toNat, (o.extractLsb' 4 3).isLt⟩

/-- `r = o[3:0]` (R112). -/
def offsetReg (o : Offset) : BitVec 4 := o.extractLsb' 0 4

/-- The write of register `r` of channel `c` (the table of R91). -/
def decodeChannelWrite (c : Channel) (v : Byte) (r : BitVec 4) : Instr :=
  match r.toNat with
  | 0 => .wrDmap c v
  | 1 => .wrBbad c v
  | 2 => .wrA1tl c v
  | 3 => .wrA1th c v
  | 4 => .wrA1b c v
  | 5 => .wrDasl c v
  | 6 => .wrDash c v
  | 7 => .wrDasb c v
  | 8 => .wrA2al c v
  | 9 => .wrA2ah c v
  | 10 => .wrNltr c v
  | 11 => .wrUnusedB c v
  | 12 => .wrUnmappedC c v
  | 13 => .wrUnmappedD c v
  | 14 => .wrUnmappedE c v
  | _ => .wrUnusedF c v

/-- The read of register `r` of channel `c` (the table of R91). -/
def decodeChannelRead (c : Channel) (r : BitVec 4) : Instr :=
  match r.toNat with
  | 0 => .rdDmap c
  | 1 => .rdBbad c
  | 2 => .rdA1tl c
  | 3 => .rdA1th c
  | 4 => .rdA1b c
  | 5 => .rdDasl c
  | 6 => .rdDash c
  | 7 => .rdDasb c
  | 8 => .rdA2al c
  | 9 => .rdA2ah c
  | 10 => .rdNltr c
  | 11 => .rdUnusedB c
  | 12 => .rdUnmappedC c
  | 13 => .rdUnmappedD c
  | 14 => .rdUnmappedE c
  | _ => .rdUnusedF c

/-- `RegWrite(o, v)` by R102. -/
def decodeWrite (o : Offset) (v : Byte) : Except DecodeError Instr :=
  if o = 0x420B then .ok (.wrMdmaen v)
  else if o = 0x420C then .ok (.wrHdmaen v)
  else if isChannelBlock o then .ok (decodeChannelWrite (offsetChannel o) v (offsetReg o))
  else .error (.notEngineWrite o v)

/-- `RegRead(o)` by R102. -/
def decodeRead (o : Offset) : Except DecodeError Instr :=
  if o = 0x420B then .ok .rdMdmaen
  else if o = 0x420C then .ok .rdHdmaen
  else if isChannelBlock o then .ok (decodeChannelRead (offsetChannel o) (offsetReg o))
  else .error (.notEngineRead o)

/-- A `MASK` byte: `MDMAEN_NONE` is matched before `MDMAEN_START` (R103). -/
def decodeMask (r : MaskReg) (m : Byte) : Instr :=
  match r with
  | .mdmaen => if m = 0 then .mdmaenNone else .mdmaenStart m
  | .hdmaen => .hdmaenSet m

/-- The row of the pattern group that a control byte matches. -/
def decodePattern (c : Channel) (b : Byte) : Instr :=
  match (ctrlPat b).toNat with
  | 0 => .pat0 c (ctrlDir b) (ctrlInd b) (ctrlUnused b) (ctrlDec b) (ctrlFix b)
  | 1 => .pat1 c (ctrlDir b) (ctrlInd b) (ctrlUnused b) (ctrlDec b) (ctrlFix b)
  | 2 => .pat2 c (ctrlDir b) (ctrlInd b) (ctrlUnused b) (ctrlDec b) (ctrlFix b)
  | 3 => .pat3 c (ctrlDir b) (ctrlInd b) (ctrlUnused b) (ctrlDec b) (ctrlFix b)
  | 4 => .pat4 c (ctrlDir b) (ctrlInd b) (ctrlUnused b) (ctrlDec b) (ctrlFix b)
  | 5 => .pat5 c (ctrlDir b) (ctrlInd b) (ctrlUnused b) (ctrlDec b) (ctrlFix b)
  | 6 => .pat6 c (ctrlDir b) (ctrlInd b) (ctrlUnused b) (ctrlDec b) (ctrlFix b)
  | _ => .pat7 c (ctrlDir b) (ctrlInd b) (ctrlUnused b) (ctrlDec b) (ctrlFix b)

/-- The row of the direction group that a control byte matches. -/
def decodeDirection (c : Channel) (b : Byte) : Instr :=
  match ctrlDir b with
  | .busToPort => .dirBusToPort c (ctrlInd b) (ctrlUnused b) (ctrlDec b) (ctrlFix b) (ctrlPat b)
  | .portToBus => .dirPortToBus c (ctrlInd b) (ctrlUnused b) (ctrlDec b) (ctrlFix b) (ctrlPat b)

/-- The row of the addressing group that a control byte matches. -/
def decodeAddressing (c : Channel) (b : Byte) : Instr :=
  if ctrlInd b then .hdmaIndirect c (ctrlDir b) (ctrlUnused b) (ctrlDec b) (ctrlFix b) (ctrlPat b)
  else .hdmaDirect c (ctrlDir b) (ctrlUnused b) (ctrlDec b) (ctrlFix b) (ctrlPat b)

/-- The row of the address-step group that a control byte matches: `fix` is looked at first (R153). -/
def decodeAddressStep (c : Channel) (b : Byte) : Instr :=
  if ctrlFix b then .stepFixed c (ctrlDir b) (ctrlInd b) (ctrlUnused b) (ctrlDec b) (ctrlPat b)
  else if ctrlDec b then .stepDec c (ctrlDir b) (ctrlInd b) (ctrlUnused b) (ctrlPat b)
  else .stepInc c (ctrlDir b) (ctrlInd b) (ctrlUnused b) (ctrlPat b)

/-- A control byte in the group of rows `w`. -/
def decodeCtrl (w : CtrlView) (c : Channel) (b : Byte) : Instr :=
  match w with
  | .pattern => decodePattern c b
  | .direction => decodeDirection c b
  | .addressing => decodeAddressing c b
  | .addressStep => decodeAddressStep c b

/-- A header byte, the rows in the order of R103: `0x00`, then `0x80`, then bit 7 clear, then bit 7 set. -/
def decodeHeader (c : Channel) (h : Byte) : Instr :=
  if h = 0x00 then .hdrTerminate c
  else if h = 0x80 then .hdrOnce128 c
  else if h.getLsbD 7 then .hdrRepeat c (h.extractLsb' 0 7)
  else .hdrOnce c (h.extractLsb' 0 7)

/-- A platform event; it has no bits to decode (R103). -/
def decodeEvent : Event → Instr
  | .reset kind => .evReset kind
  | .hdmaInit => .evHdmainit
  | .hdmaLine => .evHdmaline

/-- The decoder, total on every encoded object (R90). -/
def decode : Encoded → Except DecodeError Instr
  | .regWrite o v => decodeWrite o v
  | .regRead o => decodeRead o
  | .mask r m => .ok (decodeMask r m)
  | .dmap w c b => .ok (decodeCtrl w c b)
  | .hdr c h => .ok (decodeHeader c h)
  | .event e => .ok (decodeEvent e)

/-- The opcode table's words. A row's bits do not hold the strobe, the mask register, the channel, the group of a
control byte or which event it is: those are operands without bits, so they are the first of their kind (strobe W
with data byte 0, channel 0, the pattern group, Reset), as notes/assumptions/8.md says. -/
def tableObject (nbits w : Nat) : Option Encoded :=
  match nbits with
  | 16 => some (.regWrite (BitVec.ofNat 16 w) 0)
  | 8 => some (.dmap .pattern 0 (BitVec.ofNat 8 w))
  | 0 => some (.event (.reset .powerOn))
  | _ => none

/-- The instruction the decoder reads from the `nbits` bits `w` of a row of the opcode table. -/
def decodeTableWord (nbits w : Nat) : Option Instr :=
  match tableObject nbits w with
  | none => none
  | some e =>
    match decode e with
    | .ok i => some i
    | .error _ => none

/-! ### The encoder -/

/-- The offset `0100 0011 0ccc rrrr` of R91. -/
def regOffset (c : Channel) (r : BitVec 4) : Offset := 0b010000110#9 ++ BitVec.ofNat 3 c.val ++ r

/-- Bit 7 of the control byte (R23). -/
def Dir.bit : Dir → Bool
  | .busToPort => false
  | .portToBus => true

/-- The control byte `d i u z f p p p` of R93. -/
def ctrlByte (d : Dir) (n u z f : Bool) (p : BitVec 3) : Byte :=
  BitVec.ofBool d.bit ++ BitVec.ofBool n ++ BitVec.ofBool u ++ BitVec.ofBool z ++ BitVec.ofBool f ++ p

/-- The header byte `r n n n n n n n` of R95. -/
def headerByte (repeated : Bool) (lines : BitVec 7) : Byte := BitVec.ofBool repeated ++ lines

/-- The encoder: the object of an instruction, from the tables of 30_encoding.md. -/
def encode : Instr → Encoded
  | .wrMdmaen v => .regWrite 0x420B v
  | .rdMdmaen => .regRead 0x420B
  | .wrHdmaen v => .regWrite 0x420C v
  | .rdHdmaen => .regRead 0x420C
  | .wrDmap c v => .regWrite (regOffset c 0x0) v
  | .rdDmap c => .regRead (regOffset c 0x0)
  | .wrBbad c v => .regWrite (regOffset c 0x1) v
  | .rdBbad c => .regRead (regOffset c 0x1)
  | .wrA1tl c v => .regWrite (regOffset c 0x2) v
  | .rdA1tl c => .regRead (regOffset c 0x2)
  | .wrA1th c v => .regWrite (regOffset c 0x3) v
  | .rdA1th c => .regRead (regOffset c 0x3)
  | .wrA1b c v => .regWrite (regOffset c 0x4) v
  | .rdA1b c => .regRead (regOffset c 0x4)
  | .wrDasl c v => .regWrite (regOffset c 0x5) v
  | .rdDasl c => .regRead (regOffset c 0x5)
  | .wrDash c v => .regWrite (regOffset c 0x6) v
  | .rdDash c => .regRead (regOffset c 0x6)
  | .wrDasb c v => .regWrite (regOffset c 0x7) v
  | .rdDasb c => .regRead (regOffset c 0x7)
  | .wrA2al c v => .regWrite (regOffset c 0x8) v
  | .rdA2al c => .regRead (regOffset c 0x8)
  | .wrA2ah c v => .regWrite (regOffset c 0x9) v
  | .rdA2ah c => .regRead (regOffset c 0x9)
  | .wrNltr c v => .regWrite (regOffset c 0xA) v
  | .rdNltr c => .regRead (regOffset c 0xA)
  | .wrUnusedB c v => .regWrite (regOffset c 0xB) v
  | .rdUnusedB c => .regRead (regOffset c 0xB)
  | .wrUnmappedC c v => .regWrite (regOffset c 0xC) v
  | .rdUnmappedC c => .regRead (regOffset c 0xC)
  | .wrUnmappedD c v => .regWrite (regOffset c 0xD) v
  | .rdUnmappedD c => .regRead (regOffset c 0xD)
  | .wrUnmappedE c v => .regWrite (regOffset c 0xE) v
  | .rdUnmappedE c => .regRead (regOffset c 0xE)
  | .wrUnusedF c v => .regWrite (regOffset c 0xF) v
  | .rdUnusedF c => .regRead (regOffset c 0xF)
  | .mdmaenNone => .mask .mdmaen 0x00
  | .mdmaenStart m => .mask .mdmaen m
  | .hdmaenSet m => .mask .hdmaen m
  | .pat0 c d n u z f => .dmap .pattern c (ctrlByte d n u z f 0)
  | .pat1 c d n u z f => .dmap .pattern c (ctrlByte d n u z f 1)
  | .pat2 c d n u z f => .dmap .pattern c (ctrlByte d n u z f 2)
  | .pat3 c d n u z f => .dmap .pattern c (ctrlByte d n u z f 3)
  | .pat4 c d n u z f => .dmap .pattern c (ctrlByte d n u z f 4)
  | .pat5 c d n u z f => .dmap .pattern c (ctrlByte d n u z f 5)
  | .pat6 c d n u z f => .dmap .pattern c (ctrlByte d n u z f 6)
  | .pat7 c d n u z f => .dmap .pattern c (ctrlByte d n u z f 7)
  | .dirBusToPort c n u z f p => .dmap .direction c (ctrlByte .busToPort n u z f p)
  | .dirPortToBus c n u z f p => .dmap .direction c (ctrlByte .portToBus n u z f p)
  | .hdmaDirect c d u z f p => .dmap .addressing c (ctrlByte d false u z f p)
  | .hdmaIndirect c d u z f p => .dmap .addressing c (ctrlByte d true u z f p)
  | .stepFixed c d n u z p => .dmap .addressStep c (ctrlByte d n u z true p)
  | .stepInc c d n u p => .dmap .addressStep c (ctrlByte d n u false false p)
  | .stepDec c d n u p => .dmap .addressStep c (ctrlByte d n u true false p)
  | .hdrTerminate c => .hdr c 0x00
  | .hdrOnce128 c => .hdr c 0x80
  | .hdrOnce c lines => .hdr c (headerByte false lines)
  | .hdrRepeat c lines => .hdr c (headerByte true lines)
  | .evReset kind => .event (.reset kind)
  | .evHdmainit => .event .hdmaInit
  | .evHdmaline => .event .hdmaLine

end Sys2Proof
end

