-- ==== Sys2Proof/Config.lean ====
section
/-! DEFINITION. What an implementation fixes (the parameters of R6) and the free values of the model. -/

namespace Sys2Proof

/-- A rectangle of the bus address space: the banks `bankLo..bankHi` and, in each of them, the offsets
`offLo..offHi`, all bounds included. -/
structure Window where
  bankLo : Nat
  bankHi : Nat
  offLo : Nat
  offHi : Nat
deriving DecidableEq, Repr

/-- What the Bus has at an address, as far as an access of the engine can tell (R60, R67, R68, R231). -/
inductive RegionKind where
  /-- Storage that keeps what is written. -/
  | ram
  /-- Storage whose writes the Bus absorbs (R231). -/
  | rom
  /-- A register or port of another component: a write is delivered, a read is answered by its owner (R68). -/
  | device
  /-- Nothing answers: a read is open bus (R67), a write is lost. -/
  | unmapped
deriving DecidableEq, Repr

/-- One entry of the Bus's mapping table (R72). -/
structure Region where
  window : Window
  kind : RegionKind
deriving DecidableEq, Repr

/-- The parameters of the step relation (R6, R13): cycle costs, `ASideBlocked`, the banks in which the Bus
routes to the engine's register port, and the Bus's address map. They are the platform's and no step changes
them. DESIGN CHOICE (log 1): they stand in the state as plain data, so that a statement about every state is a
statement about every platform. -/
structure Platform where
  /-- `unit_cost`, OPEN (R6). -/
  unitCost : Nat
  /-- `setup_cost`, OPEN (R6). -/
  setupCost : Nat
  /-- `hdma_setup_cost`, OPEN (R6). -/
  hdmaSetupCost : Nat
  /-- The addresses where `ASideBlocked` holds (R70). -/
  blocked : List Window
  /-- The addresses the Bus routes to the engine's register port (R73). -/
  enginePort : List Window
  /-- The Bus's mapping table of the other components (R72, R82). An address of no entry is the engine's own where
  `enginePort` routes it there, else `ram` (log 6). -/
  regions : List Region
deriving DecidableEq, Repr

namespace Config

/-- `unit_cost` of R6, OPEN: the machine's own, unknown here. -/
opaque unitCost : Nat
/-- `setup_cost` of R6, OPEN: the machine's own, unknown here. -/
opaque setupCost : Nat
/-- `hdma_setup_cost` of R6, OPEN: the machine's own, unknown here. -/
opaque hdmaSetupCost : Nat

/-- `RESET_CH_BYTE` of R6 and R48: what one channel byte holds after a power-on Reset, a fresh draw per byte
(93_implementation_defined.md U3). FREE VALUE (log 3): no body, so nothing can be proved of it. -/
opaque resetChByte : Nat → Byte

/-- What a component that is not the engine answers to a read, where the platform has supplied no answer: the
spec leaves the device's behaviour out (R5). FREE VALUE (log 4), a fresh draw per read. -/
opaque deviceByte : Nat → Byte

/-- What an address that no write has listed reads as, where the Bus has storage. DESIGN CHOICE (log 5): the
spec gives no power-on contents of memory. -/
def unlistedByte : Byte := 0x00

/-- The suggested fill of the channel registers at power-on (R48), used by `State.reset` only.
DESIGN CHOICE (log 2): the spec gives no value. -/
def resetFill : Byte := 0xFF

/-- `PORT_BASE` of R6. -/
def portBase : Addr := 0x002100

/-- The banks `0x00..0x3F` and `0x80..0xBF` at the offsets `lo..hi`. -/
def systemBanks (lo hi : Nat) : List Window := [⟨0x00, 0x3F, lo, hi⟩, ⟨0x80, 0xBF, lo, hi⟩]

/-- The default `ASideBlocked` set of R70. -/
def defaultBlocked : List Window :=
  systemBanks 0x2100 0x21FF ++ systemBanks 0x4000 0x41FF ++ systemBanks 0x4200 0x421F ++ systemBanks 0x4300 0x437F

/-- The engine's offsets of R72 in the suggested banks of R73. -/
def defaultEnginePort : List Window :=
  systemBanks 0x420B 0x420C ++ systemBanks 0x4300 0x437F

/-- The mapping table at reset: the port window of R68 belongs to components that answer for themselves; everything
else but the engine's own offsets is storage. DESIGN CHOICE (log 6): the map is the platform's (R72). -/
def defaultRegions : List Region := [⟨⟨0x00, 0x00, 0x2100, 0x21FF⟩, .device⟩]

/-- The platform at reset: unknown costs, the default sets of R70 and R73. -/
def defaultPlatform : Platform where
  unitCost := unitCost
  setupCost := setupCost
  hdmaSetupCost := hdmaSetupCost
  blocked := defaultBlocked
  enginePort := defaultEnginePort
  regions := defaultRegions

end Config

end Sys2Proof
end

