-- ==== Sys2Proof/Machine/State.lean ====
section
/-! DEFINITION. The state of the machine as plain data: everything R47 gives the engine, and what R34, R42 and R43
give the bus and the scheduler as far as the engine touches it. -/

namespace Sys2Proof.Machine

/-- One channel's registers (R22) and its two hidden flags (R40, R41). -/
structure ChannelRegs where
  /-- `DMAP[c]`, the control byte (R23). -/
  dmap : Byte
  /-- `BBAD[c]`, the first port (R24). -/
  bbad : Byte
  /-- `A1T[c]`, the offset of the A-side address (R25). -/
  a1t : Offset
  /-- `A1B[c]`, the bank of the A-side address and of the HDMA table (R26). -/
  a1b : Byte
  /-- `DAS[c]`, byte count or indirect data offset (R27). -/
  das : Offset
  /-- `DASB[c]`, the bank of indirect data (R28). -/
  dasb : Byte
  /-- `A2A[c]`, the HDMA table pointer (R29). -/
  a2a : Offset
  /-- `NLTR[c]`, the HDMA line counter (R30). -/
  nltr : Byte
  /-- `UNUSED[c]`, storage without function (R31). -/
  unused : Byte
  /-- `do_transfer[c]`, hidden (R40). -/
  doTransfer : Bool
  /-- `done[c]`, hidden (R41). -/
  done : Bool
deriving DecidableEq, Repr

/-- The contents of the Bus's storage: (address, byte) with the addresses strictly rising and no byte equal to
what an unlisted address reads as. -/
abbrev Memory := List Host.Cell

/-- The observable actions of the engine (R11): every `MemRead`, `MemWrite` and `Charge`. -/
inductive Action where
  | read (a : Addr) (v : Byte)
  | write (a : Addr) (v : Byte)
  | charge (n : Nat)
deriving DecidableEq, Repr

/-- A one-byte access of the bus master CPU, at a bus address (R12, R62). Where the Bus routes it to the register port it
is the `RegWrite` or the `RegRead` of R120; anywhere else it is not the engine's (R136). -/
inductive CpuAccess where
  | write (a : Addr) (v : Byte)
  | read (a : Addr)
deriving DecidableEq, Repr

/-- What the agents of R12 do, waiting in the order it is delivered: the CPU's accesses and the platform's events,
nothing else. -/
inductive Request where
  /-- The CPU (R120). -/
  | cpu (a : CpuAccess)
  /-- The platform (R213). -/
  | event (e : Event)
deriving DecidableEq, Repr

/-- ONE decoded part of an engine step, run alone. No agent of R12 asks for one and none can stand among the requests:
the hardware runs such parts only inside a mask write or an event. DESIGN CHOICE (log 7): the model can be given one,
so that every row of the opcode table can be run by itself. -/
inductive Part where
  /-- The data byte of a mask write, presented on its own. -/
  | mask (r : MaskReg) (m : Byte)
  /-- What the group `w` of rows makes of the control byte `DMAP[c]`. -/
  | control (c : Channel) (w : CtrlView)
  /-- `LoadEntry(c)` (R183). -/
  | entry (c : Channel)
deriving DecidableEq, Repr

/-- What a device does at one access of the engine: the environment's side of the Bus (R13), supplied from outside. -/
structure DeviceAct where
  /-- The address accessed. -/
  addr : Addr
  /-- What the device answers if the access is a read; nothing supplied is a free value (log 4). -/
  answer : Option Byte
  /-- The bytes of storage the access changes (log 15): the byte given, or the byte the access moves. -/
  stores : List (Addr × Option Byte)
deriving DecidableEq, Repr

/-- What falls on one boundary between CPU instructions (R213, R214, R252). -/
structure Boundary where
  reset : Option ResetKind
  frame : Bool
  line : Bool
deriving DecidableEq, Repr

/-- The machine. -/
structure State where
  /-- The eight channels (R21, R22). -/
  chans : Vector ChannelRegs nch
  /-- `MDMAEN`, the start mask (R32). -/
  mdmaen : Byte
  /-- `HDMAEN`, the HDMA enable mask (R33). -/
  hdmaen : Byte
  /-- `mdr`, the Bus's last-driven byte (R42, R66). -/
  mdr : Byte
  /-- The Bus's storage (R60, R72). -/
  mem : Memory
  /-- The CPU-domain cycle counter (R43, R218). -/
  cycles : Nat
  /-- The engine's actions so far, the newest first (R11). The model's own record. -/
  trace : List Action
  /-- What the CPU's last access returned (R120): nothing for a write. -/
  reply : Option Byte
  /-- What the platform's devices do at coming accesses: the first entry for an address is spent by the next access
  of it (R13). The outside world's, as in the `PORT pp -> v` lines of R110. -/
  deviceIn : List DeviceAct
  /-- How many free values have been drawn. The model's own counter. -/
  draws : Nat
  /-- The platform's parameters (R6, R13). -/
  plat : Platform
  /-- The requests not yet served, the next one first. -/
  pending : List Request
  /-- A part of an engine step to run alone, before any request. The model's own (log 7); nothing in every state the
  agents of R12 lead to. -/
  alone : Option Part
deriving DecidableEq, Repr

/-- The faults of the machine. There are none: R230, the complete list of exception causes is empty. -/
inductive Fault where
deriving DecidableEq, Repr

/-- Why an instruction is refused. -/
inductive Refusal where
  /-- Raised by `exec` for an instruction without a meaning, by its mnemonic. Safe: the machine stops where the
  hardware goes on. No arm of this model raises it. -/
  | notModelled (mnemonic : String)
deriving DecidableEq, Repr

/-- A channel at reset: every register byte at the suggested fill of R48, both flags false (R48).
DESIGN CHOICE for the registers (log 2): the spec leaves them unspecified. -/
def ChannelRegs.reset : ChannelRegs where
  dmap := Config.resetFill
  bbad := Config.resetFill
  a1t := Config.resetFill ++ Config.resetFill
  a1b := Config.resetFill
  das := Config.resetFill ++ Config.resetFill
  dasb := Config.resetFill
  a2a := Config.resetFill ++ Config.resetFill
  nltr := Config.resetFill
  unused := Config.resetFill
  doTransfer := false
  done := false

/-- The machine right after its first (power-on) Reset: R48, R49, R250. What is not the engine's (`mdr`, the cycle
counter, memory) starts as log 5 and log 9 say. -/
def State.reset : State where
  chans := Vector.replicate nch ChannelRegs.reset
  mdmaen := 0x00
  hdmaen := 0x00
  mdr := 0x00
  mem := []
  cycles := 0
  trace := []
  reply := none
  deviceIn := []
  draws := 0
  plat := Config.defaultPlatform
  pending := []
  alone := none

end Sys2Proof.Machine
end

