-- ==== Sys2Proof/Machine/Ops.lean ====
section
/-! DEFINITION. The named operations over memory, the Bus and the register file. There is no exception to take and
none to return from (R230, R238, R239); the nearest thing, Reset, is in Machine/Events.lean. -/

namespace Sys2Proof.Machine

/-! ### Memory -/

/-- The byte of storage at an address. -/
def Memory.read : Memory → Nat → Byte
  | [], _ => Config.unlistedByte
  | (b, w) :: m, a => if a = b then w else Memory.read m a

/-- Put a listed byte in front, unless it is what an unlisted address reads as. -/
def Memory.put (a : Nat) (v : Byte) (m : Memory) : Memory :=
  if v = Config.unlistedByte then m else (a, v) :: m

/-- Store a byte, keeping the canonical form. -/
def Memory.write : Memory → Nat → Byte → Memory
  | [], a, v => Memory.put a v []
  | (b, w) :: m, a, v =>
    if a < b then Memory.put a v ((b, w) :: m)
    else if a = b then Memory.put a v m
    else (b, w) :: Memory.write m a v

/-- The canonical form: rising addresses, all of them bus addresses, and no byte that an unlisted address reads as. -/
abbrev Memory.wf (m : Memory) : Prop :=
  m.Pairwise (fun x y => x.1 < y.1) ∧ ∀ c ∈ m, c.1 < 2 ^ addrWidth ∧ c.2 ≠ Config.unlistedByte

/-! ### The platform's sets of addresses -/

/-- The bank byte of a bus address (R62). -/
def bankOf (a : Addr) : Byte := a.extractLsb' 16 8

/-- The offset of a bus address (R62). -/
def offsetOf (a : Addr) : Offset := a.extractLsb' 0 16

/-- `bank : offset` (R7, R62). -/
def busAddr (bank : Byte) (o : Offset) : Addr := bank ++ o

/-- The address lies in the window. -/
def windowHolds (a : Addr) (w : Window) : Bool :=
  decide (w.bankLo ≤ (bankOf a).toNat) && decide ((bankOf a).toNat ≤ w.bankHi) &&
    decide (w.offLo ≤ (offsetOf a).toNat) && decide ((offsetOf a).toNat ≤ w.offHi)

/-- Window `b` holds every address of window `w`. -/
def windowCovers (b w : Window) : Bool :=
  decide (b.bankLo ≤ w.bankLo) && decide (w.bankHi ≤ b.bankHi) && decide (b.offLo ≤ w.offLo) && decide (w.offHi ≤ b.offHi)

/-- `ASideBlocked` (R70). -/
def aSideBlocked (p : Platform) (a : Addr) : Bool := p.blocked.any (windowHolds a)

/-- The Bus routes the address to the engine's register port (R73). -/
def routedToEngine (p : Platform) (a : Addr) : Bool := p.enginePort.any (windowHolds a)

/-- What the Bus has at the address (R72). The engine's own offsets are a device: they answer for themselves. -/
def regionKind (p : Platform) (a : Addr) : RegionKind :=
  match p.regions.find? (fun r => windowHolds a r.window) with
  | some r => r.kind
  | none => if routedToEngine p a then .device else .ram

/-- The windows have a bank and an offset in common. -/
def windowsMeet (u w : Window) : Bool :=
  decide (u.bankLo ≤ w.bankHi) && decide (w.bankLo ≤ u.bankHi) && decide (u.offLo ≤ w.offHi) && decide (w.offLo ≤ u.offHi)

/-- The window lies in the engine's offsets `0x420B`, `0x420C`, `0x4300..0x437F` (R72). -/
def ownsOnlyItsOffsets (w : Window) : Bool :=
  (decide (0x420B ≤ w.offLo) && decide (w.offHi ≤ 0x420C)) || (decide (0x4300 ≤ w.offLo) && decide (w.offHi ≤ 0x437F))

/-- What a platform must meet to be built (R70, R82, R232 c): where the Bus routes to the engine, `ASideBlocked` holds;
the engine owns no other offset than its own; no other component claims an address routed to the engine; and no two
regions claim the same address. -/
abbrev platformOk (p : Platform) : Prop :=
  (∀ w ∈ p.enginePort, ∃ b ∈ p.blocked, windowCovers b w = true) ∧
  (∀ w ∈ p.enginePort, ownsOnlyItsOffsets w = true) ∧
  (∀ r ∈ p.regions, ∀ w ∈ p.enginePort, windowsMeet r.window w = false) ∧
  p.regions.Pairwise (fun r q => windowsMeet r.window q.window = false)

/-! ### The Bus (R60, R66, R67) and the cycle counter (R218) -/

/-- `Charge(n)`: add `n` to the CPU-domain cycle counter (R218). -/
def charge (n : Nat) (s : State) : State :=
  { s with cycles := s.cycles + n, trace := .charge n :: s.trace }

/-- The first act supplied for address `a`, and the acts left. -/
def takeAct (a : Addr) : List DeviceAct → Option (DeviceAct × List DeviceAct)
  | [] => none
  | d :: rest =>
    if a = d.addr then some (d, rest)
    else
      match takeAct a rest with
      | some (e, left) => some (e, d :: left)
      | none => none

/-- Storage after a device has stored: each byte as given, or the byte `v` of the access. -/
def applyStores (v : Byte) (cs : List (Addr × Option Byte)) (m : Memory) : Memory :=
  cs.foldl (fun m c => m.write c.1.toNat (c.2.getD v)) m

/-- A byte the outside has not supplied: a free value, a fresh draw (log 4). -/
def freeByte (s : State) : Byte × State := (Config.deviceByte s.draws, { s with draws := s.draws + 1 })

/-- The byte a device's act answers to a read. -/
def actAnswer (d : DeviceAct) (s : State) : Byte × State :=
  match d.answer with
  | some v => (v, s)
  | none => freeByte s

/-- A device is read: the act supplied for it is spent, answers, and stores what it stores (R13, R68); with none
supplied the answer is a free value (log 4). -/
def deviceRead (a : Addr) (s : State) : Byte × State :=
  match takeAct a s.deviceIn with
  | some (d, left) =>
    let r := actAnswer d s
    (r.1, { r.2 with deviceIn := left, mem := applyStores r.1 d.stores r.2.mem })
  | none => freeByte s

/-- A device is written: the act supplied for it is spent and stores what it stores (R13, R68). -/
def deviceWrite (a : Addr) (v : Byte) (s : State) : State :=
  match takeAct a s.deviceIn with
  | some (d, left) => { s with deviceIn := left, mem := applyStores v d.stores s.mem }
  | none => s

/-- The byte the Bus finds at an address, before it is driven (R60, R67). -/
def resolveRead (a : Addr) (s : State) : Byte × State :=
  match regionKind s.plat a with
  | .ram => (s.mem.read a.toNat, s)
  | .rom => (s.mem.read a.toNat, s)
  | .device => deviceRead a s
  | .unmapped => (s.mdr, s)

/-- `v <- MemRead(a, 1)`: it always succeeds and drives `v` (R60, R66). -/
def memRead (a : Addr) (s : State) : Byte × State :=
  let r := resolveRead a s
  (r.1, { r.2 with mdr := r.1, trace := .read a r.1 :: r.2.trace })

/-- What a write does behind the Bus, before it is driven: `ram` keeps it, `rom` absorbs it (R231), a device takes it
(R68). -/
def resolveWrite (a : Addr) (v : Byte) (s : State) : State :=
  match regionKind s.plat a with
  | .ram => { s with mem := s.mem.write a.toNat v }
  | .rom => s
  | .device => deviceWrite a v s
  | .unmapped => s

/-- `MemWrite(a, 1, v)`: it always succeeds and drives `v` (R60, R66). -/
def memWrite (a : Addr) (v : Byte) (s : State) : State :=
  let t := resolveWrite a v s
  { t with mdr := v, trace := .write a v :: t.trace }

/-- `PortAddr(p)` (R68). -/
def portAddr (p : Byte) : Addr := Config.portBase + p.setWidth addrWidth

/-- The A-side half of a byte read from the bus: a blocked address gives open bus and no access (R70). -/
def aSideRead (a : Addr) (s : State) : Byte × State :=
  if aSideBlocked s.plat a then (s.mdr, s) else memRead a s

/-- The A-side half of a byte written to the bus: a blocked address drops it (R70). -/
def aSideWrite (a : Addr) (v : Byte) (s : State) : State :=
  if aSideBlocked s.plat a then s else memWrite a v s

/-- The two accesses of one byte transfer (R152), before the charge. -/
def moveByte (d : Dir) (a : Addr) (p : Byte) (s : State) : State :=
  match d with
  | .busToPort =>
    let r := aSideRead a s
    memWrite (portAddr p) r.1 r.2
  | .portToBus =>
    let r := memRead (portAddr p) s
    aSideWrite a r.1 r.2

/-- `XferByte(dir, a, p)` (R152): read, then write, then charge. -/
def xferByte (d : Dir) (a : Addr) (p : Byte) (s : State) : State :=
  let t := moveByte d a p s
  charge t.plat.unitCost t

/-! ### The channel register file (R22) -/

/-- The registers of channel `c`. -/
def State.ch (s : State) (c : Channel) : ChannelRegs := s.chans[c]

/-- Replace the registers of channel `c`; channels do not alias (R22). -/
def State.setCh (s : State) (c : Channel) (r : ChannelRegs) : State :=
  { s with chans := s.chans.set c r }

/-- Change registers of channel `c`. -/
def State.updCh (s : State) (c : Channel) (f : ChannelRegs → ChannelRegs) : State :=
  s.setCh c (f (s.ch c))

/-- The channels in the order they are served: channel 0 first (R211). -/
def channels : List Channel := [0, 1, 2, 3, 4, 5, 6, 7]

/-! ### The register port (R120, R139) -/

/-- A register write drives its data byte and returns nothing (R120, R139). -/
def driveWrite (v : Byte) (s : State) : State := { s with mdr := v, reply := none }

/-- A register read that returns a register value drives it (R139). -/
def answerRead (v : Byte) (s : State) : State := { s with mdr := v, reply := some v }

/-- A register read that returns `OpenBus()`: `mdr`, unchanged (R121, R135, R139). -/
def answerOpenBus (s : State) : State := { s with reply := some s.mdr }

/-- An address at which the Bus presents offset `o` to the engine (R73): in the first bank of a window of the register
port that holds it; bank `0x00` where there is none. -/
def engineAddr (p : Platform) (o : Offset) : Addr :=
  match p.enginePort.find? (fun w => windowHolds (busAddr (BitVec.ofNat 8 w.bankLo) o) w) with
  | some w => busAddr (BitVec.ofNat 8 w.bankLo) o
  | none => busAddr 0x00 o

/-- An access of the CPU that the engine is not presented with (R136): the Bus serves it as it serves the engine's own
(R60, R66, R67), and the byte written or returned is driven. A read of an unmapped address returns `mdr` and leaves it
(R67, R270). It is no action of the engine. -/
def busAccess (a : CpuAccess) (s : State) : State :=
  match a with
  | .write b v => driveWrite v (resolveWrite b v s)
  | .read b => answerRead (resolveRead b s).1 (resolveRead b s).2

end Sys2Proof.Machine
end

