-- ==== Sys2Proof/Machine/Operands.lean ====
section
/-! DEFINITION. Operand forms: the halves of 16-bit registers, the pattern table and port numbers, the A-side
address step, the addresses of table and data bytes. -/

namespace Sys2Proof.Machine

/-! ### Halves of a 16-bit register, little-endian in the port (R63, R94) -/

/-- `x[7:0]`. -/
def lowByte (x : Offset) : Byte := x.extractLsb' 0 8
/-- `x[15:8]`. -/
def highByte (x : Offset) : Byte := x.extractLsb' 8 8
/-- `hi : lo`. -/
def joinBytes (hi lo : Byte) : Offset := hi ++ lo
/-- `x[15:8] : v`. -/
def setLow (x : Offset) (v : Byte) : Offset := joinBytes (highByte x) v
/-- `v : x[7:0]`. -/
def setHigh (x : Offset) (v : Byte) : Offset := joinBytes v (lowByte x)

/-! ### Patterns and ports -/

/-- `PATTERN_4` of R6, the entry of code 4 (conflict C5). -/
def pattern4 : List Byte := [0, 1, 2, 3]

/-- `PATTERN` (R100): the port offsets of one transfer unit, in transfer order. -/
def pattern (p : BitVec 3) : List Byte :=
  match p.toNat with
  | 0 => [0]
  | 1 => [0, 1]
  | 2 => [0, 0]
  | 3 => [0, 0, 1, 1]
  | 4 => pattern4
  | 5 => [0, 1, 0, 1]
  | 6 => [0, 0]
  | _ => [0, 0, 1, 1]

/-- The unit size `L` (R101). -/
def unitSize (p : BitVec 3) : Nat := (pattern p).length

/-- The port of byte `i`: `(BBAD + PATTERN[pat][i mod L]) mod 256` (R69, R99, R155). -/
def portOf (bbad : Byte) (pat : List Byte) (i : Nat) : Byte := bbad + pat.getD (i % pat.length) 0

/-! ### The A side -/

/-- `Step(c, x)` (R153): the address step of general DMA, modulo 2^16 inside the bank (R71). -/
def stepOffset (fix dec : Bool) (x : Offset) : Offset :=
  if fix then x else if dec then x - 1 else x + 1

/-- `A1B[c] : A1T[c]`, the A-side address of general DMA (R62). -/
def dmaAddr (r : ChannelRegs) : Addr := busAddr r.a1b r.a1t

/-- `A1B[c] : A2A[c]`, the next table byte (R62, R183). -/
def tableAddr (r : ChannelRegs) : Addr := busAddr r.a1b r.a2a

/-- The address of the next HDMA data byte: indirect `DASB[c] : DAS[c]`, direct `A1B[c] : A2A[c]` (R188, R189). -/
def dataAddr (ind : Bool) (r : ChannelRegs) : Addr :=
  if ind then busAddr r.dasb r.das else busAddr r.a1b r.a2a

/-- The pointer step of an HDMA data byte, modulo 2^16 (R188, R189, R193). -/
def stepData (ind : Bool) (r : ChannelRegs) : ChannelRegs :=
  if ind then { r with das := r.das + 1 } else { r with a2a := r.a2a + 1 }

/-- `N` of R154: the bytes a general DMA moves; a start value of 0 is 65536 (R165). -/
def byteCount (das : Offset) : Nat := if das = 0 then 2 ^ 16 else das.toNat

end Sys2Proof.Machine
end

