-- ==== Sys2Proof/Machine/Flags.lean ====
section
/-! DEFINITION. The one-bit state (R38): mask bits, the hidden flags and the line counter they come from. -/

namespace Sys2Proof.Machine

/-- `MASK[c]` (R92, R112). -/
def maskBit (m : Byte) (c : Channel) : Bool := m.getLsbD c.val

/-- The mask with bit `c` clear. -/
def clearMaskBit (m : Byte) (c : Channel) : Byte := m &&& ~~~(1#8 <<< c.val)

/-- `active(c)`: `HDMAEN[c] = 1 and done[c] = false` (R181). -/
def active (c : Channel) (s : State) : Bool := maskBit s.hdmaen c && !(s.ch c).done

/-- Some channel is active (R185). -/
def anyActive (s : State) : Bool := channels.any fun c => active c s

/-- `NLTR[c][7]`, the repeat flag (R30, R112). -/
def repeatFlag (n : Byte) : Bool := n.getLsbD 7

/-- `NLTR[c][6:0]`, the remaining lines (R30, R112). -/
def lineCount (n : Byte) : BitVec 7 := n.extractLsb' 0 7

/-- The count of one line (R198): the whole 8-bit register steps down and `do_transfer` takes its new bit 7. -/
def countLine (r : ChannelRegs) : ChannelRegs :=
  { r with nltr := r.nltr - 1, doTransfer := repeatFlag (r.nltr - 1) }

/-- A header was fetched: it goes to `NLTR` (R183). A terminator sets `done` and clears `do_transfer`; any other
header sets `do_transfer` (R184, R186, R187). -/
def loadTerminator (r : ChannelRegs) : ChannelRegs := { r with nltr := 0x00, done := true, doTransfer := false }

/-- See `loadTerminator`. -/
def loadLines (h : Byte) (r : ChannelRegs) : ChannelRegs := { r with nltr := h, doTransfer := true }

/-- Both hidden flags false (R182, R250). -/
def clearHidden (r : ChannelRegs) : ChannelRegs := { r with done := false, doTransfer := false }

/-- `done[c] <- false`, `do_transfer[c] <- false` (R182, R250). -/
def clearFlags (s : State) (c : Channel) : State := s.updCh c clearHidden

/-- The flags of every channel cleared, `for c in 0..7` (R182, R250). -/
def clearAllHidden (s : State) : State := channels.foldl clearFlags s

end Sys2Proof.Machine
end

