-- ==== Sys2Proof/Machine/Events.lean ====
section
/-! DEFINITION. Reset (R250 to R252) and the meaning of its event. -/

namespace Sys2Proof.Machine

/-- The registers of channel `c` after a power-on Reset: twelve free bytes from draw `n` on, in the order of the
register indices `0x0..0xB` (R91, R250). The flags are cleared separately. -/
def powerOnChannel (n : Nat) (r : ChannelRegs) : ChannelRegs :=
  { r with
    dmap := Config.resetChByte n
    bbad := Config.resetChByte (n + 1)
    a1t := joinBytes (Config.resetChByte (n + 3)) (Config.resetChByte (n + 2))
    a1b := Config.resetChByte (n + 4)
    das := joinBytes (Config.resetChByte (n + 6)) (Config.resetChByte (n + 5))
    dasb := Config.resetChByte (n + 7)
    a2a := joinBytes (Config.resetChByte (n + 9)) (Config.resetChByte (n + 8))
    nltr := Config.resetChByte (n + 10)
    unused := Config.resetChByte (n + 11) }

/-- How many free bytes one channel takes at power-on: its registers `0x0..0xB` (log 10: R22 and R47 count eleven,
their own list of registers has twelve). -/
def channelBytes : Nat := 12

/-- One channel's turn in a power-on Reset. -/
def powerOnStep (s : State) (c : Channel) : State :=
  { s.updCh c (powerOnChannel s.draws) with draws := s.draws + channelBytes }

/-- What both kinds of Reset do (R250): both masks and all hidden flags clear. -/
def resetControl (s : State) : State :=
  { clearAllHidden s with mdmaen := 0x00, hdmaen := 0x00 }

/-- `Reset(kind)` (R250): no bus access and no charge. Soft keeps every channel register (R251). -/
def resetEngine (kind : ResetKind) (s : State) : State :=
  match kind with
  | .soft => resetControl s
  | .powerOn => channels.foldl powerOnStep (resetControl s)

/-- `EV_RESET` (R250). -/
def execEvReset (kind : ResetKind) (s : State) : Host.Outcome State Fault Refusal := .next (resetEngine kind s)

end Sys2Proof.Machine
end

