-- ==== Sys2Proof/Machine/Hdma.lean ====
section
/-! DEFINITION. HDMA (42_hdma.md): `LoadEntry`, `HdmaInit`, `HdmaLine`, and the meanings of the header rows, the
addressing rows and the two HDMA events. -/

namespace Sys2Proof.Machine

/-! ### Table entries (R183, R184) -/

/-- `MemRead(A1B[c] : A2A[c], 1)`, step `A2A[c]`, charge `unit_cost`: one table byte (R183). Table reads are not
subject to `ASideBlocked`. -/
def tableByte (c : Channel) (s : State) : Byte × State :=
  let r := memRead (tableAddr (s.ch c)) s
  (r.1, charge r.2.plat.unitCost (r.2.updCh c fun q => { q with a2a := q.a2a + 1 }))

/-- The pointer of an indirect entry, low byte first, into `DAS[c]` (R64, R183). -/
def loadPointer (c : Channel) (s : State) : State :=
  let lo := tableByte c s
  let hi := tableByte c lo.2
  hi.2.updCh c fun q => { q with das := joinBytes hi.1 lo.1 }

/-- What `LoadEntry(c)` does after it has fetched the header `0x00` (R184): no further access. -/
def takeTerminator (c : Channel) (s : State) : State := s.updCh c loadTerminator

/-- What `LoadEntry(c)` does after it has fetched any other header `h` (R183, R186, R187). -/
def takeLines (c : Channel) (h : Byte) (s : State) : State :=
  let t := s.updCh c (loadLines h)
  if ctrlInd (t.ch c).dmap then loadPointer c t else t

/-- `LoadEntry(c)` (R183). -/
def loadEntry (c : Channel) (s : State) : State :=
  let r := tableByte c s
  if r.1 = 0x00 then takeTerminator c r.2 else takeLines c r.1 r.2

/-! ### One unit of data (pass 1 of R185) -/

/-- One data byte: the address before its step, the port of pattern offset `off`, the transfer (R185). The pointer is
stepped between taking the address and the transfer, as R185 writes it. -/
def hdmaByte (d : Dir) (ind : Bool) (c : Channel) (s : State) (off : Byte) : State :=
  let a := dataAddr ind (s.ch c)
  let t := s.updCh c (stepData ind)
  xferByte d a ((t.ch c).bbad + off) t

/-- One whole unit of pattern `p` (R190). -/
def hdmaUnit (d : Dir) (ind : Bool) (p : BitVec 3) (c : Channel) (s : State) : State :=
  (pattern p).foldl (hdmaByte d ind c) s

/-! ### The two engine steps -/

/-- Pass 1 for channel `c` (R185). `fix` and `dec` are ignored (R191). -/
def hdmaTransfer (s : State) (c : Channel) : State :=
  if active c s && (s.ch c).doTransfer then
    let b := (s.ch c).dmap
    hdmaUnit (ctrlDir b) (ctrlInd b) (ctrlPat b) c s
  else s

/-- Pass 2 for channel `c` (R185, R198). -/
def hdmaCount (s : State) (c : Channel) : State :=
  if active c s then
    let t := s.updCh c countLine
    if lineCount (t.ch c).nltr = 0 then loadEntry c t else t
  else s

/-- `HdmaLine` (R185): all transfers, then all counters and table fetches, channel 0 first in each pass. -/
def hdmaLine (s : State) : State :=
  if anyActive s then
    channels.foldl hdmaCount (channels.foldl hdmaTransfer (charge s.plat.hdmaSetupCost s))
  else s

/-- The turn of channel `c` in `HdmaInit` (R182). -/
def hdmaStart (s : State) (c : Channel) : State :=
  if maskBit s.hdmaen c then loadEntry c (s.updCh c fun r => { r with a2a := r.a1t }) else s

/-- `HdmaInit` (R182). -/
def hdmaInit (s : State) : State :=
  let t := clearAllHidden s
  if t.hdmaen = 0x00 then t
  else channels.foldl hdmaStart (charge t.plat.hdmaSetupCost t)

/-! ### Meanings: a header row is what `LoadEntry(c)` does once it has fetched that header -/

/-- `HDR_TERMINATE` (R184). -/
def execHdrTerminate (c : Channel) (s : State) : Host.Outcome State Fault Refusal := .next (takeTerminator c s)

/-- `HDR_ONCE_128` (R186): header `0x80`. -/
def execHdrOnce128 (c : Channel) (s : State) : Host.Outcome State Fault Refusal := .next (takeLines c 0x80 s)

/-- `HDR_ONCE` (R186): header `0nnnnnnn`. -/
def execHdrOnce (c : Channel) (lines : BitVec 7) (s : State) : Host.Outcome State Fault Refusal :=
  .next (takeLines c (headerByte false lines) s)

/-- `HDR_REPEAT` (R187): header `1nnnnnnn`. -/
def execHdrRepeat (c : Channel) (lines : BitVec 7) (s : State) : Host.Outcome State Fault Refusal :=
  .next (takeLines c (headerByte true lines) s)

/-! ### Meanings: an addressing row is the unit of channel `c` in that addressing mode (R188, R189) -/

/-- `HDMA_DIRECT` (R188). -/
def execHdmaDirect (c : Channel) (d : Dir) (_u _z _f : Bool) (p : BitVec 3) (s : State) :
    Host.Outcome State Fault Refusal :=
  .next (hdmaUnit d false p c s)

/-- `HDMA_INDIRECT` (R189). -/
def execHdmaIndirect (c : Channel) (d : Dir) (_u _z _f : Bool) (p : BitVec 3) (s : State) :
    Host.Outcome State Fault Refusal :=
  .next (hdmaUnit d true p c s)

/-! ### Meanings: the two HDMA events -/

/-- `EV_HDMAINIT` (R182). -/
def execEvHdmainit (s : State) : Host.Outcome State Fault Refusal := .next (hdmaInit s)

/-- `EV_HDMALINE` (R185). -/
def execEvHdmaline (s : State) : Host.Outcome State Fault Refusal := .next (hdmaLine s)

end Sys2Proof.Machine
end

