-- ==== Sys2Proof/Machine/GeneralDma.lean ====
section
/-! DEFINITION. General DMA (41_general_dma.md): `RunDMA`, `RunChannel`, and the meanings of the rows of the pattern,
direction and address-step groups. -/

namespace Sys2Proof.Machine

/-- One pass of the loop of R151 for byte `i`: transfer, then step the address and count the byte (R153, R154). -/
def transferByte (pat : List Byte) (d : Dir) (z f : Bool) (c : Channel) (i : Nat) (s : State) : State :=
  let t := xferByte d (dmaAddr (s.ch c)) (portOf (s.ch c).bbad pat i) s
  t.updCh c fun r => { r with a1t := stepOffset f z r.a1t, das := r.das - 1 }

/-- The loop of R151: repeat until `DAS[c] = 0`. The 16-bit count reaches 0 within 65536 passes (R154), which is the
fuel. -/
def transferLoop (pat : List Byte) (d : Dir) (z f : Bool) (c : Channel) : Nat → Nat → State → State
  | 0, _, s => s
  | fuel + 1, i, s =>
    let t := transferByte pat d z f c i s
    if (t.ch c).das = 0 then t else transferLoop pat d z f c fuel (i + 1) t

/-- `RunChannel(c)` (R151): charge the setup, then move bytes from pattern position 0 (R155). -/
def runChannel (pat : List Byte) (d : Dir) (z f : Bool) (c : Channel) (s : State) : State :=
  transferLoop pat d z f c (2 ^ 16) 0 (charge s.plat.setupCost s)

/-- `RunChannel(c)` under the control byte that `DMAP[c]` holds. -/
def runChannelRegs (c : Channel) (s : State) : State :=
  let b := (s.ch c).dmap
  runChannel (pattern (ctrlPat b)) (ctrlDir b) (ctrlDec b) (ctrlFix b) c s

/-- The turn of channel `c` in `RunDMA` (R150): if its bit is set, run it and clear the bit. -/
def serveDma (s : State) (c : Channel) : State :=
  if maskBit s.mdmaen c then
    let t := runChannelRegs c s
    { t with mdmaen := clearMaskBit t.mdmaen c }
  else s

/-- `RunDMA` (R150): channel 0 first (R211). -/
def runDma (s : State) : State := channels.foldl serveDma s

/-! ### Meanings: a pattern row is `RunChannel(c)` under that control byte (R156 to R163) -/

/-- `PAT0` (R156). -/
def execPat0 (c : Channel) (d : Dir) (_n _u z f : Bool) (s : State) : Host.Outcome State Fault Refusal :=
  .next (runChannel (pattern 0) d z f c s)

/-- `PAT1` (R157). -/
def execPat1 (c : Channel) (d : Dir) (_n _u z f : Bool) (s : State) : Host.Outcome State Fault Refusal :=
  .next (runChannel (pattern 1) d z f c s)

/-- `PAT2` (R158). -/
def execPat2 (c : Channel) (d : Dir) (_n _u z f : Bool) (s : State) : Host.Outcome State Fault Refusal :=
  .next (runChannel (pattern 2) d z f c s)

/-- `PAT3` (R159). -/
def execPat3 (c : Channel) (d : Dir) (_n _u z f : Bool) (s : State) : Host.Outcome State Fault Refusal :=
  .next (runChannel (pattern 3) d z f c s)

/-- `PAT4` (R160, conflict C5: the entry is kept). -/
def execPat4 (c : Channel) (d : Dir) (_n _u z f : Bool) (s : State) : Host.Outcome State Fault Refusal :=
  .next (runChannel (pattern 4) d z f c s)

/-- `PAT5` (R161). -/
def execPat5 (c : Channel) (d : Dir) (_n _u z f : Bool) (s : State) : Host.Outcome State Fault Refusal :=
  .next (runChannel (pattern 5) d z f c s)

/-- `PAT6` (R162). -/
def execPat6 (c : Channel) (d : Dir) (_n _u z f : Bool) (s : State) : Host.Outcome State Fault Refusal :=
  .next (runChannel (pattern 6) d z f c s)

/-- `PAT7` (R163). -/
def execPat7 (c : Channel) (d : Dir) (_n _u z f : Bool) (s : State) : Host.Outcome State Fault Refusal :=
  .next (runChannel (pattern 7) d z f c s)

/-! ### Meanings: a direction row is `XferByte` of the channel's current byte, at pattern position 0 (R152, R167) -/

/-- `DIR_BUS_TO_PORT` (R167). -/
def execDirBusToPort (c : Channel) (_n _u _z _f : Bool) (p : BitVec 3) (s : State) :
    Host.Outcome State Fault Refusal :=
  .next (xferByte .busToPort (dmaAddr (s.ch c)) (portOf (s.ch c).bbad (pattern p) 0) s)

/-- `DIR_PORT_TO_BUS` (R167). -/
def execDirPortToBus (c : Channel) (_n _u _z _f : Bool) (p : BitVec 3) (s : State) :
    Host.Outcome State Fault Refusal :=
  .next (xferByte .portToBus (dmaAddr (s.ch c)) (portOf (s.ch c).bbad (pattern p) 0) s)

/-! ### Meanings: an address-step row is `A1T[c] <- Step(c, A1T[c])` (R153) -/

/-- `STEP_FIXED` (R153, R168): `dec` is ignored. -/
def execStepFixed (c : Channel) (_d : Dir) (_n _u z : Bool) (_p : BitVec 3) (s : State) :
    Host.Outcome State Fault Refusal :=
  .next (s.updCh c fun r => { r with a1t := stepOffset true z r.a1t })

/-- `STEP_INC` (R153). -/
def execStepInc (c : Channel) (_d : Dir) (_n _u : Bool) (_p : BitVec 3) (s : State) :
    Host.Outcome State Fault Refusal :=
  .next (s.updCh c fun r => { r with a1t := stepOffset false false r.a1t })

/-- `STEP_DEC` (R153; kept, conflict C6). -/
def execStepDec (c : Channel) (_d : Dir) (_n _u : Bool) (_p : BitVec 3) (s : State) :
    Host.Outcome State Fault Refusal :=
  .next (s.updCh c fun r => { r with a1t := stepOffset false true r.a1t })

end Sys2Proof.Machine
end

