-- ==== Sys2Proof/Machine/RegisterPort.lean ====
section
/-! DEFINITION. The register port (40_register_port.md): the meanings of the register writes and reads and of the two
mask bytes. -/

namespace Sys2Proof.Machine

/-! ### The shared shapes of a register write and a register read -/

/-- A write that stores into the registers of channel `c` (R123 to R134): it drives its byte (R139) and has no other
effect (R138). -/
def writeChannel (c : Channel) (v : Byte) (f : ChannelRegs → ChannelRegs) (s : State) : State :=
  (driveWrite v s).updCh c f

/-- A read that returns part of the registers of channel `c` (R123 to R134). -/
def readChannel (c : Channel) (f : ChannelRegs → Byte) (s : State) : State :=
  answerRead (f (s.ch c)) s

/-- `MDMAEN <- v` with the write's byte on the bus (R121, R139). -/
def storeMdmaen (v : Byte) (s : State) : State := { driveWrite v s with mdmaen := v }

/-- `HDMAEN <- v` with the write's byte on the bus (R122, R139). -/
def storeHdmaen (v : Byte) (s : State) : State := { driveWrite v s with hdmaen := v }

/-- `RegWrite(0x420B, v)` (R121): store, then `RunDMA` inside the access if `v` is not zero (R215). -/
def writeMdmaen (v : Byte) (s : State) : State :=
  if v = 0x00 then storeMdmaen v s else runDma (storeMdmaen v s)

/-! ### The mask registers -/

/-- `WR_MDMAEN` (R121). -/
def execWrMdmaen (v : Byte) (s : State) : Host.Outcome State Fault Refusal :=
  .next (writeMdmaen v s)

/-- `RD_MDMAEN` (R121): write-only, open bus. -/
def execRdMdmaen (s : State) : Host.Outcome State Fault Refusal :=
  .next (answerOpenBus s)

/-- `WR_HDMAEN` (R122). -/
def execWrHdmaen (v : Byte) (s : State) : Host.Outcome State Fault Refusal :=
  .next (storeHdmaen v s)

/-- `RD_HDMAEN` (R122): write-only, open bus. -/
def execRdHdmaen (s : State) : Host.Outcome State Fault Refusal :=
  .next (answerOpenBus s)

/-- `MDMAEN_NONE` (R108, R121): the byte `0x00` written to `MDMAEN` is stored and starts nothing. -/
def execMdmaenNone (s : State) : Host.Outcome State Fault Refusal :=
  .next (storeMdmaen 0x00 s)

/-- `MDMAEN_START` (R121, R150): a non-zero byte written to `MDMAEN` is stored and runs the channels of its bits. -/
def execMdmaenStart (m : Byte) (s : State) : Host.Outcome State Fault Refusal :=
  .next (runDma (storeMdmaen m s))

/-- `HDMAEN_SET` (R122): a byte written to `HDMAEN` is stored and has no immediate effect. -/
def execHdmaenSet (m : Byte) (s : State) : Host.Outcome State Fault Refusal :=
  .next (storeHdmaen m s)

/-! ### The channel registers -/

/-- `WR_DMAP` (R123). -/
def execWrDmap (c : Channel) (v : Byte) (s : State) : Host.Outcome State Fault Refusal :=
  .next (writeChannel c v (fun r => { r with dmap := v }) s)

/-- `RD_DMAP` (R123). -/
def execRdDmap (c : Channel) (s : State) : Host.Outcome State Fault Refusal :=
  .next (readChannel c (fun r => r.dmap) s)

/-- `WR_BBAD` (R124). -/
def execWrBbad (c : Channel) (v : Byte) (s : State) : Host.Outcome State Fault Refusal :=
  .next (writeChannel c v (fun r => { r with bbad := v }) s)

/-- `RD_BBAD` (R124). -/
def execRdBbad (c : Channel) (s : State) : Host.Outcome State Fault Refusal :=
  .next (readChannel c (fun r => r.bbad) s)

/-- `WR_A1TL` (R125). -/
def execWrA1tl (c : Channel) (v : Byte) (s : State) : Host.Outcome State Fault Refusal :=
  .next (writeChannel c v (fun r => { r with a1t := setLow r.a1t v }) s)

/-- `RD_A1TL` (R125). -/
def execRdA1tl (c : Channel) (s : State) : Host.Outcome State Fault Refusal :=
  .next (readChannel c (fun r => lowByte r.a1t) s)

/-- `WR_A1TH` (R126). -/
def execWrA1th (c : Channel) (v : Byte) (s : State) : Host.Outcome State Fault Refusal :=
  .next (writeChannel c v (fun r => { r with a1t := setHigh r.a1t v }) s)

/-- `RD_A1TH` (R126). -/
def execRdA1th (c : Channel) (s : State) : Host.Outcome State Fault Refusal :=
  .next (readChannel c (fun r => highByte r.a1t) s)

/-- `WR_A1B` (R127). -/
def execWrA1b (c : Channel) (v : Byte) (s : State) : Host.Outcome State Fault Refusal :=
  .next (writeChannel c v (fun r => { r with a1b := v }) s)

/-- `RD_A1B` (R127). -/
def execRdA1b (c : Channel) (s : State) : Host.Outcome State Fault Refusal :=
  .next (readChannel c (fun r => r.a1b) s)

/-- `WR_DASL` (R128). -/
def execWrDasl (c : Channel) (v : Byte) (s : State) : Host.Outcome State Fault Refusal :=
  .next (writeChannel c v (fun r => { r with das := setLow r.das v }) s)

/-- `RD_DASL` (R128). -/
def execRdDasl (c : Channel) (s : State) : Host.Outcome State Fault Refusal :=
  .next (readChannel c (fun r => lowByte r.das) s)

/-- `WR_DASH` (R129). -/
def execWrDash (c : Channel) (v : Byte) (s : State) : Host.Outcome State Fault Refusal :=
  .next (writeChannel c v (fun r => { r with das := setHigh r.das v }) s)

/-- `RD_DASH` (R129). -/
def execRdDash (c : Channel) (s : State) : Host.Outcome State Fault Refusal :=
  .next (readChannel c (fun r => highByte r.das) s)

/-- `WR_DASB` (R130). -/
def execWrDasb (c : Channel) (v : Byte) (s : State) : Host.Outcome State Fault Refusal :=
  .next (writeChannel c v (fun r => { r with dasb := v }) s)

/-- `RD_DASB` (R130). -/
def execRdDasb (c : Channel) (s : State) : Host.Outcome State Fault Refusal :=
  .next (readChannel c (fun r => r.dasb) s)

/-- `WR_A2AL` (R131). -/
def execWrA2al (c : Channel) (v : Byte) (s : State) : Host.Outcome State Fault Refusal :=
  .next (writeChannel c v (fun r => { r with a2a := setLow r.a2a v }) s)

/-- `RD_A2AL` (R131). -/
def execRdA2al (c : Channel) (s : State) : Host.Outcome State Fault Refusal :=
  .next (readChannel c (fun r => lowByte r.a2a) s)

/-- `WR_A2AH` (R132). -/
def execWrA2ah (c : Channel) (v : Byte) (s : State) : Host.Outcome State Fault Refusal :=
  .next (writeChannel c v (fun r => { r with a2a := setHigh r.a2a v }) s)

/-- `RD_A2AH` (R132). -/
def execRdA2ah (c : Channel) (s : State) : Host.Outcome State Fault Refusal :=
  .next (readChannel c (fun r => highByte r.a2a) s)

/-- `WR_NLTR` (R133). -/
def execWrNltr (c : Channel) (v : Byte) (s : State) : Host.Outcome State Fault Refusal :=
  .next (writeChannel c v (fun r => { r with nltr := v }) s)

/-- `RD_NLTR` (R133). -/
def execRdNltr (c : Channel) (s : State) : Host.Outcome State Fault Refusal :=
  .next (readChannel c (fun r => r.nltr) s)

/-- `WR_UNUSED_B` (R134). -/
def execWrUnusedB (c : Channel) (v : Byte) (s : State) : Host.Outcome State Fault Refusal :=
  .next (writeChannel c v (fun r => { r with unused := v }) s)

/-- `RD_UNUSED_B` (R134). -/
def execRdUnusedB (c : Channel) (s : State) : Host.Outcome State Fault Refusal :=
  .next (readChannel c (fun r => r.unused) s)

/-- `WR_UNUSED_F` (R134). -/
def execWrUnusedF (c : Channel) (v : Byte) (s : State) : Host.Outcome State Fault Refusal :=
  .next (writeChannel c v (fun r => { r with unused := v }) s)

/-- `RD_UNUSED_F` (R134). -/
def execRdUnusedF (c : Channel) (s : State) : Host.Outcome State Fault Refusal :=
  .next (readChannel c (fun r => r.unused) s)

/-- `WR_UNMAPPED_C` (R135): no register, the byte is only driven (R139). -/
def execWrUnmappedC (_c : Channel) (v : Byte) (s : State) : Host.Outcome State Fault Refusal :=
  .next (driveWrite v s)

/-- `RD_UNMAPPED_C` (R135): open bus. -/
def execRdUnmappedC (_c : Channel) (s : State) : Host.Outcome State Fault Refusal :=
  .next (answerOpenBus s)

/-- `WR_UNMAPPED_D` (R135): no register, the byte is only driven (R139). -/
def execWrUnmappedD (_c : Channel) (v : Byte) (s : State) : Host.Outcome State Fault Refusal :=
  .next (driveWrite v s)

/-- `RD_UNMAPPED_D` (R135): open bus. -/
def execRdUnmappedD (_c : Channel) (s : State) : Host.Outcome State Fault Refusal :=
  .next (answerOpenBus s)

/-- `WR_UNMAPPED_E` (R135): no register, the byte is only driven (R139). -/
def execWrUnmappedE (_c : Channel) (v : Byte) (s : State) : Host.Outcome State Fault Refusal :=
  .next (driveWrite v s)

/-- `RD_UNMAPPED_E` (R135): open bus. -/
def execRdUnmappedE (_c : Channel) (s : State) : Host.Outcome State Fault Refusal :=
  .next (answerOpenBus s)

end Sys2Proof.Machine
end

