-- ==== Sys2Proof/Machine/Dispatch.lean ====
section
/-! DEFINITION. One arm per constructor of Instr, each one call of its meaning. -/

namespace Sys2Proof.Machine

/-- What an instruction does in a state. -/
def exec (i : Instr) (s : State) : Host.Outcome State Fault Refusal :=
  match i with
  | .wrMdmaen v => Sys2Proof.Machine.execWrMdmaen v s
  | .rdMdmaen => Sys2Proof.Machine.execRdMdmaen s
  | .wrHdmaen v => Sys2Proof.Machine.execWrHdmaen v s
  | .rdHdmaen => Sys2Proof.Machine.execRdHdmaen s
  | .wrDmap c v => Sys2Proof.Machine.execWrDmap c v s
  | .rdDmap c => Sys2Proof.Machine.execRdDmap c s
  | .wrBbad c v => Sys2Proof.Machine.execWrBbad c v s
  | .rdBbad c => Sys2Proof.Machine.execRdBbad c s
  | .wrA1tl c v => Sys2Proof.Machine.execWrA1tl c v s
  | .rdA1tl c => Sys2Proof.Machine.execRdA1tl c s
  | .wrA1th c v => Sys2Proof.Machine.execWrA1th c v s
  | .rdA1th c => Sys2Proof.Machine.execRdA1th c s
  | .wrA1b c v => Sys2Proof.Machine.execWrA1b c v s
  | .rdA1b c => Sys2Proof.Machine.execRdA1b c s
  | .wrDasl c v => Sys2Proof.Machine.execWrDasl c v s
  | .rdDasl c => Sys2Proof.Machine.execRdDasl c s
  | .wrDash c v => Sys2Proof.Machine.execWrDash c v s
  | .rdDash c => Sys2Proof.Machine.execRdDash c s
  | .wrDasb c v => Sys2Proof.Machine.execWrDasb c v s
  | .rdDasb c => Sys2Proof.Machine.execRdDasb c s
  | .wrA2al c v => Sys2Proof.Machine.execWrA2al c v s
  | .rdA2al c => Sys2Proof.Machine.execRdA2al c s
  | .wrA2ah c v => Sys2Proof.Machine.execWrA2ah c v s
  | .rdA2ah c => Sys2Proof.Machine.execRdA2ah c s
  | .wrNltr c v => Sys2Proof.Machine.execWrNltr c v s
  | .rdNltr c => Sys2Proof.Machine.execRdNltr c s
  | .wrUnusedB c v => Sys2Proof.Machine.execWrUnusedB c v s
  | .rdUnusedB c => Sys2Proof.Machine.execRdUnusedB c s
  | .wrUnmappedC c v => Sys2Proof.Machine.execWrUnmappedC c v s
  | .rdUnmappedC c => Sys2Proof.Machine.execRdUnmappedC c s
  | .wrUnmappedD c v => Sys2Proof.Machine.execWrUnmappedD c v s
  | .rdUnmappedD c => Sys2Proof.Machine.execRdUnmappedD c s
  | .wrUnmappedE c v => Sys2Proof.Machine.execWrUnmappedE c v s
  | .rdUnmappedE c => Sys2Proof.Machine.execRdUnmappedE c s
  | .wrUnusedF c v => Sys2Proof.Machine.execWrUnusedF c v s
  | .rdUnusedF c => Sys2Proof.Machine.execRdUnusedF c s
  | .mdmaenNone => Sys2Proof.Machine.execMdmaenNone s
  | .mdmaenStart m => Sys2Proof.Machine.execMdmaenStart m s
  | .hdmaenSet m => Sys2Proof.Machine.execHdmaenSet m s
  | .pat0 c d n u z f => Sys2Proof.Machine.execPat0 c d n u z f s
  | .pat1 c d n u z f => Sys2Proof.Machine.execPat1 c d n u z f s
  | .pat2 c d n u z f => Sys2Proof.Machine.execPat2 c d n u z f s
  | .pat3 c d n u z f => Sys2Proof.Machine.execPat3 c d n u z f s
  | .pat4 c d n u z f => Sys2Proof.Machine.execPat4 c d n u z f s
  | .pat5 c d n u z f => Sys2Proof.Machine.execPat5 c d n u z f s
  | .pat6 c d n u z f => Sys2Proof.Machine.execPat6 c d n u z f s
  | .pat7 c d n u z f => Sys2Proof.Machine.execPat7 c d n u z f s
  | .dirBusToPort c n u z f p => Sys2Proof.Machine.execDirBusToPort c n u z f p s
  | .dirPortToBus c n u z f p => Sys2Proof.Machine.execDirPortToBus c n u z f p s
  | .hdmaDirect c d u z f p => Sys2Proof.Machine.execHdmaDirect c d u z f p s
  | .hdmaIndirect c d u z f p => Sys2Proof.Machine.execHdmaIndirect c d u z f p s
  | .stepFixed c d n u z p => Sys2Proof.Machine.execStepFixed c d n u z p s
  | .stepInc c d n u p => Sys2Proof.Machine.execStepInc c d n u p s
  | .stepDec c d n u p => Sys2Proof.Machine.execStepDec c d n u p s
  | .hdrTerminate c => Sys2Proof.Machine.execHdrTerminate c s
  | .hdrOnce128 c => Sys2Proof.Machine.execHdrOnce128 c s
  | .hdrOnce c lines => Sys2Proof.Machine.execHdrOnce c lines s
  | .hdrRepeat c lines => Sys2Proof.Machine.execHdrRepeat c lines s
  | .evReset kind => Sys2Proof.Machine.execEvReset kind s
  | .evHdmainit => Sys2Proof.Machine.execEvHdmainit s
  | .evHdmaline => Sys2Proof.Machine.execEvHdmaline s

end Sys2Proof.Machine
end

