-- ==== Sys2Proof/Machine/Fetch.lean ====
section
/-! DEFINITION. Fetching and serving: how a waiting request or a part becomes the encoded object the decoder sees, and
what is done with it. -/

namespace Sys2Proof.Machine

/-- Where a CPU access goes. -/
def CpuAccess.addr : CpuAccess → Addr
  | .write a _ => a
  | .read a => a

/-- What the engine is presented with at its register port: the offset and the strobe, not the bank (R73, R120). -/
def CpuAccess.object : CpuAccess → Encoded
  | .write a v => .regWrite (offsetOf a) v
  | .read a => .regRead (offsetOf a)

/-- The encoded object of a part that runs alone (log 7). A mask byte is given; the engine reads a control byte from
`DMAP[c]` and a header byte from the table, which is the fetch of R183: one table byte, `A2A[c]` stepped past it,
`unit_cost` charged. -/
def fetchPart (p : Part) (s : State) : Encoded × State :=
  match p with
  | .mask m v => (.mask m v, s)
  | .control c w => (.dmap w c (s.ch c).dmap, s)
  | .entry c =>
    let b := tableByte c s
    (.hdr c b.1, b.2)

/-- Decode an object and run its instruction; one that is rejected leaves `other`. -/
def serve (o : Encoded) (other s : State) : Host.Outcome State Fault Refusal :=
  match decode o with
  | .ok i => exec i s
  | .error _ => .next other

/-- A request is served. The Bus presents a CPU access to the engine where it routes the address to the register port
(R73, R120); anywhere else, and at an offset the engine does not own, the access is the Bus's (R136). -/
def serveRequest (r : Request) (s : State) : Host.Outcome State Fault Refusal :=
  match r with
  | .cpu a => if routedToEngine s.plat a.addr then serve a.object (busAccess a s) s else .next (busAccess a s)
  | .event e => serve (.event e) s s

end Sys2Proof.Machine
end

