-- ==== Sys2Proof/Machine/Step.lean ====
section
/-! DEFINITION. One step: serve the request that waits first. -/

namespace Sys2Proof.Machine

/-- With no request the engine is idle and its state does not change (R210, R246). Else the first request leaves the
queue and is served. A part that is to run alone (log 7) goes before the requests. -/
def step (s : State) : Host.Outcome State Fault Refusal :=
  match s.alone with
  | some p =>
    let f := fetchPart p { s with alone := none }
    serve f.1 f.2 f.2
  | none =>
    match s.pending with
    | [] => .next s
    | r :: rest => serveRequest r { s with pending := rest }

/-- A row's word placed where `step` takes its next instruction (log 8): a `REGADDR` word is a waiting register
write at an address the Bus routes to the engine, a `DMAP` word stands in `DMAP[0]` with its pattern row to run alone, an `EVENT` row is a waiting event. -/
def State.withFetchWord (s : State) (nbits w : Nat) : State :=
  match nbits with
  | 16 => { s with pending := .cpu (.write (engineAddr s.plat (BitVec.ofNat 16 w)) 0) :: s.pending, alone := none }
  | 8 => { s.updCh 0 (fun r => { r with dmap := BitVec.ofNat 8 w }) with alone := some (.control 0 .pattern) }
  | 0 => { s with pending := .event (.reset .powerOn) :: s.pending, alone := none }
  | _ => s

end Sys2Proof.Machine
end

