-- ==== Sys2Proof/Machine/Platform.lean ====
section
/-! DEFINITION. What the outside world does to the machine: it issues accesses, delivers events on
instruction boundaries (R213, R214, R252), supplies device acts, places memory, and lays out HDMA tables in the
notation of R110 and R111. -/

namespace Sys2Proof.Machine

/-! ### Requests -/

/-- The events of one boundary in the order they are applied: Reset drops the others (R252), else the frame start
comes before the scanline (R223). -/
def boundaryEvents (b : Boundary) : List Event :=
  match b.reset with
  | some kind => [.reset kind]
  | none => (if b.frame then [.hdmaInit] else []) ++ (if b.line then [.hdmaLine] else [])

/-- The accesses of one CPU instruction are issued together, so that no event falls between them (R214). -/
def State.issue (s : State) (accesses : List CpuAccess) : State :=
  { s with pending := s.pending ++ accesses.map .cpu }

/-- The boundaries an instruction crossed, one after the other, before the next instruction (R214). DESIGN CHOICE
(log 20): a Reset on one of them drops the other events of that boundary only; R237 (e) and R252 do not say whether it
drops those of the other boundaries, all of which are delivered at the same instruction boundary. -/
def State.deliver (s : State) (bs : List Boundary) : State :=
  { s with pending := s.pending ++ (bs.flatMap boundaryEvents).map .event }

/-- The environment supplies what devices do at coming accesses (R13). -/
def State.supply (s : State) (acts : List DeviceAct) : State := { s with deviceIn := s.deviceIn ++ acts }

/-- Port `p` answers the next read of it with `v`, as `PORT pp -> v` (R110). -/
def portAnswers (p v : Byte) : DeviceAct := ⟨portAddr p, some v, []⟩

/-- Port `p` puts the byte of the next access of it into storage at `a`: a port that writes memory (R268). -/
def portStores (p : Byte) (a : Addr) : DeviceAct := ⟨portAddr p, none, [(a, none)]⟩

/-- The machine is built on platform `p`; a platform with two owners of an address, or without the block of R70, is
rejected here and not corrected (R82, R232 c). -/
def State.build (s : State) (p : Platform) : Option State := if platformOk p then some { s with plat := p } else none

/-- Memory contents placed from outside, as `MEM bb:oooo = v, v, ...` (R110); the offset wraps in its bank. -/
def State.place (s : State) (bank : Byte) (o : Offset) : List Byte → State
  | [] => s
  | v :: rest =>
    State.place { s with mem := s.mem.write (busAddr bank o).toNat v } bank (o + 1) rest

/-! ### The program notation (R110, R111) -/

/-- `W8 off, v`, in bank `0x00`, which the suggested default of R73 routes to the engine. -/
def w8 (o : Offset) (v : Byte) : CpuAccess := .write (busAddr 0x00 o) v

/-- `R8 off`, in bank `0x00`. -/
def r8 (o : Offset) : CpuAccess := .read (busAddr 0x00 o)

/-- `W16 off, v`. -/
def w16 (o : Offset) (v : BitVec 16) : List CpuAccess := [w8 o (lowByte v), w8 (o + 1) (highByte v)]

/-- `W24 off, v`. -/
def w24 (o : Offset) (v : Addr) : List CpuAccess :=
  [w8 o (lowByte (offsetOf v)), w8 (o + 1) (highByte (offsetOf v)), w8 (o + 2) (bankOf v)]

/-- `HDMA c, ctrl, port, table24`. -/
def hdmaSetup (c : Channel) (ctrl port : Byte) (table : Addr) : List CpuAccess :=
  [w8 (regOffset c 0x0) ctrl, w8 (regOffset c 0x1) port] ++ w24 (regOffset c 0x2) table

/-- `DMA c, ctrl, port, addr24, count`. -/
def dmaSetup (c : Channel) (ctrl port : Byte) (a : Addr) (count : BitVec 16) : List CpuAccess :=
  hdmaSetup c ctrl port a ++ w16 (regOffset c 0x5) count

/-- `.once n, bytes`, with `h` the header `0x01..0x80` (R96). -/
def onceEntry (h : Byte) (bytes : List Byte) : List Byte := h :: bytes

/-- `.repeat n, bytes`: header `0x80 + n` (R96). -/
def repeatEntry (n : BitVec 7) (bytes : List Byte) : List Byte := headerByte true n :: bytes

/-- `.once_ind n, ptr` (R97). -/
def onceIndEntry (h : Byte) (ptr : Offset) : List Byte := [h, lowByte ptr, highByte ptr]

/-- `.repeat_ind n, ptr` (R97). -/
def repeatIndEntry (n : BitVec 7) (ptr : Offset) : List Byte := [headerByte true n, lowByte ptr, highByte ptr]

/-- `.end`. -/
def endEntry : List Byte := [0x00]

/-! ### What an observer sees -/

/-- The engine's actions in the order they happened. -/
def State.actions (s : State) : List Action := s.trace.reverse

/-- `PORT pp <- v` (R110): the bytes written to the port window, in order. -/
def State.portWrites (s : State) : List (Byte × Byte) :=
  s.actions.filterMap fun
    | .write a v => if bankOf a = 0x00 ∧ highByte (offsetOf a) = 0x21 then some (lowByte (offsetOf a), v) else none
    | .read _ _ => none
    | .charge _ => none

end Sys2Proof.Machine
end

