-- ==== Sys2Proof/Machine/SaveState.lean ====
section
/-! DEFINITION. Save-state (R47, R247): the engine's whole mutable state as a plain serializable value, taken and put
back between steps. It is the host's operation on a live engine, not an instruction. -/

namespace Sys2Proof.Machine

/-- The twelve register bytes of a channel in the order of the register indices `0x0..0xB` (R91). -/
def channelBlob (r : ChannelRegs) : List Byte :=
  [r.dmap, r.bbad, lowByte r.a1t, highByte r.a1t, r.a1b, lowByte r.das, highByte r.das, r.dasb,
    lowByte r.a2a, highByte r.a2a, r.nltr, r.unused, BitVec.ofBool r.doTransfer ++ BitVec.ofBool r.done ++ 0#6]

/-- A channel from its thirteen bytes. A flag byte with any of its six other bits set has not the shape and is
rejected, not corrected (R232 c). -/
def channelFromBlob (b : List Byte) : Option ChannelRegs :=
  match b with
  | [d, p, al, ah, ab, cl, ch, cb, tl, th, n, u, f] =>
    if f.extractLsb' 0 6 = 0 then
      some { dmap := d, bbad := p, a1t := joinBytes ah al, a1b := ab, das := joinBytes ch cl, dasb := cb,
             a2a := joinBytes th tl, nltr := n, unused := u, doTransfer := f.getLsbD 7, done := f.getLsbD 6 }
    else none
  | _ => none

/-- The state of R47 as bytes: both masks, then the eight channels. DESIGN CHOICE (log 11): the layout is the model's. -/
def State.serialize (s : State) : List Byte :=
  [s.mdmaen, s.hdmaen] ++ channels.flatMap fun c => channelBlob (s.ch c)

/-- The channels `cs` put back from `b`, thirteen bytes each. -/
def restoreChannels : List Channel → List Byte → State → Option State
  | [], [], s => some s
  | [], _ :: _, _ => none
  | c :: cs, b, s =>
    match channelFromBlob (b.take 13) with
    | some r => restoreChannels cs (b.drop 13) (s.setCh c r)
    | none => none

/-- Put a serialized engine back; a blob of the wrong shape is rejected where it is detected (R232 c). DESIGN CHOICE
(log 11): a blob whose `MDMAEN` byte is not `0x00` has the shape of R47 and is accepted as it is, although no snapshot
of a running engine holds one (R35, R247). -/
def State.restore (s : State) (b : List Byte) : Option State :=
  match b with
  | m :: h :: rest => restoreChannels channels rest { s with mdmaen := m, hdmaen := h }
  | _ => none

end Sys2Proof.Machine
end

