-- ==== Sys2Proof/Safety.lean ====
section
/-! DEFINITION. What counts as a safe state and a safe run, in the terms the statements use. -/

namespace Sys2Proof.Machine

/-- The machine's invariant: `MDMAEN` is zero wherever it can be observed (R35), memory is canonical, and the platform
may be built: it blocks the engine's own registers on the A side (R70) and no address has two owners (R82). -/
abbrev State.Inv (s : State) : Prop := s.mdmaen = 0x00 ∧ Memory.wf s.mem ∧ platformOk s.plat

/-- The machine goes on from `s`. -/
def State.goesOn (s : State) : Prop := ∃ t, step s = .next t

/-- The state of R47, without the bus and the scheduler. -/
abbrev State.sameEngine (s t : State) : Prop := s.chans = t.chans ∧ s.mdmaen = t.mdmaen ∧ s.hdmaen = t.hdmaen

/-- Nothing of the Bus, the scheduler or the platform differs, the answer to the bus master and the byte it drove
apart. -/
abbrev State.sameOutside (s t : State) : Prop :=
  s.mem = t.mem ∧ s.cycles = t.cycles ∧ s.trace = t.trace ∧ s.deviceIn = t.deviceIn ∧ s.draws = t.draws ∧
    s.plat = t.plat ∧ s.pending = t.pending ∧ s.alone = t.alone

/-- A device act that waits stores to address `a`: the environment, not the engine, may change that byte (log 15). -/
abbrev State.deviceStores (s : State) (a : Addr) : Prop := ∃ d ∈ s.deviceIn, ∃ c ∈ d.stores, c.1 = a

/-- Two states that differ in the cost parameters, the cycle counter and the trace only (R218). -/
abbrev State.sameButCosts (s t : State) : Prop :=
  State.sameEngine s t ∧ s.mem = t.mem ∧ s.mdr = t.mdr ∧ s.deviceIn = t.deviceIn ∧ s.draws = t.draws ∧
    s.reply = t.reply ∧ s.pending = t.pending ∧ s.alone = t.alone ∧ s.plat.blocked = t.plat.blocked ∧
    s.plat.regions = t.plat.regions ∧ s.plat.enginePort = t.plat.enginePort

/-- Every register and flag of every channel but `c`. -/
abbrev State.sameOtherChannels (c : Channel) (s t : State) : Prop := ∀ x, x ≠ c → t.ch x = s.ch x

/-- The registers the engine never writes by itself (the table of R22). -/
abbrev ChannelRegs.sameFixed (r q : ChannelRegs) : Prop :=
  r.dmap = q.dmap ∧ r.bbad = q.bbad ∧ r.a1b = q.a1b ∧ r.dasb = q.dasb ∧ r.unused = q.unused

/-- `i` stores into the registers of channel `c` what `f` makes of them, drives `v`, returns nothing and changes
nothing else. -/
def StoresInChannel (i : Instr) (c : Channel) (v : Byte) (f : ChannelRegs → ChannelRegs) : Prop :=
  ∀ s, ∃ t, exec i s = .next t ∧ t.ch c = f (s.ch c) ∧ State.sameOtherChannels c s t ∧ t.mdmaen = s.mdmaen ∧
    t.hdmaen = s.hdmaen ∧ t.mdr = v ∧ t.reply = none ∧ State.sameOutside s t

/-- `i` returns the byte `x` makes of the state, drives it and changes nothing else. -/
def AnswersWith (i : Instr) (x : State → Byte) : Prop :=
  ∀ s, ∃ t, exec i s = .next t ∧ t.reply = some (x s) ∧ t.mdr = x s ∧ State.sameEngine s t ∧ State.sameOutside s t

/-- The pattern rows of the table with the operands left open, by pattern code. -/
def patternRow (k : BitVec 3) (c : Channel) (d : Dir) (n u z f : Bool) : Instr :=
  match k.toNat with
  | 0 => .pat0 c d n u z f
  | 1 => .pat1 c d n u z f
  | 2 => .pat2 c d n u z f
  | 3 => .pat3 c d n u z f
  | 4 => .pat4 c d n u z f
  | 5 => .pat5 c d n u z f
  | 6 => .pat6 c d n u z f
  | _ => .pat7 c d n u z f

/-- The addressing rows of the table with the operands left open, by `DMAP[c].ind`. -/
def addressingRow (ind : Bool) (c : Channel) (d : Dir) (u z f : Bool) (p : BitVec 3) : Instr :=
  if ind then .hdmaIndirect c d u z f p else .hdmaDirect c d u z f p

/-- The direction rows of the table with the operands left open. -/
def directionRow (d : Dir) (c : Channel) (n u z f : Bool) (p : BitVec 3) : Instr :=
  match d with
  | .busToPort => .dirBusToPort c n u z f p
  | .portToBus => .dirPortToBus c n u z f p

/-- The header rows that are no terminator, each with its header byte. -/
def linesRow (h : Byte) (c : Channel) : Instr :=
  if h = 0x80 then .hdrOnce128 c
  else if h.getLsbD 7 then .hdrRepeat c (h.extractLsb' 0 7)
  else .hdrOnce c (h.extractLsb' 0 7)

/-! ### What the actions of a run are -/

/-- A read of storage: its byte is the Bus's, and memory is where it is kept. -/
def isStorage (p : Platform) (a : Addr) : Bool := regionKind p a = .ram || regionKind p a = .rom

/-- A CPU read of address `a` is open bus: an engine offset without a readable register (R121, R122, R135), or an
address that is not the engine's and where nothing answers (R67). -/
abbrev readsOpenBus (p : Platform) (a : Addr) : Prop :=
  if routedToEngine p a then
    decode (.regRead (offsetOf a)) = .ok .rdMdmaen ∨ decode (.regRead (offsetOf a)) = .ok .rdHdmaen ∨
      ∃ c, decode (.regRead (offsetOf a)) = .ok (.rdUnmappedC c) ∨
        decode (.regRead (offsetOf a)) = .ok (.rdUnmappedD c) ∨ decode (.regRead (offsetOf a)) = .ok (.rdUnmappedE c)
  else regionKind p a = .unmapped

/-- The cycles a list of actions charges (R218). -/
def charged : List Action → Nat
  | [] => 0
  | .charge n :: l => n + charged l
  | .read _ _ :: l => charged l
  | .write _ _ :: l => charged l

/-- The last byte the actions drove on the Bus, the newest action first; `m` if they moved none (R66). -/
def lastDriven (m : Byte) : List Action → Byte
  | [] => m
  | .charge _ :: l => lastDriven m l
  | .read _ v :: _ => v
  | .write _ v :: _ => v

/-- The reads among the actions `l` (the newest first), in the order they happened. -/
def readsOf (l : List Action) : List (Addr × Byte) :=
  l.reverse.filterMap fun
    | .read a v => some (a, v)
    | .write _ _ => none
    | .charge _ => none

/-- The writes among the actions `l` (the newest first), in the order they happened. -/
def writesOf (l : List Action) : List (Addr × Byte) :=
  l.reverse.filterMap fun
    | .read _ _ => none
    | .write a v => some (a, v)
    | .charge _ => none

/-- A bus access of the engine, without the byte it moved. -/
inductive Access where
  | read (a : Addr)
  | write (a : Addr)
deriving DecidableEq, Repr

/-- The accesses among the actions `l` (the newest first), in the order they happened. -/
def accessesOf (l : List Action) : List Access :=
  l.reverse.filterMap fun
    | .read a _ => some (.read a)
    | .write a _ => some (.write a)
    | .charge _ => none

/-- Every write among the actions carries the byte that is on the Bus at its moment, where `m` is there first: the byte
read just before it, or open bus where that read was blocked (R63, R70, R152). -/
def carriesBusByte (m : Byte) : List Action → Prop
  | [] => True
  | .charge _ :: l => carriesBusByte m l
  | .read _ _ :: l => carriesBusByte m l
  | .write _ v :: l => v = lastDriven m l ∧ carriesBusByte m l

/-- The byte at address `a` after the actions `l`, where `f` gives storage's bytes before them: the last write to `a`
decides where the platform has storage there that keeps writes (R60, R77, R231). -/
def memAfter (p : Platform) (f : Addr → Byte) : List Action → Addr → Byte
  | [], a => f a
  | .charge _ :: l, a => memAfter p f l a
  | .read _ _ :: l, a => memAfter p f l a
  | .write b v :: l, a => if a = b ∧ regionKind p b = .ram then v else memAfter p f l a

/-- Every read of storage among the actions gives what storage holds at its moment, addresses of `except` apart (R77,
R80, R268). -/
def readsStorage (p : Platform) (f : Addr → Byte) (except : Addr → Prop) : List Action → Prop
  | [] => True
  | .charge _ :: l => readsStorage p f except l
  | .write _ _ :: l => readsStorage p f except l
  | .read a v :: l => (isStorage p a = true → ¬ except a → v = memAfter p f l a) ∧ readsStorage p f except l

/-- The bytes of storage. -/
def State.bytes (s : State) (a : Addr) : Byte := Memory.read s.mem a.toNat

/-- Between `s` and `t` storage went the way of the actions `l`: it holds what they wrote, each of their reads of storage
gave the byte of its moment, and the bytes the environment's devices store to are the only ones this leaves open
(R268, log 15). -/
abbrev StorageFollows (s t : State) (l : List Action) : Prop :=
  (∀ a, ¬ s.deviceStores a → t.bytes a = memAfter s.plat s.bytes l a) ∧
    readsStorage s.plat s.bytes s.deviceStores l

/-- The byte on the Bus when instruction `i` begins its actions: a register write drives its byte (R139), and that it is
there before the actions of a general DMA is DEDUCED (log 13); a mask row is that write by the model's reading (log 7); a
read drives what it returns and has no actions. -/
def drivenFirst (i : Instr) (s t : State) : Byte :=
  match encode i with
  | .regWrite _ v => v
  | .mask _ m => m
  | .regRead _ => t.mdr
  | .dmap _ _ _ => s.mdr
  | .hdr _ _ => s.mdr
  | .event _ => s.mdr

/-! ### What general DMA does, in closed form -/

/-- The accesses of one byte transfer between address `a` and port `port` (R152, R70): the read first. -/
def byteAccesses (p : Platform) (d : Dir) (a : Addr) (port : Byte) : List Access :=
  match d with
  | .busToPort => (if aSideBlocked p a then [] else [.read a]) ++ [.write (portAddr port)]
  | .portToBus => .read (portAddr port) :: (if aSideBlocked p a then [] else [.write a])

/-- The A-side offset after `n` bytes of general DMA (R153, R164). -/
def offsetAfter (f z : Bool) (x : Offset) (n : Nat) : Offset :=
  if f then x else if z then x - BitVec.ofNat 16 n else x + BitVec.ofNat 16 n

/-- The A-side address of byte `k` of a general DMA (R62, R71). -/
def byteAddr (f z : Bool) (r : ChannelRegs) (k : Nat) : Addr := busAddr r.a1b (offsetAfter f z r.a1t k)

/-- A channel after a whole general DMA (R164). -/
def dmaAfter (f z : Bool) (r : ChannelRegs) : ChannelRegs :=
  { r with a1t := offsetAfter f z r.a1t (byteCount r.das), das := 0 }

/-- The accesses of a whole general DMA of a channel, in order (R151). -/
def dmaAccesses (p : Platform) (pat : List Byte) (d : Dir) (f z : Bool) (r : ChannelRegs) : List Access :=
  (List.range (byteCount r.das)).flatMap fun k => byteAccesses p d (byteAddr f z r k) (portOf r.bbad pat k)

/-- The cycles of a whole general DMA of a channel (R170). -/
def dmaCost (p : Platform) (r : ChannelRegs) : Nat := p.setupCost + byteCount r.das * p.unitCost

/-! ### What HDMA does, in closed form -/

/-- A channel's registers after `n` data bytes of HDMA (R188, R189, R193). -/
def unitAfter (ind : Bool) (n : Nat) (r : ChannelRegs) : ChannelRegs :=
  if ind then { r with das := r.das + BitVec.ofNat 16 n } else { r with a2a := r.a2a + BitVec.ofNat 16 n }

/-- The accesses of one unit of pattern `p` (R185, R190). -/
def unitAccesses (pl : Platform) (d : Dir) (ind : Bool) (p : BitVec 3) (r : ChannelRegs) : List Access :=
  (List.range (unitSize p)).flatMap fun k =>
    byteAccesses pl d (dataAddr ind (unitAfter ind k r)) (r.bbad + (pattern p).getD k 0)

/-- A channel after `LoadEntry` has fetched the header `h` and, where the entry has a pointer, `lo` and `hi`
(R183, R184). -/
def entryAfter (r : ChannelRegs) (h lo hi : Byte) : ChannelRegs :=
  if h = 0x00 then { r with a2a := r.a2a + 1, nltr := 0x00, done := true, doTransfer := false }
  else if ctrlInd r.dmap then
    { r with a2a := r.a2a + 3, nltr := h, das := joinBytes hi lo, doTransfer := true }
  else { r with a2a := r.a2a + 1, nltr := h, doTransfer := true }

/-- The bytes `LoadEntry` reads, in order (R183, R184). -/
def entryReads (r : ChannelRegs) (h lo hi : Byte) : List (Addr × Byte) :=
  if h = 0x00 ∨ ctrlInd r.dmap = false then [(busAddr r.a1b r.a2a, h)]
  else [(busAddr r.a1b r.a2a, h), (busAddr r.a1b (r.a2a + 1), lo), (busAddr r.a1b (r.a2a + 2), hi)]

/-- A channel at the end of pass 1 of a line it is active in (R185). -/
def transferAfter (r : ChannelRegs) : ChannelRegs :=
  if r.doTransfer then unitAfter (ctrlInd r.dmap) (unitSize (ctrlPat r.dmap)) r else r

/-- The line on which an active channel's counter runs out: the low seven bits of the new count are zero (R198). -/
def reloads (r : ChannelRegs) : Bool := lineCount (r.nltr - 1) = 0

/-- A channel at the end of a line it is active in, where `h`, `lo` and `hi` are what the table holds next (R185). -/
def lineAfter (r : ChannelRegs) (h lo hi : Byte) : ChannelRegs :=
  if reloads r then entryAfter (countLine (transferAfter r)) h lo hi else countLine (transferAfter r)

/-! ### A run -/

/-- The engine took `s` to `t` by the actions `l`, the newest first: the cycle counter, `mdr` and every byte of memory
are what these actions make of them (the bytes a device stores to apart), and nothing of the platform, the waiting
requests or the bus master's answer changed. Any register may have. -/
structure EngineRun (s t : State) (l : List Action) : Prop where
  trace : t.trace = l ++ s.trace
  cycles : t.cycles = s.cycles + charged l
  mdr : t.mdr = lastDriven s.mdr l
  carries : carriesBusByte s.mdr l
  mem : ∀ a : Addr, ¬ s.deviceStores a → (∀ v, Action.write a v ∉ l) →
    Memory.read t.mem a.toNat = Memory.read s.mem a.toNat
  follows : Memory.wf s.mem → StorageFollows s t l
  stores : ∀ a, t.deviceStores a → s.deviceStores a
  memWf : Memory.wf s.mem → Memory.wf t.mem
  plat : t.plat = s.plat
  pending : t.pending = s.pending
  reply : t.reply = s.reply
  alone : t.alone = s.alone

end Sys2Proof.Machine
end

