-- ==== Sys2Proof/Certificates/Slice0/Obligations.lean ====
section
/-! DEFINITION. The statements for the provers. Free values (Config.resetChByte, Config.deviceByte) occur in none of
them: a statement holds for every value. What a device answers and stores is the environment's (R13, log 15): a
statement about bytes of storage holds for every list of device acts and leaves open the bytes these acts name. -/

open Sys2Proof Sys2Proof.Machine

/-! ### Reset, the invariant, the step -/

/-- R49, at `State.reset` and after every Reset event. -/
def Obligations.NoChannelEnabledAfterReset : Prop :=
  State.reset.mdmaen = 0x00 ∧ State.reset.hdmaen = 0x00 ∧
  ∀ (k : ResetKind) (s : State), ∃ t, exec (.evReset k) s = .next t ∧ t.mdmaen = 0x00 ∧ t.hdmaen = 0x00

/-- The invariant holds at reset. -/
def Obligations.ResetMeetsTheInvariant : Prop := State.reset.Inv

/-- R35 (MDMAEN is zero wherever it can be observed), the canonical form of memory, and the requirements of R70 and R82
on the platform: no step breaks them, whatever request or part it serves. -/
def Obligations.StepKeepsTheInvariant : Prop :=
  ∀ s t : State, s.Inv → step s = .next t → t.Inv

/-- R230: no instruction faults or is refused, in any state. -/
def Obligations.NoInstructionStops : Prop :=
  ∀ (i : Instr) (s : State), ∃ t, exec i s = .next t

/-- R210: no step faults, blocks or is refused, whatever waits; with nothing waiting the state does not change. -/
def Obligations.NoStepStops : Prop :=
  (∀ s : State, s.goesOn) ∧ ∀ s : State, s.alone = none → s.pending = [] → step s = .next s

/-- A step takes the first request off the queue, decodes its object and runs the instruction, in the state it finds; a
CPU access is the engine's where the Bus routes its address to the register port (R73).
A part that is to run alone (the model's own, log 7) goes before the requests: a mask byte or a control byte runs in
the state it finds, an entry's fetch is the header byte of R183. -/
def Obligations.StepRunsTheDecodedInstruction : Prop :=
  (∀ (s : State) (rest : List Request) (a : Addr) (v : Byte) (i : Instr), s.alone = none →
    s.pending = .cpu (.write a v) :: rest → routedToEngine s.plat a = true →
    decode (.regWrite (offsetOf a) v) = .ok i → step s = exec i { s with pending := rest }) ∧
  (∀ (s : State) (rest : List Request) (a : Addr) (i : Instr), s.alone = none →
    s.pending = .cpu (.read a) :: rest → routedToEngine s.plat a = true →
    decode (.regRead (offsetOf a)) = .ok i → step s = exec i { s with pending := rest }) ∧
  (∀ (s : State) (rest : List Request) (e : Event) (i : Instr), s.alone = none → s.pending = .event e :: rest →
    decode (.event e) = .ok i → step s = exec i { s with pending := rest }) ∧
  (∀ (s : State) (r : MaskReg) (m : Byte) (i : Instr), s.alone = some (.mask r m) → decode (.mask r m) = .ok i →
    step s = exec i { s with alone := none }) ∧
  (∀ (s : State) (c : Channel) (w : CtrlView) (i : Instr), s.alone = some (.control c w) →
    decode (.dmap w c (s.ch c).dmap) = .ok i → step s = exec i { s with alone := none }) ∧
  (∀ (s : State) (c : Channel), s.alone = some (.entry c) → ∃ h t, t.alone = none ∧
    t.trace = .charge s.plat.unitCost :: .read (tableAddr (s.ch c)) h :: s.trace ∧
    t.ch c = { s.ch c with a2a := (s.ch c).a2a + 1 } ∧ State.sameOtherChannels c s t ∧ t.pending = s.pending ∧
    ∃ i, decode (.hdr c h) = .ok i ∧ step s = exec i t)

/-- R136, R60, R66, R67, R270: a CPU access that is not the engine's (the Bus does not route the address to it, or the
offset is not its own) leaves the engine unchanged, makes no access of its own and charges nothing; the Bus serves it. A
write drives its byte and is kept in `ram` only; a read returns the byte of storage, or `mdr` where nothing answers, and
drives it; what a device answers and stores is the environment's (logs 4, 15). -/
def Obligations.ForeignOffsetLeavesTheEngine : Prop :=
  (∀ (s : State) (a : Addr) (v : Byte) (rest : List Request), s.alone = none →
    s.pending = .cpu (.write a v) :: rest →
    (routedToEngine s.plat a = false ∨ ∃ e, decode (.regWrite (offsetOf a) v) = .error e) →
    ∃ t, step s = .next t ∧ State.sameEngine s t ∧ t.trace = s.trace ∧ t.cycles = s.cycles ∧ t.mdr = v ∧
      t.reply = none ∧ t.pending = rest ∧ t.plat = s.plat ∧
      (Memory.wf s.mem → ∀ x : Addr, ¬ s.deviceStores x → Memory.read t.mem x.toNat =
        if x = a ∧ regionKind s.plat a = .ram then v else Memory.read s.mem x.toNat)) ∧
  (∀ (s : State) (a : Addr) (rest : List Request), s.alone = none → s.pending = .cpu (.read a) :: rest →
    (routedToEngine s.plat a = false ∨ ∃ e, decode (.regRead (offsetOf a)) = .error e) →
    ∃ t x, step s = .next t ∧ State.sameEngine s t ∧ t.trace = s.trace ∧ t.cycles = s.cycles ∧ t.mdr = x ∧
      t.reply = some x ∧ t.pending = rest ∧ t.plat = s.plat ∧
      (∀ y : Addr, ¬ s.deviceStores y → Memory.read t.mem y.toNat = Memory.read s.mem y.toNat) ∧
      (isStorage s.plat a = true → x = Memory.read s.mem a.toNat) ∧
      (regionKind s.plat a = .unmapped → x = s.mdr ∧ t.mdr = s.mdr))

/-- R12, R210, R213 (d), over the model's queue of requests (logs 12, 17) and its parts run alone (log 7): a step spends
exactly one of them and changes nothing of the platform; and with no part to run alone, the engine acts on the bus or
charges in exactly three cases: a non-zero write to `MDMAEN`, the frame start, the scanline. -/
def Obligations.StepServesOneRequest : Prop :=
  (∀ s t : State, step s = .next t → t.plat = s.plat ∧ t.alone = none ∧
    (s.alone = none → t.pending = s.pending.tail) ∧ (s.alone ≠ none → t.pending = s.pending)) ∧
  (∀ s t : State, s.alone = none → step s = .next t →
    (t.trace = s.trace ∧ t.cycles = s.cycles) ∨
    (∃ a v rest, v ≠ 0x00 ∧ s.pending = .cpu (.write a v) :: rest ∧
      routedToEngine s.plat a = true ∧ offsetOf a = 0x420B) ∨
    (∃ rest, s.pending = .event .hdmaInit :: rest) ∨ ∃ rest, s.pending = .event .hdmaLine :: rest)

/-! ### Encodings -/

/-- Decode and encode agree on every well-formed instruction. -/
def Obligations.DecodeInvertsEncode : Prop :=
  ∀ i : Instr, i.wellFormed = true → decode (encode i) = .ok i

/-- Whatever decodes is the word of one well-formed instruction: no bit of an object is dropped. -/
def Obligations.EncodeInvertsDecode : Prop :=
  ∀ (e : Encoded) (i : Instr), decode e = .ok i → i.wellFormed = true ∧ encode i = e

/-- R102: which offsets are the engine's. -/
def Obligations.DecoderOwnsExactlyItsOffsets : Prop :=
  ∀ (o : Offset) (v : Byte),
    ((∃ i, decode (.regWrite o v) = .ok i) ↔
      o.toNat = 0x420B ∨ o.toNat = 0x420C ∨ (0x4300 ≤ o.toNat ∧ o.toNat ≤ 0x437F)) ∧
    ((∃ i, decode (.regRead o) = .ok i) ↔
      o.toNat = 0x420B ∨ o.toNat = 0x420C ∨ (0x4300 ≤ o.toNat ∧ o.toNat ≤ 0x437F))

/-- R91, the whole table. -/
def Obligations.RegisterOffsetsFollowTheTable : Prop :=
  (∀ v, decode (.regWrite 0x420B v) = .ok (.wrMdmaen v) ∧ decode (.regWrite 0x420C v) = .ok (.wrHdmaen v)) ∧
  decode (.regRead 0x420B) = .ok .rdMdmaen ∧ decode (.regRead 0x420C) = .ok .rdHdmaen ∧
  (∀ (c : Channel) (v : Byte),
    decode (.regWrite (BitVec.ofNat 16 (0x4300 + 16 * c.val + 0x0)) v) = .ok (.wrDmap c v) ∧
    decode (.regWrite (BitVec.ofNat 16 (0x4300 + 16 * c.val + 0x1)) v) = .ok (.wrBbad c v) ∧
    decode (.regWrite (BitVec.ofNat 16 (0x4300 + 16 * c.val + 0x2)) v) = .ok (.wrA1tl c v) ∧
    decode (.regWrite (BitVec.ofNat 16 (0x4300 + 16 * c.val + 0x3)) v) = .ok (.wrA1th c v) ∧
    decode (.regWrite (BitVec.ofNat 16 (0x4300 + 16 * c.val + 0x4)) v) = .ok (.wrA1b c v) ∧
    decode (.regWrite (BitVec.ofNat 16 (0x4300 + 16 * c.val + 0x5)) v) = .ok (.wrDasl c v) ∧
    decode (.regWrite (BitVec.ofNat 16 (0x4300 + 16 * c.val + 0x6)) v) = .ok (.wrDash c v) ∧
    decode (.regWrite (BitVec.ofNat 16 (0x4300 + 16 * c.val + 0x7)) v) = .ok (.wrDasb c v) ∧
    decode (.regWrite (BitVec.ofNat 16 (0x4300 + 16 * c.val + 0x8)) v) = .ok (.wrA2al c v) ∧
    decode (.regWrite (BitVec.ofNat 16 (0x4300 + 16 * c.val + 0x9)) v) = .ok (.wrA2ah c v) ∧
    decode (.regWrite (BitVec.ofNat 16 (0x4300 + 16 * c.val + 0xA)) v) = .ok (.wrNltr c v) ∧
    decode (.regWrite (BitVec.ofNat 16 (0x4300 + 16 * c.val + 0xB)) v) = .ok (.wrUnusedB c v) ∧
    decode (.regWrite (BitVec.ofNat 16 (0x4300 + 16 * c.val + 0xC)) v) = .ok (.wrUnmappedC c v) ∧
    decode (.regWrite (BitVec.ofNat 16 (0x4300 + 16 * c.val + 0xD)) v) = .ok (.wrUnmappedD c v) ∧
    decode (.regWrite (BitVec.ofNat 16 (0x4300 + 16 * c.val + 0xE)) v) = .ok (.wrUnmappedE c v) ∧
    decode (.regWrite (BitVec.ofNat 16 (0x4300 + 16 * c.val + 0xF)) v) = .ok (.wrUnusedF c v)) ∧
  (∀ c : Channel,
    decode (.regRead (BitVec.ofNat 16 (0x4300 + 16 * c.val + 0x0))) = .ok (.rdDmap c) ∧
    decode (.regRead (BitVec.ofNat 16 (0x4300 + 16 * c.val + 0x1))) = .ok (.rdBbad c) ∧
    decode (.regRead (BitVec.ofNat 16 (0x4300 + 16 * c.val + 0x2))) = .ok (.rdA1tl c) ∧
    decode (.regRead (BitVec.ofNat 16 (0x4300 + 16 * c.val + 0x3))) = .ok (.rdA1th c) ∧
    decode (.regRead (BitVec.ofNat 16 (0x4300 + 16 * c.val + 0x4))) = .ok (.rdA1b c) ∧
    decode (.regRead (BitVec.ofNat 16 (0x4300 + 16 * c.val + 0x5))) = .ok (.rdDasl c) ∧
    decode (.regRead (BitVec.ofNat 16 (0x4300 + 16 * c.val + 0x6))) = .ok (.rdDash c) ∧
    decode (.regRead (BitVec.ofNat 16 (0x4300 + 16 * c.val + 0x7))) = .ok (.rdDasb c) ∧
    decode (.regRead (BitVec.ofNat 16 (0x4300 + 16 * c.val + 0x8))) = .ok (.rdA2al c) ∧
    decode (.regRead (BitVec.ofNat 16 (0x4300 + 16 * c.val + 0x9))) = .ok (.rdA2ah c) ∧
    decode (.regRead (BitVec.ofNat 16 (0x4300 + 16 * c.val + 0xA))) = .ok (.rdNltr c) ∧
    decode (.regRead (BitVec.ofNat 16 (0x4300 + 16 * c.val + 0xB))) = .ok (.rdUnusedB c) ∧
    decode (.regRead (BitVec.ofNat 16 (0x4300 + 16 * c.val + 0xC))) = .ok (.rdUnmappedC c) ∧
    decode (.regRead (BitVec.ofNat 16 (0x4300 + 16 * c.val + 0xD))) = .ok (.rdUnmappedD c) ∧
    decode (.regRead (BitVec.ofNat 16 (0x4300 + 16 * c.val + 0xE))) = .ok (.rdUnmappedE c) ∧
    decode (.regRead (BitVec.ofNat 16 (0x4300 + 16 * c.val + 0xF))) = .ok (.rdUnusedF c)) ∧
  (∀ (o : Offset) (v : Byte), 0x4380 ≤ o.toNat → o.toNat ≤ 0x43FF →
    decode (.regWrite o v) = .error (.notEngineWrite o v) ∧ decode (.regRead o) = .error (.notEngineRead o))

/-- R93, R103: a control byte matches one row of each of the four groups, its other bits are the row's operands. -/
def Obligations.ControlByteMatchesItsRows : Prop :=
  ∀ (c : Channel) (d : Dir) (n u z f : Bool) (p : BitVec 3),
    let b : Byte := BitVec.ofBool (match d with | .busToPort => false | .portToBus => true) ++ BitVec.ofBool n ++
      BitVec.ofBool u ++ BitVec.ofBool z ++ BitVec.ofBool f ++ p
    decode (.dmap .pattern c b) = .ok (patternRow p c d n u z f) ∧
    decode (.dmap .direction c b) = .ok (directionRow d c n u z f p) ∧
    decode (.dmap .addressing c b) = .ok (addressingRow n c d u z f p) ∧
    decode (.dmap .addressStep c b) = .ok (match f, z with
      | true, _ => .stepFixed c d n u z p
      | false, true => .stepDec c d n u p
      | false, false => .stepInc c d n u p)

/-- R95, R103: the classes of a header byte, and the rows of a mask byte. -/
def Obligations.HeaderAndMaskRowsFollowTheirOrder : Prop :=
  (∀ (c : Channel) (h : Byte),
    (h.toNat = 0x00 → decode (.hdr c h) = .ok (.hdrTerminate c)) ∧
    (0x01 ≤ h.toNat → h.toNat ≤ 0x7F → decode (.hdr c h) = .ok (.hdrOnce c (BitVec.ofNat 7 h.toNat))) ∧
    (h.toNat = 0x80 → decode (.hdr c h) = .ok (.hdrOnce128 c)) ∧
    (0x81 ≤ h.toNat → decode (.hdr c h) = .ok (.hdrRepeat c (BitVec.ofNat 7 (h.toNat - 0x80))))) ∧
  decode (.mask .mdmaen 0x00) = .ok .mdmaenNone ∧
  (∀ m : Byte, m ≠ 0x00 → decode (.mask .mdmaen m) = .ok (.mdmaenStart m)) ∧
  (∀ m : Byte, decode (.mask .hdmaen m) = .ok (.hdmaenSet m))

/-- A few words written out from 30_encoding.md. -/
def Obligations.WordsOfTheSpecDecode : Prop :=
  decode (.regWrite 0b0100001000001011#16 0x05) = .ok (.wrMdmaen 0x05) ∧
  decode (.regRead 0b0100001000001100#16) = .ok .rdHdmaen ∧
  decode (.regWrite 0b0100001101110000#16 0x81) = .ok (.wrDmap 7 0x81) ∧
  decode (.regRead 0b0100001100100110#16) = .ok (.rdDash 2) ∧
  decode (.regWrite 0b0100001101011111#16 0xA5) = .ok (.wrUnusedF 5 0xA5) ∧
  decode (.mask .mdmaen 0b00000101#8) = .ok (.mdmaenStart 0x05) ∧
  decode (.dmap .pattern 3 0b10000011#8) = .ok (.pat3 3 .portToBus false false false false) ∧
  decode (.dmap .addressing 0 0b01000001#8) = .ok (.hdmaIndirect 0 .busToPort false false false 1) ∧
  decode (.dmap .addressStep 1 0b10010000#8) = .ok (.stepDec 1 .portToBus false false 0) ∧
  decode (.hdr 3 0b10000011#8) = .ok (.hdrRepeat 3 3) ∧
  decode (.hdr 3 0b10000000#8) = .ok (.hdrOnce128 3)

/-! ### The register port -/

/-- The writes of R123, R124, R127, R130, R133 and R134: the byte goes to the register, is driven on the bus (R139),
and nothing else changes (R138, R22). -/
def Obligations.ByteRegisterWrites : Prop :=
  ∀ (c : Channel) (v : Byte),
    StoresInChannel (.wrDmap c v) c v (fun r => { r with dmap := v }) ∧
    StoresInChannel (.wrBbad c v) c v (fun r => { r with bbad := v }) ∧
    StoresInChannel (.wrA1b c v) c v (fun r => { r with a1b := v }) ∧
    StoresInChannel (.wrDasb c v) c v (fun r => { r with dasb := v }) ∧
    StoresInChannel (.wrNltr c v) c v (fun r => { r with nltr := v }) ∧
    StoresInChannel (.wrUnusedB c v) c v (fun r => { r with unused := v }) ∧
    StoresInChannel (.wrUnusedF c v) c v (fun r => { r with unused := v })

/-- The writes of R125, R126, R128, R129, R131 and R132: half of a 16-bit register, the low byte at the lower offset
(R63, R94). -/
def Obligations.HalfRegisterWrites : Prop :=
  ∀ (c : Channel) (v : Byte),
    StoresInChannel (.wrA1tl c v) c v (fun r => { r with a1t := r.a1t.extractLsb' 8 8 ++ v }) ∧
    StoresInChannel (.wrA1th c v) c v (fun r => { r with a1t := v ++ r.a1t.extractLsb' 0 8 }) ∧
    StoresInChannel (.wrDasl c v) c v (fun r => { r with das := r.das.extractLsb' 8 8 ++ v }) ∧
    StoresInChannel (.wrDash c v) c v (fun r => { r with das := v ++ r.das.extractLsb' 0 8 }) ∧
    StoresInChannel (.wrA2al c v) c v (fun r => { r with a2a := r.a2a.extractLsb' 8 8 ++ v }) ∧
    StoresInChannel (.wrA2ah c v) c v (fun r => { r with a2a := v ++ r.a2a.extractLsb' 0 8 })

/-- The reads of R123 to R134: the register's byte is returned and driven (R139), and no state of the engine changes
(R138). -/
def Obligations.RegisterReadsAnswer : Prop :=
  ∀ c : Channel,
    AnswersWith (.rdDmap c) (fun s => (s.ch c).dmap) ∧
    AnswersWith (.rdBbad c) (fun s => (s.ch c).bbad) ∧
    AnswersWith (.rdA1tl c) (fun s => (s.ch c).a1t.extractLsb' 0 8) ∧
    AnswersWith (.rdA1th c) (fun s => (s.ch c).a1t.extractLsb' 8 8) ∧
    AnswersWith (.rdA1b c) (fun s => (s.ch c).a1b) ∧
    AnswersWith (.rdDasl c) (fun s => (s.ch c).das.extractLsb' 0 8) ∧
    AnswersWith (.rdDash c) (fun s => (s.ch c).das.extractLsb' 8 8) ∧
    AnswersWith (.rdDasb c) (fun s => (s.ch c).dasb) ∧
    AnswersWith (.rdA2al c) (fun s => (s.ch c).a2a.extractLsb' 0 8) ∧
    AnswersWith (.rdA2ah c) (fun s => (s.ch c).a2a.extractLsb' 8 8) ∧
    AnswersWith (.rdNltr c) (fun s => (s.ch c).nltr) ∧
    AnswersWith (.rdUnusedB c) (fun s => (s.ch c).unused) ∧
    AnswersWith (.rdUnusedF c) (fun s => (s.ch c).unused)

/-- R135: the three unmapped offsets. A write changes no state of the engine; its byte is driven (R139). A read is
open bus. -/
def Obligations.UnmappedOffsets : Prop :=
  ∀ (c : Channel) (v : Byte),
    (∀ i ∈ [Instr.wrUnmappedC c v, Instr.wrUnmappedD c v, Instr.wrUnmappedE c v], ∀ s : State,
      ∃ t, exec i s = .next t ∧ t.mdr = v ∧ t.reply = none ∧ State.sameEngine s t ∧ State.sameOutside s t) ∧
    AnswersWith (.rdUnmappedC c) (fun s => s.mdr) ∧ AnswersWith (.rdUnmappedD c) (fun s => s.mdr) ∧
    AnswersWith (.rdUnmappedE c) (fun s => s.mdr)

/-- Read-back through the port, by offset: a channel offset below `0x43cC`, or `0x43cF`, returns the byte last written
to it (R22), and `0x43cB` and `0x43cF` are one byte (R31). -/
def Obligations.ReadBackThroughThePort : Prop :=
  (∀ (s : State) (c : Channel) (r : BitVec 4) (v : Byte) (i j : Instr), r.toNat < 0xC ∨ r.toNat = 0xF →
    decode (.regWrite (regOffset c r) v) = .ok i → decode (.regRead (regOffset c r)) = .ok j →
    ∃ t u, exec i s = .next t ∧ exec j t = .next u ∧ u.reply = some v) ∧
  (∀ (s : State) (c : Channel) (v : Byte),
    (∃ t u, exec (.wrUnusedB c v) s = .next t ∧ exec (.rdUnusedF c) t = .next u ∧ u.reply = some v) ∧
    (∃ t u, exec (.wrUnusedF c v) s = .next t ∧ exec (.rdUnusedB c) t = .next u ∧ u.reply = some v))

/-- R139, R66, R67: what is on the bus after a CPU access to any address. A write drives its byte; the write that
starts a general DMA leaves the last byte the DMA moved; a read drives what it returns, and an open-bus read leaves `mdr`
as it was. R270: so a read of an unmapped address or of a write-only register right after a general DMA returns the last
byte the DMA moved. -/
def Obligations.MdrAfterRegisterAccess : Prop :=
  (∀ (s : State) (a : Addr) (v : Byte) (rest : List Request), s.alone = none →
    s.pending = .cpu (.write a v) :: rest →
    ∃ t, step s = .next t ∧
      (routedToEngine s.plat a = false ∨ offsetOf a ≠ 0x420B ∨ v = 0x00 → t.mdr = v) ∧
      (routedToEngine s.plat a = true → offsetOf a = 0x420B → v ≠ 0x00 →
        ∃ l, t.trace = l ++ s.trace ∧ ∀ m, t.mdr = lastDriven m l)) ∧
  (∀ (s : State) (a : Addr) (rest : List Request), s.alone = none → s.pending = .cpu (.read a) :: rest →
    ∃ t x, step s = .next t ∧ t.reply = some x ∧ t.mdr = x ∧ (readsOpenBus s.plat a → x = s.mdr ∧ t.mdr = s.mdr)) ∧
  (∀ (s : State) (a b : Addr) (v : Byte) (rest : List Request), s.alone = none →
    s.pending = .cpu (.write a v) :: .cpu (.read b) :: rest → routedToEngine s.plat a = true → offsetOf a = 0x420B →
    v ≠ 0x00 → readsOpenBus s.plat b →
    ∃ t u l, step s = .next t ∧ step t = .next u ∧ t.trace = l ++ s.trace ∧
      ∀ m, u.reply = some (lastDriven m l) ∧ u.mdr = lastDriven m l)

/-- R122: a write of `HDMAEN` stores its byte, drives it and has no other effect; a read is open bus. That the row
`HDMAEN_SET` alone is that write is the model's reading (log 7). -/
def Obligations.HdmaenWriteAndRead : Prop :=
  (∀ (s : State) (v : Byte), ∀ i ∈ [Instr.wrHdmaen v, Instr.hdmaenSet v], ∃ t, exec i s = .next t ∧ t.hdmaen = v ∧
    t.mdmaen = s.mdmaen ∧ t.chans = s.chans ∧ t.mdr = v ∧ t.reply = none ∧ State.sameOutside s t) ∧
  AnswersWith .rdHdmaen (fun s => s.mdr)

/-- R121 and R108, the forms that start nothing: a zero written to `MDMAEN` is stored and does nothing else; a read is
open bus. That the row `MDMAEN_NONE` alone is that write is the model's reading (log 7). -/
def Obligations.MdmaenZeroAndRead : Prop :=
  (∀ s : State, ∀ i ∈ [Instr.wrMdmaen 0x00, Instr.mdmaenNone], ∃ t, exec i s = .next t ∧ t.mdmaen = 0x00 ∧
    t.hdmaen = s.hdmaen ∧ t.chans = s.chans ∧ t.mdr = 0x00 ∧ t.reply = none ∧ State.sameOutside s t) ∧
  AnswersWith .rdMdmaen (fun s => s.mdr)

/-- R138: no register access other than a non-zero write to `MDMAEN` makes the engine access the bus, charge or change
memory; a read changes nothing of the engine. -/
def Obligations.RegisterAccessesMakeNoBusAccess : Prop :=
  (∀ (s : State) (o : Offset) (v : Byte) (i : Instr), decode (.regWrite o v) = .ok i → (o = 0x420B → v = 0x00) →
    ∃ t, exec i s = .next t ∧ State.sameOutside s t) ∧
  (∀ (s : State) (o : Offset) (i : Instr), decode (.regRead o) = .ok i →
    ∃ t, exec i s = .next t ∧ State.sameEngine s t ∧ State.sameOutside s t)

/-! ### General DMA -/

/-- R164: after the start mask's write, every started channel has count zero and its address where the direction of
the step puts it; its bit is clear; no other register changes; started again it would move 65536 bytes. That the row
`MDMAEN_START` alone is that write is the model's reading (log 7). -/
def Obligations.StartMaskCompletesItsChannels : Prop :=
  ∀ (m : Byte) (s : State), m ≠ 0x00 → ∀ i ∈ [Instr.wrMdmaen m, Instr.mdmaenStart m], ∃ t, exec i s = .next t ∧
    t.mdmaen = 0x00 ∧
    (∀ c, maskBit m c = true → (t.ch c).das = 0x0000 ∧ byteCount (t.ch c).das = 65536 ∧
      (ctrlFix (s.ch c).dmap = false → ctrlDec (s.ch c).dmap = false →
        (t.ch c).a1t = (s.ch c).a1t + BitVec.ofNat 16 (byteCount (s.ch c).das)) ∧
      (ctrlFix (s.ch c).dmap = false → ctrlDec (s.ch c).dmap = true →
        (t.ch c).a1t = (s.ch c).a1t - BitVec.ofNat 16 (byteCount (s.ch c).das)) ∧
      (ctrlFix (s.ch c).dmap = true → (t.ch c).a1t = (s.ch c).a1t) ∧
      t.ch c = { s.ch c with a1t := (t.ch c).a1t, das := (t.ch c).das }) ∧
    (∀ c, maskBit m c = false → t.ch c = s.ch c) ∧ t.hdmaen = s.hdmaen ∧ t.plat = s.plat ∧ t.pending = s.pending ∧
    t.alone = s.alone ∧ t.reply = none

/-- R219: the cost of a general DMA; one channel, several channels, and the scenario's figure. That the row
`MDMAEN_START` alone is the write is the model's reading (log 7). -/
def Obligations.StartMaskCost : Prop :=
  (∀ (m : Byte) (s : State), m ≠ 0x00 → ∀ i ∈ [Instr.wrMdmaen m, Instr.mdmaenStart m], ∃ t, exec i s = .next t ∧
    t.cycles = s.cycles + (channels.filter (maskBit m)).length * s.plat.setupCost +
      ((channels.filter (maskBit m)).map fun c => byteCount (s.ch c).das).sum * s.plat.unitCost) ∧
  (∀ (c : Channel) (s : State) (t : State), exec (.wrMdmaen (1#8 <<< c.val)) s = .next t →
    t.cycles = s.cycles + s.plat.setupCost + byteCount (s.ch c).das * s.plat.unitCost) ∧
  (∀ (c : Channel) (s : State) (t : State), exec (.wrMdmaen (1#8 <<< c.val)) s = .next t →
    (s.ch c).das = 16 → s.plat.setupCost = 8 → s.plat.unitCost = 8 → t.cycles = s.cycles + 136)

/-- R150, R151, R211: the accesses of a general DMA, all of them and in order: the started channels ascending, each
one moving all its bytes before the next, each byte read and then written at the address and port of its turn. R63, R77,
R268: every byte written is the byte on the bus, every read of storage gives the byte of its moment, and storage holds
what was written, byte by byte in order. Every byte of memory the accesses do not write is unchanged. The bytes a
device act names are left open (log 15); the mask byte is on the bus first (log 13); that `MDMAEN_START` alone is the
write is the model's reading (log 7). -/
def Obligations.StartMaskServesChannelsInOrder : Prop :=
  ∀ (m : Byte) (s : State), m ≠ 0x00 → ∀ i ∈ [Instr.wrMdmaen m, Instr.mdmaenStart m], ∃ t l, exec i s = .next t ∧
    t.trace = l ++ s.trace ∧
    accessesOf l = (channels.filter (maskBit m)).flatMap (fun c =>
      (List.range (byteCount (s.ch c).das)).flatMap fun k =>
        byteAccesses s.plat (ctrlDir (s.ch c).dmap)
          (busAddr (s.ch c).a1b (offsetAfter (ctrlFix (s.ch c).dmap) (ctrlDec (s.ch c).dmap) (s.ch c).a1t k))
          (portOf (s.ch c).bbad (pattern (ctrlPat (s.ch c).dmap)) k)) ∧
    carriesBusByte m l ∧ (Memory.wf s.mem → StorageFollows s t l) ∧
    ∀ a : Addr, ¬ s.deviceStores a → .write a ∉ accessesOf l →
      Memory.read t.mem a.toNat = Memory.read s.mem a.toNat

/-- R150, with the model's reading of a pattern row (log 7): starting one channel is the pattern row its control byte
matches, with the bit set during it and clear after it. That the mask byte is on the bus
when the row begins is the model's deduction (log 13). -/
def Obligations.EnabledChannelRunsItsPatternRow : Prop :=
  ∀ (c : Channel) (s : State) (i : Instr), decode (.dmap .pattern c (s.ch c).dmap) = .ok i →
    ∃ t, exec i { s with mdmaen := 1#8 <<< c.val, mdr := 1#8 <<< c.val, reply := none } = .next t ∧
      exec (.wrMdmaen (1#8 <<< c.val)) s = .next { t with mdmaen := 0x00 }

/-- R169: general DMA reads nothing of `ind`, `u`, `DASB`, `A2A`, `NLTR`, `UNUSED`, `HDMAEN`, `do_transfer`, `done`,
nor of a channel that is not started, and writes none of them. That the bus byte before the write is not read either
is the model's deduction (log 13). -/
def Obligations.GeneralDmaIgnoresHdmaState : Prop :=
  (∀ (m : Byte) (s s' : State), m ≠ 0x00 → State.sameOutside s s' →
    (∀ c, maskBit m c = true → (s.ch c).bbad = (s'.ch c).bbad ∧ (s.ch c).a1t = (s'.ch c).a1t ∧
      (s.ch c).a1b = (s'.ch c).a1b ∧ (s.ch c).das = (s'.ch c).das ∧
      ctrlDir (s.ch c).dmap = ctrlDir (s'.ch c).dmap ∧ ctrlDec (s.ch c).dmap = ctrlDec (s'.ch c).dmap ∧
      ctrlFix (s.ch c).dmap = ctrlFix (s'.ch c).dmap ∧ ctrlPat (s.ch c).dmap = ctrlPat (s'.ch c).dmap) →
    ∃ t t', exec (.wrMdmaen m) s = .next t ∧ exec (.wrMdmaen m) s' = .next t' ∧ State.sameOutside t t' ∧
      t.mdr = t'.mdr ∧ ∀ c, maskBit m c = true → (t.ch c).a1t = (t'.ch c).a1t ∧ (t.ch c).das = (t'.ch c).das) ∧
  (∀ (m : Byte) (s t : State), exec (.wrMdmaen m) s = .next t → t.hdmaen = s.hdmaen ∧
    (∀ c, maskBit m c = false → t.ch c = s.ch c) ∧
    (∀ c, t.ch c = { s.ch c with a1t := (t.ch c).a1t, das := (t.ch c).das }))

/-- A pattern row is `RunChannel(c)` (R151; that the row runs it is the model's reading, log 7): its registers, cost,
accesses and frame. R63, R77, R268: every byte written is the byte on the bus, every read of storage gives the byte of
its moment, and storage holds what was written (the bytes a device act names apart, log 15). -/
def Obligations.PatternRowsRunTheChannel : Prop :=
  ∀ (p : BitVec 3) (c : Channel) (d : Dir) (n u z f : Bool) (s : State),
    ∃ t l, exec (patternRow p c d n u z f) s = .next t ∧ t.trace = l ++ s.trace ∧
      t.ch c = { s.ch c with a1t := offsetAfter f z (s.ch c).a1t (byteCount (s.ch c).das), das := 0 } ∧
      State.sameOtherChannels c s t ∧ t.mdmaen = s.mdmaen ∧ t.hdmaen = s.hdmaen ∧
      t.cycles = s.cycles + s.plat.setupCost + byteCount (s.ch c).das * s.plat.unitCost ∧
      accessesOf l = (List.range (byteCount (s.ch c).das)).flatMap (fun k =>
        byteAccesses s.plat d (busAddr (s.ch c).a1b (offsetAfter f z (s.ch c).a1t k))
          (portOf (s.ch c).bbad (pattern p) k)) ∧
      t.mdr = lastDriven s.mdr l ∧ carriesBusByte s.mdr l ∧ (Memory.wf s.mem → StorageFollows s t l) ∧
      (∀ a : Addr, ¬ s.deviceStores a → .write a ∉ accessesOf l →
        Memory.read t.mem a.toNat = Memory.read s.mem a.toNat) ∧
      t.plat = s.plat ∧
      t.pending = s.pending ∧ t.alone = s.alone ∧ t.reply = s.reply

/-- R156 to R163: the port of byte `i` under each pattern code, and the unit sizes of R101. -/
def Obligations.PatternPortOrder : Prop :=
  (∀ (b : Byte) (i : Nat),
    portOf b (pattern 0) i = b ∧
    portOf b (pattern 1) i = b + BitVec.ofNat 8 (i % 2) ∧
    portOf b (pattern 2) i = b ∧
    portOf b (pattern 3) i = b + BitVec.ofNat 8 (i / 2 % 2) ∧
    portOf b (pattern 4) i = b + BitVec.ofNat 8 (i % 4) ∧
    portOf b (pattern 5) i = b + BitVec.ofNat 8 (i % 2) ∧
    portOf b (pattern 6) i = portOf b (pattern 2) i ∧
    portOf b (pattern 7) i = portOf b (pattern 3) i) ∧
  pattern 6 = pattern 2 ∧ pattern 7 = pattern 3 ∧
  unitSize 0 = 1 ∧ unitSize 1 = 2 ∧ unitSize 2 = 2 ∧ unitSize 3 = 4 ∧ unitSize 4 = 4 ∧ unitSize 5 = 4 ∧
  unitSize 6 = 2 ∧ unitSize 7 = 4

/-- R63, R152: where no A-side address of a general DMA is blocked, byte `k` read is byte `k` written. R77, R268: a read
of storage gives the byte of its moment, and storage holds what was written (the bytes a device act names apart,
log 15). The row is the model's reading (log 7). -/
def Obligations.GeneralDmaMovesBytesUnchanged : Prop :=
  ∀ (p : BitVec 3) (c : Channel) (d : Dir) (n u z f : Bool) (s : State),
    (∀ k < byteCount (s.ch c).das,
      aSideBlocked s.plat (busAddr (s.ch c).a1b (offsetAfter f z (s.ch c).a1t k)) = false) →
    ∃ t l, exec (patternRow p c d n u z f) s = .next t ∧ t.trace = l ++ s.trace ∧
      (readsOf l).map Prod.snd = (writesOf l).map Prod.snd ∧ (readsOf l).length = byteCount (s.ch c).das ∧
      (Memory.wf s.mem → StorageFollows s t l)

/-- A direction row is the transfer of one byte (the model's reading, log 7). R152, R70, R66: the actions of one byte
transfer, in both directions, with the A side blocked or not; the byte is moved unchanged, the registers do not
change, and only a write to storage that keeps it changes memory, the bytes a device act names
apart (log 15). -/
def Obligations.DirectionRowsMoveOneByte : Prop :=
  ∀ (d : Dir) (c : Channel) (n u z f : Bool) (p : BitVec 3) (s : State),
    let a := busAddr (s.ch c).a1b (s.ch c).a1t
    let q := portAddr ((s.ch c).bbad + (pattern p).getD 0 0)
    ∃ t v, exec (directionRow d c n u z f p) s = .next t ∧
      t.trace = (match d, aSideBlocked s.plat a with
        | .busToPort, false => [.charge s.plat.unitCost, .write q v, .read a v]
        | .busToPort, true => [.charge s.plat.unitCost, .write q v]
        | .portToBus, false => [.charge s.plat.unitCost, .write a v, .read q v]
        | .portToBus, true => [.charge s.plat.unitCost, .read q v]) ++ s.trace ∧
      (d = .busToPort → aSideBlocked s.plat a = true → v = s.mdr) ∧
      (d = .busToPort → aSideBlocked s.plat a = false → v = (resolveRead a s).1) ∧
      (d = .portToBus → v = (resolveRead q s).1) ∧
      t.mdr = v ∧ t.cycles = s.cycles + s.plat.unitCost ∧ State.sameEngine s t ∧
      (∀ x : Addr, ¬ s.deviceStores x →
        (match d with | .busToPort => x ≠ q | .portToBus => x ≠ a ∨ aSideBlocked s.plat a = true) →
        Memory.read t.mem x.toNat = Memory.read s.mem x.toNat) ∧
      (∀ x : Addr, ¬ s.deviceStores x →
        (match d with | .busToPort => x = q | .portToBus => x = a ∧ aSideBlocked s.plat a = false) →
        Memory.wf s.mem → Memory.read t.mem x.toNat =
          if regionKind s.plat x = .ram then v else Memory.read s.mem x.toNat) ∧
      t.plat = s.plat ∧
      t.pending = s.pending ∧ t.alone = s.alone ∧ t.reply = s.reply

/-- An address-step row is one step of `A1T[c]` (the model's reading, log 7). R153: the three address steps, modulo
2^16, and nothing else: the bank does not change. -/
def Obligations.AddressStepRows : Prop :=
  ∀ (c : Channel) (d : Dir) (n u : Bool) (p : BitVec 3) (s : State),
    (∀ z, ∃ t, exec (.stepFixed c d n u z p) s = .next t ∧ t.ch c = s.ch c ∧ State.sameOtherChannels c s t ∧
      t.mdmaen = s.mdmaen ∧ t.hdmaen = s.hdmaen ∧ t.mdr = s.mdr ∧ t.reply = s.reply ∧ State.sameOutside s t) ∧
    (∃ t, exec (.stepInc c d n u p) s = .next t ∧
      t.ch c = { s.ch c with a1t := BitVec.ofNat 16 (((s.ch c).a1t.toNat + 1) % 65536) } ∧
      State.sameOtherChannels c s t ∧ t.mdmaen = s.mdmaen ∧ t.hdmaen = s.hdmaen ∧ t.mdr = s.mdr ∧
      t.reply = s.reply ∧ State.sameOutside s t) ∧
    (∃ t, exec (.stepDec c d n u p) s = .next t ∧
      t.ch c = { s.ch c with a1t := BitVec.ofNat 16 (((s.ch c).a1t.toNat + 65535) % 65536) } ∧
      State.sameOtherChannels c s t ∧ t.mdmaen = s.mdmaen ∧ t.hdmaen = s.hdmaen ∧ t.mdr = s.mdr ∧
      t.reply = s.reply ∧ State.sameOutside s t)

/-! ### HDMA -/

/-- R183, R184; that the part runs alone is the model's own (log 7): an entry part runs `LoadEntry(c)`: the header, and
for another header than the terminator in indirect mode two pointer bytes, low first; storage bytes are those of memory;
nothing is written to the bus. The bytes a device act names are left open (log 15). -/
def Obligations.EntryRequestLoadsTheEntry : Prop :=
  ∀ (s : State) (c : Channel), s.alone = some (.entry c) →
    ∃ t h lo hi l, step s = .next t ∧ t.trace = l ++ s.trace ∧
      readsOf l = entryReads (s.ch c) h lo hi ∧ writesOf l = [] ∧
      (∀ x ∈ readsOf l, isStorage s.plat x.1 = true → ¬ s.deviceStores x.1 →
        x.2 = Memory.read s.mem x.1.toNat) ∧
      t.ch c = entryAfter (s.ch c) h lo hi ∧ State.sameOtherChannels c s t ∧ t.mdmaen = s.mdmaen ∧
      t.hdmaen = s.hdmaen ∧
      (∀ a : Addr, ¬ s.deviceStores a → Memory.read t.mem a.toNat = Memory.read s.mem a.toNat) ∧
      t.cycles = s.cycles + (readsOf l).length * s.plat.unitCost ∧
      t.mdr = lastDriven s.mdr l ∧ t.plat = s.plat ∧ t.pending = s.pending ∧ t.alone = none ∧ t.reply = s.reply

/-- R184; the row alone is the model's reading (log 7): what a terminator does once it is fetched: no access, no
charge, the channel is done. -/
def Obligations.TerminatorDisablesTheChannel : Prop :=
  ∀ (c : Channel) (s : State), ∃ t, exec (.hdrTerminate c) s = .next t ∧
    t.ch c = { s.ch c with nltr := 0x00, done := true, doTransfer := false } ∧ State.sameOtherChannels c s t ∧
    t.mdmaen = s.mdmaen ∧ t.hdmaen = s.hdmaen ∧ t.mdr = s.mdr ∧ t.reply = s.reply ∧ State.sameOutside s t ∧
    active c t = false

/-- R183, R186, R187; the row alone is the model's reading (log 7): what any other header does once it is fetched. The
bytes a device act names are left open (log 15). -/
def Obligations.LineHeadersStartTheirEntry : Prop :=
  ∀ (h : Byte) (c : Channel) (s : State), h ≠ 0x00 →
    ∃ t lo hi l, exec (linesRow h c) s = .next t ∧ t.trace = l ++ s.trace ∧ writesOf l = [] ∧
      t.cycles = s.cycles + (readsOf l).length * s.plat.unitCost ∧ t.mdr = lastDriven s.mdr l ∧
      State.sameOtherChannels c s t ∧ t.mdmaen = s.mdmaen ∧ t.hdmaen = s.hdmaen ∧ t.plat = s.plat ∧
      t.pending = s.pending ∧ t.alone = s.alone ∧ t.reply = s.reply ∧
      (∀ a : Addr, ¬ s.deviceStores a → Memory.read t.mem a.toNat = Memory.read s.mem a.toNat) ∧
      (∀ x ∈ readsOf l, isStorage s.plat x.1 = true → ¬ s.deviceStores x.1 →
        x.2 = Memory.read s.mem x.1.toNat) ∧
      (ctrlInd (s.ch c).dmap = false → l = [] ∧ t.ch c = { s.ch c with nltr := h, doTransfer := true } ∧
        State.sameOutside s t) ∧
      (ctrlInd (s.ch c).dmap = true →
        readsOf l = [(busAddr (s.ch c).a1b (s.ch c).a2a, lo), (busAddr (s.ch c).a1b ((s.ch c).a2a + 1), hi)] ∧
        t.ch c = { s.ch c with nltr := h, doTransfer := true, a2a := (s.ch c).a2a + 2, das := hi ++ lo })

/-- An addressing row is one unit in that mode (the model's reading, log 7). R188, R189, R190, R193: one whole unit,
`L` bytes, at the pointer of the addressing mode, which steps by `L` in its bank; the other pointer, and every
register else, stays. R63, R77: every byte written is the byte on the bus, so where no A-side address is blocked it is
the byte read; a read of storage gives the byte of its moment, and storage holds what was written (the bytes a device
act names apart, log 15). -/
def Obligations.AddressingRowsMoveOneUnit : Prop :=
  ∀ (ind : Bool) (c : Channel) (d : Dir) (u z f : Bool) (p : BitVec 3) (s : State),
    ∃ t l, exec (addressingRow ind c d u z f p) s = .next t ∧ t.trace = l ++ s.trace ∧
      (ind = false → t.ch c = { s.ch c with a2a := (s.ch c).a2a + BitVec.ofNat 16 (unitSize p) } ∧
        accessesOf l = (List.range (unitSize p)).flatMap (fun k =>
          byteAccesses s.plat d (busAddr (s.ch c).a1b ((s.ch c).a2a + BitVec.ofNat 16 k))
            ((s.ch c).bbad + (pattern p).getD k 0))) ∧
      (ind = true → t.ch c = { s.ch c with das := (s.ch c).das + BitVec.ofNat 16 (unitSize p) } ∧
        accessesOf l = (List.range (unitSize p)).flatMap (fun k =>
          byteAccesses s.plat d (busAddr (s.ch c).dasb ((s.ch c).das + BitVec.ofNat 16 k))
            ((s.ch c).bbad + (pattern p).getD k 0))) ∧
      ((∀ k < unitSize p, aSideBlocked s.plat (if ind then busAddr (s.ch c).dasb ((s.ch c).das + BitVec.ofNat 16 k)
          else busAddr (s.ch c).a1b ((s.ch c).a2a + BitVec.ofNat 16 k)) = false) →
        (readsOf l).map Prod.snd = (writesOf l).map Prod.snd) ∧
      t.cycles = s.cycles + unitSize p * s.plat.unitCost ∧
      t.mdr = lastDriven s.mdr l ∧ carriesBusByte s.mdr l ∧ (Memory.wf s.mem → StorageFollows s t l) ∧
      (∀ a : Addr, ¬ s.deviceStores a → .write a ∉ accessesOf l →
        Memory.read t.mem a.toNat = Memory.read s.mem a.toNat) ∧
      State.sameOtherChannels c s t ∧ t.mdmaen = s.mdmaen ∧ t.hdmaen = s.hdmaen ∧ t.plat = s.plat ∧
      t.pending = s.pending ∧ t.alone = s.alone ∧ t.reply = s.reply

/-- R182, with R183 and R184 inside it: the frame start, all of it. `h`, `lo` and `hi` are the bytes each enabled
channel's first entry gave. The bytes a device act names are left open (log 15). -/
def Obligations.FrameStartLoadsEveryEnabledChannel : Prop :=
  ∀ s : State, ∃ t l, ∃ h lo hi : Channel → Byte, exec .evHdmainit s = .next t ∧ t.trace = l ++ s.trace ∧
    (∀ c, maskBit s.hdmaen c = false → t.ch c = { s.ch c with done := false, doTransfer := false }) ∧
    (∀ c, maskBit s.hdmaen c = true → t.ch c =
      entryAfter { s.ch c with done := false, doTransfer := false, a2a := (s.ch c).a1t } (h c) (lo c) (hi c)) ∧
    writesOf l = [] ∧
    readsOf l = (channels.flatMap fun c => if maskBit s.hdmaen c then
      entryReads { s.ch c with a2a := (s.ch c).a1t } (h c) (lo c) (hi c) else []) ∧
    (∀ x ∈ readsOf l, isStorage s.plat x.1 = true → ¬ s.deviceStores x.1 → x.2 = Memory.read s.mem x.1.toNat) ∧
    (s.hdmaen = 0x00 → l = [] ∧ State.sameOutside s t) ∧
    (s.hdmaen ≠ 0x00 → t.cycles = s.cycles + s.plat.hdmaSetupCost + (readsOf l).length * s.plat.unitCost) ∧
    t.cycles = s.cycles + charged l ∧ t.mdr = lastDriven s.mdr l ∧
    (∀ a : Addr, ¬ s.deviceStores a → Memory.read t.mem a.toNat = Memory.read s.mem a.toNat) ∧
    t.mdmaen = s.mdmaen ∧ t.hdmaen = s.hdmaen ∧ t.plat = s.plat ∧
    t.pending = s.pending ∧ t.alone = s.alone ∧ t.reply = s.reply

/-- R185, R211: a scanline with nothing active does nothing at all. One with something to serve: the setup charge,
then pass 1 by the actions `l` (all the units, in channel order), then pass 2 by the actions `m` (all the counters and
table fetches, in channel order), whose bytes from storage are those memory holds after pass 1 (R80). R63, R152: every
byte written is the byte on the bus, so where no A-side address of pass 1 is blocked it is the byte read; R77: a read of
storage gives the byte of its moment, and storage holds what was written (the bytes a device act names apart,
log 15). -/
def Obligations.ScanlineIsTwoPasses : Prop :=
  (∀ s : State, (∀ c, active c s = false) → exec .evHdmaline s = .next s) ∧
  ∀ s : State, (∃ c, active c s = true) →
    ∃ t l m, ∃ h lo hi : Channel → Byte, exec .evHdmaline s = .next t ∧
      t.trace = m ++ l ++ [.charge s.plat.hdmaSetupCost] ++ s.trace ∧
      accessesOf l = (channels.flatMap fun c => if active c s && (s.ch c).doTransfer then
        unitAccesses s.plat (ctrlDir (s.ch c).dmap) (ctrlInd (s.ch c).dmap) (ctrlPat (s.ch c).dmap) (s.ch c)
        else []) ∧
      ((∀ c, active c s = true → (s.ch c).doTransfer = true → ∀ k < unitSize (ctrlPat (s.ch c).dmap),
          aSideBlocked s.plat (dataAddr (ctrlInd (s.ch c).dmap) (unitAfter (ctrlInd (s.ch c).dmap) k (s.ch c))) =
            false) →
        (readsOf l).map Prod.snd = (writesOf l).map Prod.snd) ∧
      writesOf m = [] ∧
      readsOf m = (channels.flatMap fun c => if active c s && reloads (s.ch c) then
        entryReads (countLine (transferAfter (s.ch c))) (h c) (lo c) (hi c) else []) ∧
      (∀ x ∈ readsOf m, isStorage s.plat x.1 = true → ¬ s.deviceStores x.1 →
        x.2 = Memory.read t.mem x.1.toNat) ∧
      t.mdr = lastDriven s.mdr (m ++ l) ∧ carriesBusByte s.mdr (m ++ l) ∧
      (Memory.wf s.mem → StorageFollows s t (m ++ l)) ∧
      (∀ c, active c s = true → t.ch c = lineAfter (s.ch c) (h c) (lo c) (hi c)) ∧
      (∀ c, active c s = false → t.ch c = s.ch c) ∧
      t.cycles = s.cycles + s.plat.hdmaSetupCost + ((channels.map fun c =>
        if active c s && (s.ch c).doTransfer then unitSize (ctrlPat (s.ch c).dmap) else 0).sum +
        (readsOf m).length) * s.plat.unitCost ∧
      (∀ a : Addr, ¬ s.deviceStores a → .write a ∉ accessesOf l →
        Memory.read t.mem a.toNat = Memory.read s.mem a.toNat) ∧
      t.mdmaen = s.mdmaen ∧ t.hdmaen = s.hdmaen ∧ t.plat = s.plat ∧
      t.pending = s.pending ∧ t.alone = s.alone ∧ t.reply = s.reply

/-- R198: the counter of an active channel steps down as a whole byte; off the lines that reload it holds the new
value and `do_transfer` its bit 7; a line reloads exactly when the new value is `0x00` or `0x80`. -/
def Obligations.LineCounter : Prop :=
  (∀ (s : State) (c : Channel), active c s = true → ∃ t, exec .evHdmaline s = .next t ∧
    ((s.ch c).nltr - 1 ≠ 0x00 ∧ (s.ch c).nltr - 1 ≠ 0x80 →
      (t.ch c).nltr = BitVec.ofNat 8 (((s.ch c).nltr.toNat + 255) % 256) ∧
      (t.ch c).doTransfer = ((s.ch c).nltr - 1).getLsbD 7 ∧ (t.ch c).done = false ∧
      ((s.ch c).nltr = 0x80 → (t.ch c).nltr = 0x7F ∧ (t.ch c).doTransfer = false) ∧
      ((s.ch c).nltr = 0x00 → (t.ch c).nltr = 0xFF ∧ (t.ch c).doTransfer = true)) ∧
    ((s.ch c).nltr = 0x01 ∨ (s.ch c).nltr = 0x81 →
      ∃ h lo hi, t.ch c = entryAfter (countLine (transferAfter (s.ch c))) h lo hi)) ∧
  (∀ r : ChannelRegs, reloads r = true ↔ r.nltr - 1 = 0x00 ∨ r.nltr - 1 = 0x80)

/-- R197: what the two HDMA events never write; of a channel that is not enabled the frame start clears the two flags
and the scanline changes nothing. -/
def Obligations.HdmaNeverWritesProgrammedRegisters : Prop :=
  ∀ (i : Instr) (s : State), i = .evHdmainit ∨ i = .evHdmaline → ∃ t, exec i s = .next t ∧
    t.mdmaen = s.mdmaen ∧ t.hdmaen = s.hdmaen ∧
    (∀ c, ChannelRegs.sameFixed (t.ch c) (s.ch c) ∧ (t.ch c).a1t = (s.ch c).a1t) ∧
    (∀ c, maskBit s.hdmaen c = false →
      (i = .evHdmainit → t.ch c = { s.ch c with done := false, doTransfer := false }) ∧
      (i = .evHdmaline → t.ch c = s.ch c)) ∧
    (∀ c, ctrlInd (s.ch c).dmap = false → (t.ch c).das = (s.ch c).das)

/-- R220: the cost of the two HDMA events, with the number of table bytes read per channel: none, one or three, by
what the channel holds afterwards. -/
def Obligations.HdmaCost : Prop :=
  (∀ s : State, ∃ t, exec .evHdmainit s = .next t ∧
    t.cycles = s.cycles + (if s.hdmaen = 0x00 then 0 else s.plat.hdmaSetupCost + s.plat.unitCost *
      (channels.map fun c => if maskBit s.hdmaen c then
        (if (t.ch c).nltr = 0x00 ∨ ctrlInd (s.ch c).dmap = false then 1 else 3) else 0).sum)) ∧
  (∀ s : State, ∃ t, exec .evHdmaline s = .next t ∧
    t.cycles = s.cycles + (if ∀ c, active c s = false then 0 else s.plat.hdmaSetupCost + s.plat.unitCost *
      ((channels.map fun c => if active c s && (s.ch c).doTransfer then unitSize (ctrlPat (s.ch c).dmap) else 0).sum +
       (channels.map fun c => if active c s && reloads (s.ch c) then
        (if (t.ch c).done = true ∨ ctrlInd (s.ch c).dmap = false then 1 else 3) else 0).sum)))

/-- R196: a channel enabled between the frame start and a line runs from what its pointer and counter hold: no unit on
that line, the counter steps, and a header is fetched only if the count runs out. -/
def Obligations.EnabledInMidFrame : Prop :=
  ∀ (s : State) (c : Channel) (v : Byte), maskBit s.hdmaen c = false → maskBit v c = true →
    ∃ a b t, exec .evHdmainit s = .next a ∧ exec (.wrHdmaen v) a = .next b ∧ active c b = true ∧
      exec .evHdmaline b = .next t ∧
      ((s.ch c).nltr - 1 ≠ 0x00 ∧ (s.ch c).nltr - 1 ≠ 0x80 → t.ch c =
        { s.ch c with nltr := (s.ch c).nltr - 1, doTransfer := ((s.ch c).nltr - 1).getLsbD 7, done := false }) ∧
      ((s.ch c).nltr - 1 = 0x00 ∨ (s.ch c).nltr - 1 = 0x80 → ∃ h lo hi, t.ch c =
        entryAfter { s.ch c with nltr := (s.ch c).nltr - 1, doTransfer := ((s.ch c).nltr - 1).getLsbD 7, done := false }
          h lo hi)

/-- R186: an entry with header `0x01..0x80`, just loaded, lasts `h` lines: one unit on the first, none after it, and
on the `h`-th the next entry is loaded. -/
def Obligations.OnceEntryLasts : Prop :=
  ∀ (s : State) (c : Channel) (k : Nat) (rest : List Request), s.alone = none →
    maskBit s.hdmaen c = true → (s.ch c).done = false →
    (s.ch c).doTransfer = true → 0x01 ≤ (s.ch c).nltr.toNat → (s.ch c).nltr.toNat ≤ 0x80 → 1 ≤ k →
    k ≤ (s.ch c).nltr.toNat → s.pending = List.replicate k (.event .hdmaLine) ++ rest →
    ∃ t, core.run k s = .next t ∧
      (k < (s.ch c).nltr.toNat → t.ch c = { unitAfter (ctrlInd (s.ch c).dmap) (unitSize (ctrlPat (s.ch c).dmap)) (s.ch c)
        with nltr := (s.ch c).nltr - BitVec.ofNat 8 k, doTransfer := false }) ∧
      (k = (s.ch c).nltr.toNat → ∃ h lo hi, t.ch c =
        entryAfter { unitAfter (ctrlInd (s.ch c).dmap) (unitSize (ctrlPat (s.ch c).dmap)) (s.ch c)
          with nltr := 0x00, doTransfer := false } h lo hi)

/-- R187: an entry with header `0x81..0xFF`, just loaded, lasts `h - 0x80` lines with one unit on each, and on the
last the next entry is loaded. -/
def Obligations.RepeatEntryLasts : Prop :=
  ∀ (s : State) (c : Channel) (k : Nat) (rest : List Request), s.alone = none →
    maskBit s.hdmaen c = true → (s.ch c).done = false →
    (s.ch c).doTransfer = true → 0x81 ≤ (s.ch c).nltr.toNat → 1 ≤ k → k ≤ (s.ch c).nltr.toNat - 0x80 →
    s.pending = List.replicate k (.event .hdmaLine) ++ rest →
    ∃ t, core.run k s = .next t ∧
      (k < (s.ch c).nltr.toNat - 0x80 → t.ch c =
        { unitAfter (ctrlInd (s.ch c).dmap) (k * unitSize (ctrlPat (s.ch c).dmap)) (s.ch c)
          with nltr := (s.ch c).nltr - BitVec.ofNat 8 k, doTransfer := true }) ∧
      (k = (s.ch c).nltr.toNat - 0x80 → ∃ h lo hi, t.ch c =
        entryAfter { unitAfter (ctrlInd (s.ch c).dmap) (k * unitSize (ctrlPat (s.ch c).dmap)) (s.ch c)
          with nltr := 0x80, doTransfer := true } h lo hi)

/-- R41, R181, R192: a channel that has read its terminator is left alone by every line until the next frame start. -/
def Obligations.DoneChannelIsSkipped : Prop :=
  ∀ (s : State) (c : Channel) (k : Nat) (rest : List Request), s.alone = none → (s.ch c).done = true →
    s.pending = List.replicate k (.event .hdmaLine) ++ rest → ∃ t, core.run k s = .next t ∧ t.ch c = s.ch c

/-! ### Whole-machine rules -/

/-- R43, R60, R63, R66, R77, R218, R268: whatever an instruction does, the cycle counter moves by exactly what its
actions charge; the last byte they moved is on the bus, and if they moved none, what was there before (an engine step) or
what the access itself drives (R139); every byte written is the byte on the bus at its moment; every read of storage
gives the byte of its moment; and storage holds what the actions wrote and nothing else. That the byte of a write to
`MDMAEN` is on the bus when the general DMA begins is the model's deduction (log 13); that a mask row alone is the
write and drives its byte, and what a control or header row does alone, is the model's reading (log 7). The bytes a
device act names are left open (log 15). -/
def Obligations.ActionsAccountForTheBus : Prop :=
  ∀ (i : Instr) (s : State), ∃ t l, exec i s = .next t ∧ t.trace = l ++ s.trace ∧
    t.cycles = s.cycles + charged l ∧ s.cycles ≤ t.cycles ∧ t.mdr = lastDriven (drivenFirst i s t) l ∧
    carriesBusByte (drivenFirst i s t) l ∧ (Memory.wf s.mem → StorageFollows s t l) ∧
    (∀ a : Addr, ¬ s.deviceStores a → .write a ∉ accessesOf l →
      Memory.read t.mem a.toNat = Memory.read s.mem a.toNat)

/-- R22: `DMAP`, `BBAD`, `A1B`, `DASB` and `UNUSED` of a channel are written by a port write or a power-on Reset,
never by the engine itself. -/
def Obligations.OnlySoftwareChangesProgrammedRegisters : Prop :=
  ∀ (i : Instr) (s t : State) (c : Channel), exec i s = .next t → ¬ ChannelRegs.sameFixed (t.ch c) (s.ch c) →
    i = .evReset .powerOn ∨ ∃ v, i = .wrDmap c v ∨ i = .wrBbad c v ∨ i = .wrA1b c v ∨ i = .wrDasb c v ∨
      i = .wrUnusedB c v ∨ i = .wrUnusedF c v

/-- R33, R38: `HDMAEN` changes by a write of it or a Reset only: reaching a terminator does not clear it. -/
def Obligations.OnlySoftwareChangesHdmaen : Prop :=
  ∀ (i : Instr) (s t : State), exec i s = .next t → t.hdmaen ≠ s.hdmaen →
    (∃ v, i = .wrHdmaen v ∨ i = .hdmaenSet v) ∨ ∃ k, i = .evReset k

/-- R38, R41: `done[c]` is set by a terminator only and cleared by a frame start or a Reset only. -/
def Obligations.DoneIsSetAndClearedAsTold : Prop :=
  ∀ (i : Instr) (s t : State) (c : Channel), exec i s = .next t →
    ((s.ch c).done = true → (t.ch c).done = false → i = .evHdmainit ∨ ∃ k, i = .evReset k) ∧
    ((s.ch c).done = false → (t.ch c).done = true →
      (t.ch c).nltr = 0x00 ∧ (t.ch c).doTransfer = false ∧
      (i = .hdrTerminate c ∨ ((i = .evHdmainit ∨ i = .evHdmaline) ∧ maskBit s.hdmaen c = true)))

/-- R218: two states that differ in the costs, the counter and the trace only do so after any instruction, and the same
accesses are made. -/
def Obligations.EngineIgnoresTheCosts : Prop :=
  ∀ (i : Instr) (s s' : State), State.sameButCosts s s' →
    ∃ t t', exec i s = .next t ∧ exec i s' = .next t' ∧ State.sameButCosts t t' ∧
      ∃ l l', t.trace = l ++ s.trace ∧ t'.trace = l' ++ s'.trace ∧ accessesOf l = accessesOf l'

/-- R137, R70: on a platform that may be built, no step writes an address the Bus routes to the engine, so no step
re-enters it. -/
def Obligations.NoStepWritesTheEnginesRegisters : Prop :=
  ∀ s t : State, platformOk s.plat → step s = .next t →
    ∃ l, t.trace = l ++ s.trace ∧ ∀ a : Addr, .write a ∈ accessesOf l → routedToEngine s.plat a = false

/-- R68, R69: port `p` is the bus address `0x002100 + p`, and a pattern offset is added modulo 256, so no port of a
transfer lies outside the window. -/
def Obligations.PortsStayInTheirWindow : Prop :=
  (∀ p : Byte, (portAddr p).toNat = 0x002100 + p.toNat) ∧
  ∀ (b : Byte) (p : BitVec 3) (i : Nat), (portAddr (portOf b (pattern p) i)).toNat =
    0x002100 + (b.toNat + ((pattern p).getD (i % unitSize p) 0).toNat) % 256

/-- R70: the default `ASideBlocked`, which is the platform of `State.reset` (log 1). -/
def Obligations.DefaultBlockedAddresses : Prop :=
  ∀ (b : Byte) (o : Offset), aSideBlocked Config.defaultPlatform (b ++ o) = true ↔
    (b.toNat ≤ 0x3F ∨ (0x80 ≤ b.toNat ∧ b.toNat ≤ 0xBF)) ∧
    ((0x2100 ≤ o.toNat ∧ o.toNat ≤ 0x21FF) ∨ (0x4000 ≤ o.toNat ∧ o.toNat ≤ 0x41FF) ∨
      (0x4200 ≤ o.toNat ∧ o.toNat ≤ 0x421F) ∨ (0x4300 ≤ o.toNat ∧ o.toNat ≤ 0x437F))

/-- R60, R66, R67, R231, over the model's four kinds of region (log 1) and the device acts of the environment (R13,
log 15): what the Bus's storage and the bus byte are after the engine's two primitives. R268: a port that writes memory
puts the byte of the access there. -/
def Obligations.BusPrimitives : Prop :=
  (∀ (s : State) (a x : Addr) (v : Byte), Memory.wf s.mem → Memory.wf (memWrite a v s).mem ∧ (memWrite a v s).mdr = v ∧
    (¬ s.deviceStores x → Memory.read (memWrite a v s).mem x.toNat =
      if x = a ∧ regionKind s.plat a = .ram then v else Memory.read s.mem x.toNat)) ∧
  (∀ (s : State) (a : Addr), (memRead a s).2.mdr = (memRead a s).1 ∧
    (Memory.wf s.mem → Memory.wf (memRead a s).2.mem) ∧
    (∀ x : Addr, ¬ s.deviceStores x → Memory.read (memRead a s).2.mem x.toNat = Memory.read s.mem x.toNat) ∧
    (isStorage s.plat a = true → (memRead a s).1 = Memory.read s.mem a.toNat ∧ (memRead a s).2.mem = s.mem) ∧
    (regionKind s.plat a = .unmapped →
      (memRead a s).1 = s.mdr ∧ (memRead a s).2.mdr = s.mdr ∧ (memRead a s).2.mem = s.mem)) ∧
  (∀ (s : State) (a : Addr) (v : Byte), regionKind s.plat a = .device →
    (takeAct a s.deviceIn = none → (memWrite a v s).mem = s.mem ∧ (memRead a s).2.mem = s.mem) ∧
    (∀ d left, takeAct a s.deviceIn = some (d, left) →
      (memWrite a v s).mem = applyStores v d.stores s.mem ∧ (memWrite a v s).deviceIn = left ∧
      (memRead a s).2.mem = applyStores (memRead a s).1 d.stores s.mem ∧ (memRead a s).2.deviceIn = left ∧
      (∀ w, d.answer = some w → (memRead a s).1 = w) ∧
      (∀ x : Addr, d.stores = [(x, none)] → Memory.wf s.mem →
        Memory.read (memWrite a v s).mem x.toNat = v ∧ Memory.read (memRead a s).2.mem x.toNat = (memRead a s).1)))

/-! ### Reset, events, save-state -/

/-- R250, R251: both kinds of Reset clear both masks and all hidden flags, without bus access and without charge; a
soft one keeps every channel register; a power-on one leaves them at any value. After either the engine is idle until
a register write: a frame start or a scanline changes nothing at all. -/
def Obligations.ResetKinds : Prop :=
  (∀ (k : ResetKind) (s : State), ∃ t, exec (.evReset k) s = .next t ∧ t.mdmaen = 0x00 ∧ t.hdmaen = 0x00 ∧
    (∀ c, (t.ch c).done = false ∧ (t.ch c).doTransfer = false) ∧ t.mem = s.mem ∧ t.mdr = s.mdr ∧
    t.cycles = s.cycles ∧ t.trace = s.trace ∧ t.deviceIn = s.deviceIn ∧ t.reply = s.reply ∧ t.plat = s.plat ∧
    t.pending = s.pending ∧ t.alone = s.alone ∧ exec .evHdmainit t = .next t ∧ exec .evHdmaline t = .next t) ∧
  (∀ s : State, ∃ t, exec (.evReset .soft) s = .next t ∧
    ∀ c, t.ch c = { s.ch c with done := false, doTransfer := false })

/-- R223, R252, R214, over the model's queue (log 17: no step enforces this order): events on one boundary, and the
order in which an instruction's accesses and the boundaries it crossed are put into the queue. That a Reset on one of
several crossed boundaries drops the events of that one only is the model's choice (log 20). -/
def Obligations.BoundaryOrder : Prop :=
  (∀ frame line, boundaryEvents ⟨none, frame, line⟩ =
    (if frame then [.hdmaInit] else []) ++ (if line then [.hdmaLine] else [])) ∧
  boundaryEvents ⟨none, true, true⟩ = [.hdmaInit, .hdmaLine] ∧
  (∀ k frame line, boundaryEvents ⟨some k, frame, line⟩ = [.reset k]) ∧
  (∀ (s : State) (as : List CpuAccess) (b b' : Boundary), ((s.issue as).deliver [b, b']).pending =
    s.pending ++ as.map .cpu ++ (boundaryEvents b).map .event ++ (boundaryEvents b').map .event)

/-- R47, R247: restoring a serialized engine gives the engine back, whatever engine it replaces; the bytes determine
the engine; a blob that is no engine's serialization (of another length, or with a bit no engine has) is rejected and
never corrected (R232 (c)). -/
def Obligations.SaveStateRoundTrip : Prop :=
  (∀ s u : State, u.restore s.serialize = some { u with chans := s.chans, mdmaen := s.mdmaen, hdmaen := s.hdmaen }) ∧
  (∀ s u : State, s.serialize = u.serialize → State.sameEngine s u) ∧
  (∀ (s u : State) (b : List Byte), b.length ≠ u.serialize.length → s.restore b = none) ∧
  (∀ (s : State) (b : List Byte), (∀ u : State, u.serialize ≠ b) → s.restore b = none)

/-- R82, R70, R232 (c): a platform in which another component claims an address routed to the engine, two regions claim
one address, the engine owns an offset that is not its own, or an address routed to the engine is not blocked, is
rejected when the machine is built; any other platform is taken as it is. -/
def Obligations.IllFormedPlatformIsRejected : Prop :=
  (∀ (s : State) (p : Platform) (r : Region) (a : Addr), r ∈ p.regions → windowHolds a r.window = true →
    routedToEngine p a = true → s.build p = none) ∧
  (∀ (s : State) (p : Platform) (l m n : List Region) (r q : Region) (a : Addr),
    p.regions = l ++ r :: m ++ q :: n → windowHolds a r.window = true → windowHolds a q.window = true →
    s.build p = none) ∧
  (∀ (s : State) (p : Platform) (a : Addr) (v : Byte) (e : DecodeError), routedToEngine p a = true →
    decode (.regWrite (offsetOf a) v) = .error e → s.build p = none) ∧
  (∀ (s : State) (p : Platform) (a : Addr), routedToEngine p a = true → aSideBlocked p a = false →
    s.build p = none) ∧
  (∀ (s t : State) (p : Platform), s.build p = some t → t = { s with plat := p }) ∧
  (∀ s : State, s.build Config.defaultPlatform = some { s with plat := Config.defaultPlatform })
end

