-- ==== Sys2Proof/Laws/State.lean ====
section
/-! SUPPORT. One lemma per field per update, and the register file's read-after-write laws. -/

namespace Sys2Proof.Machine

/-! ### setCh -/

@[simp] theorem setCh_chans (s : State) (c : Channel) (r : ChannelRegs) : (s.setCh c r).chans = s.chans.set c r := rfl
@[simp] theorem setCh_mdmaen (s : State) (c : Channel) (r : ChannelRegs) : (s.setCh c r).mdmaen = s.mdmaen := rfl
@[simp] theorem setCh_hdmaen (s : State) (c : Channel) (r : ChannelRegs) : (s.setCh c r).hdmaen = s.hdmaen := rfl
@[simp] theorem setCh_mdr (s : State) (c : Channel) (r : ChannelRegs) : (s.setCh c r).mdr = s.mdr := rfl
@[simp] theorem setCh_mem (s : State) (c : Channel) (r : ChannelRegs) : (s.setCh c r).mem = s.mem := rfl
@[simp] theorem setCh_cycles (s : State) (c : Channel) (r : ChannelRegs) : (s.setCh c r).cycles = s.cycles := rfl
@[simp] theorem setCh_trace (s : State) (c : Channel) (r : ChannelRegs) : (s.setCh c r).trace = s.trace := rfl
@[simp] theorem setCh_reply (s : State) (c : Channel) (r : ChannelRegs) : (s.setCh c r).reply = s.reply := rfl
@[simp] theorem setCh_deviceIn (s : State) (c : Channel) (r : ChannelRegs) : (s.setCh c r).deviceIn = s.deviceIn := rfl
@[simp] theorem setCh_draws (s : State) (c : Channel) (r : ChannelRegs) : (s.setCh c r).draws = s.draws := rfl
@[simp] theorem setCh_plat (s : State) (c : Channel) (r : ChannelRegs) : (s.setCh c r).plat = s.plat := rfl
@[simp] theorem setCh_pending (s : State) (c : Channel) (r : ChannelRegs) : (s.setCh c r).pending = s.pending := rfl
@[simp] theorem setCh_alone (s : State) (c : Channel) (r : ChannelRegs) : (s.setCh c r).alone = s.alone := rfl

/-! ### updCh -/

@[simp] theorem updCh_chans (s : State) (c : Channel) (f : ChannelRegs → ChannelRegs) : (s.updCh c f).chans = s.chans.set c (f (s.ch c)) := rfl
@[simp] theorem updCh_mdmaen (s : State) (c : Channel) (f : ChannelRegs → ChannelRegs) : (s.updCh c f).mdmaen = s.mdmaen := rfl
@[simp] theorem updCh_hdmaen (s : State) (c : Channel) (f : ChannelRegs → ChannelRegs) : (s.updCh c f).hdmaen = s.hdmaen := rfl
@[simp] theorem updCh_mdr (s : State) (c : Channel) (f : ChannelRegs → ChannelRegs) : (s.updCh c f).mdr = s.mdr := rfl
@[simp] theorem updCh_mem (s : State) (c : Channel) (f : ChannelRegs → ChannelRegs) : (s.updCh c f).mem = s.mem := rfl
@[simp] theorem updCh_cycles (s : State) (c : Channel) (f : ChannelRegs → ChannelRegs) : (s.updCh c f).cycles = s.cycles := rfl
@[simp] theorem updCh_trace (s : State) (c : Channel) (f : ChannelRegs → ChannelRegs) : (s.updCh c f).trace = s.trace := rfl
@[simp] theorem updCh_reply (s : State) (c : Channel) (f : ChannelRegs → ChannelRegs) : (s.updCh c f).reply = s.reply := rfl
@[simp] theorem updCh_deviceIn (s : State) (c : Channel) (f : ChannelRegs → ChannelRegs) : (s.updCh c f).deviceIn = s.deviceIn := rfl
@[simp] theorem updCh_draws (s : State) (c : Channel) (f : ChannelRegs → ChannelRegs) : (s.updCh c f).draws = s.draws := rfl
@[simp] theorem updCh_plat (s : State) (c : Channel) (f : ChannelRegs → ChannelRegs) : (s.updCh c f).plat = s.plat := rfl
@[simp] theorem updCh_pending (s : State) (c : Channel) (f : ChannelRegs → ChannelRegs) : (s.updCh c f).pending = s.pending := rfl
@[simp] theorem updCh_alone (s : State) (c : Channel) (f : ChannelRegs → ChannelRegs) : (s.updCh c f).alone = s.alone := rfl

/-! ### charge -/

@[simp] theorem charge_chans (n : Nat) (s : State) : (charge n s).chans = s.chans := rfl
@[simp] theorem charge_mdmaen (n : Nat) (s : State) : (charge n s).mdmaen = s.mdmaen := rfl
@[simp] theorem charge_hdmaen (n : Nat) (s : State) : (charge n s).hdmaen = s.hdmaen := rfl
@[simp] theorem charge_mdr (n : Nat) (s : State) : (charge n s).mdr = s.mdr := rfl
@[simp] theorem charge_mem (n : Nat) (s : State) : (charge n s).mem = s.mem := rfl
@[simp] theorem charge_cycles (n : Nat) (s : State) : (charge n s).cycles = s.cycles + n := rfl
@[simp] theorem charge_trace (n : Nat) (s : State) : (charge n s).trace = .charge n :: s.trace := rfl
@[simp] theorem charge_reply (n : Nat) (s : State) : (charge n s).reply = s.reply := rfl
@[simp] theorem charge_deviceIn (n : Nat) (s : State) : (charge n s).deviceIn = s.deviceIn := rfl
@[simp] theorem charge_draws (n : Nat) (s : State) : (charge n s).draws = s.draws := rfl
@[simp] theorem charge_plat (n : Nat) (s : State) : (charge n s).plat = s.plat := rfl
@[simp] theorem charge_pending (n : Nat) (s : State) : (charge n s).pending = s.pending := rfl
@[simp] theorem charge_alone (n : Nat) (s : State) : (charge n s).alone = s.alone := rfl

/-! ### memWrite -/

/-- What is behind the Bus takes a write: storage and the acts of devices may differ, nothing else. -/
theorem resolveWrite_same (a : Addr) (v : Byte) (s : State) :
    resolveWrite a v s = { s with mem := (resolveWrite a v s).mem, deviceIn := (resolveWrite a v s).deviceIn } := by
  unfold resolveWrite deviceWrite
  split
  · rfl
  · rfl
  · split <;> rfl
  · rfl

@[simp] theorem memWrite_chans (a : Addr) (v : Byte) (s : State) : (memWrite a v s).chans = s.chans := by
  simp only [memWrite]; rw [resolveWrite_same]
@[simp] theorem memWrite_mdmaen (a : Addr) (v : Byte) (s : State) : (memWrite a v s).mdmaen = s.mdmaen := by
  simp only [memWrite]; rw [resolveWrite_same]
@[simp] theorem memWrite_hdmaen (a : Addr) (v : Byte) (s : State) : (memWrite a v s).hdmaen = s.hdmaen := by
  simp only [memWrite]; rw [resolveWrite_same]
@[simp] theorem memWrite_cycles (a : Addr) (v : Byte) (s : State) : (memWrite a v s).cycles = s.cycles := by
  simp only [memWrite]; rw [resolveWrite_same]
@[simp] theorem memWrite_reply (a : Addr) (v : Byte) (s : State) : (memWrite a v s).reply = s.reply := by
  simp only [memWrite]; rw [resolveWrite_same]
@[simp] theorem memWrite_draws (a : Addr) (v : Byte) (s : State) : (memWrite a v s).draws = s.draws := by
  simp only [memWrite]; rw [resolveWrite_same]
@[simp] theorem memWrite_plat (a : Addr) (v : Byte) (s : State) : (memWrite a v s).plat = s.plat := by
  simp only [memWrite]; rw [resolveWrite_same]
@[simp] theorem memWrite_pending (a : Addr) (v : Byte) (s : State) : (memWrite a v s).pending = s.pending := by
  simp only [memWrite]; rw [resolveWrite_same]
@[simp] theorem memWrite_alone (a : Addr) (v : Byte) (s : State) : (memWrite a v s).alone = s.alone := by
  simp only [memWrite]; rw [resolveWrite_same]
@[simp] theorem memWrite_mdr (a : Addr) (v : Byte) (s : State) : (memWrite a v s).mdr = v := rfl
@[simp] theorem memWrite_mem (a : Addr) (v : Byte) (s : State) : (memWrite a v s).mem = (resolveWrite a v s).mem := rfl
@[simp] theorem memWrite_deviceIn (a : Addr) (v : Byte) (s : State) :
    (memWrite a v s).deviceIn = (resolveWrite a v s).deviceIn := rfl
@[simp] theorem memWrite_trace (a : Addr) (v : Byte) (s : State) : (memWrite a v s).trace = .write a v :: s.trace := by
  simp only [memWrite]; rw [resolveWrite_same]

/-! ### driveWrite -/

@[simp] theorem driveWrite_chans (v : Byte) (s : State) : (driveWrite v s).chans = s.chans := rfl
@[simp] theorem driveWrite_mdmaen (v : Byte) (s : State) : (driveWrite v s).mdmaen = s.mdmaen := rfl
@[simp] theorem driveWrite_hdmaen (v : Byte) (s : State) : (driveWrite v s).hdmaen = s.hdmaen := rfl
@[simp] theorem driveWrite_mdr (v : Byte) (s : State) : (driveWrite v s).mdr = v := rfl
@[simp] theorem driveWrite_mem (v : Byte) (s : State) : (driveWrite v s).mem = s.mem := rfl
@[simp] theorem driveWrite_cycles (v : Byte) (s : State) : (driveWrite v s).cycles = s.cycles := rfl
@[simp] theorem driveWrite_trace (v : Byte) (s : State) : (driveWrite v s).trace = s.trace := rfl
@[simp] theorem driveWrite_reply (v : Byte) (s : State) : (driveWrite v s).reply = none := rfl
@[simp] theorem driveWrite_deviceIn (v : Byte) (s : State) : (driveWrite v s).deviceIn = s.deviceIn := rfl
@[simp] theorem driveWrite_draws (v : Byte) (s : State) : (driveWrite v s).draws = s.draws := rfl
@[simp] theorem driveWrite_plat (v : Byte) (s : State) : (driveWrite v s).plat = s.plat := rfl
@[simp] theorem driveWrite_pending (v : Byte) (s : State) : (driveWrite v s).pending = s.pending := rfl
@[simp] theorem driveWrite_alone (v : Byte) (s : State) : (driveWrite v s).alone = s.alone := rfl

/-! ### answerRead -/

@[simp] theorem answerRead_chans (v : Byte) (s : State) : (answerRead v s).chans = s.chans := rfl
@[simp] theorem answerRead_mdmaen (v : Byte) (s : State) : (answerRead v s).mdmaen = s.mdmaen := rfl
@[simp] theorem answerRead_hdmaen (v : Byte) (s : State) : (answerRead v s).hdmaen = s.hdmaen := rfl
@[simp] theorem answerRead_mdr (v : Byte) (s : State) : (answerRead v s).mdr = v := rfl
@[simp] theorem answerRead_mem (v : Byte) (s : State) : (answerRead v s).mem = s.mem := rfl
@[simp] theorem answerRead_cycles (v : Byte) (s : State) : (answerRead v s).cycles = s.cycles := rfl
@[simp] theorem answerRead_trace (v : Byte) (s : State) : (answerRead v s).trace = s.trace := rfl
@[simp] theorem answerRead_reply (v : Byte) (s : State) : (answerRead v s).reply = some v := rfl
@[simp] theorem answerRead_deviceIn (v : Byte) (s : State) : (answerRead v s).deviceIn = s.deviceIn := rfl
@[simp] theorem answerRead_draws (v : Byte) (s : State) : (answerRead v s).draws = s.draws := rfl
@[simp] theorem answerRead_plat (v : Byte) (s : State) : (answerRead v s).plat = s.plat := rfl
@[simp] theorem answerRead_pending (v : Byte) (s : State) : (answerRead v s).pending = s.pending := rfl
@[simp] theorem answerRead_alone (v : Byte) (s : State) : (answerRead v s).alone = s.alone := rfl

/-! ### answerOpenBus -/

@[simp] theorem answerOpenBus_chans (s : State) : (answerOpenBus s).chans = s.chans := rfl
@[simp] theorem answerOpenBus_mdmaen (s : State) : (answerOpenBus s).mdmaen = s.mdmaen := rfl
@[simp] theorem answerOpenBus_hdmaen (s : State) : (answerOpenBus s).hdmaen = s.hdmaen := rfl
@[simp] theorem answerOpenBus_mdr (s : State) : (answerOpenBus s).mdr = s.mdr := rfl
@[simp] theorem answerOpenBus_mem (s : State) : (answerOpenBus s).mem = s.mem := rfl
@[simp] theorem answerOpenBus_cycles (s : State) : (answerOpenBus s).cycles = s.cycles := rfl
@[simp] theorem answerOpenBus_trace (s : State) : (answerOpenBus s).trace = s.trace := rfl
@[simp] theorem answerOpenBus_reply (s : State) : (answerOpenBus s).reply = some s.mdr := rfl
@[simp] theorem answerOpenBus_deviceIn (s : State) : (answerOpenBus s).deviceIn = s.deviceIn := rfl
@[simp] theorem answerOpenBus_draws (s : State) : (answerOpenBus s).draws = s.draws := rfl
@[simp] theorem answerOpenBus_plat (s : State) : (answerOpenBus s).plat = s.plat := rfl
@[simp] theorem answerOpenBus_pending (s : State) : (answerOpenBus s).pending = s.pending := rfl
@[simp] theorem answerOpenBus_alone (s : State) : (answerOpenBus s).alone = s.alone := rfl

/-! ### storeMdmaen -/

@[simp] theorem storeMdmaen_chans (v : Byte) (s : State) : (storeMdmaen v s).chans = s.chans := rfl
@[simp] theorem storeMdmaen_mdmaen (v : Byte) (s : State) : (storeMdmaen v s).mdmaen = v := rfl
@[simp] theorem storeMdmaen_hdmaen (v : Byte) (s : State) : (storeMdmaen v s).hdmaen = s.hdmaen := rfl
@[simp] theorem storeMdmaen_mdr (v : Byte) (s : State) : (storeMdmaen v s).mdr = v := rfl
@[simp] theorem storeMdmaen_mem (v : Byte) (s : State) : (storeMdmaen v s).mem = s.mem := rfl
@[simp] theorem storeMdmaen_cycles (v : Byte) (s : State) : (storeMdmaen v s).cycles = s.cycles := rfl
@[simp] theorem storeMdmaen_trace (v : Byte) (s : State) : (storeMdmaen v s).trace = s.trace := rfl
@[simp] theorem storeMdmaen_reply (v : Byte) (s : State) : (storeMdmaen v s).reply = none := rfl
@[simp] theorem storeMdmaen_deviceIn (v : Byte) (s : State) : (storeMdmaen v s).deviceIn = s.deviceIn := rfl
@[simp] theorem storeMdmaen_draws (v : Byte) (s : State) : (storeMdmaen v s).draws = s.draws := rfl
@[simp] theorem storeMdmaen_plat (v : Byte) (s : State) : (storeMdmaen v s).plat = s.plat := rfl
@[simp] theorem storeMdmaen_pending (v : Byte) (s : State) : (storeMdmaen v s).pending = s.pending := rfl
@[simp] theorem storeMdmaen_alone (v : Byte) (s : State) : (storeMdmaen v s).alone = s.alone := rfl

/-! ### storeHdmaen -/

@[simp] theorem storeHdmaen_chans (v : Byte) (s : State) : (storeHdmaen v s).chans = s.chans := rfl
@[simp] theorem storeHdmaen_mdmaen (v : Byte) (s : State) : (storeHdmaen v s).mdmaen = s.mdmaen := rfl
@[simp] theorem storeHdmaen_hdmaen (v : Byte) (s : State) : (storeHdmaen v s).hdmaen = v := rfl
@[simp] theorem storeHdmaen_mdr (v : Byte) (s : State) : (storeHdmaen v s).mdr = v := rfl
@[simp] theorem storeHdmaen_mem (v : Byte) (s : State) : (storeHdmaen v s).mem = s.mem := rfl
@[simp] theorem storeHdmaen_cycles (v : Byte) (s : State) : (storeHdmaen v s).cycles = s.cycles := rfl
@[simp] theorem storeHdmaen_trace (v : Byte) (s : State) : (storeHdmaen v s).trace = s.trace := rfl
@[simp] theorem storeHdmaen_reply (v : Byte) (s : State) : (storeHdmaen v s).reply = none := rfl
@[simp] theorem storeHdmaen_deviceIn (v : Byte) (s : State) : (storeHdmaen v s).deviceIn = s.deviceIn := rfl
@[simp] theorem storeHdmaen_draws (v : Byte) (s : State) : (storeHdmaen v s).draws = s.draws := rfl
@[simp] theorem storeHdmaen_plat (v : Byte) (s : State) : (storeHdmaen v s).plat = s.plat := rfl
@[simp] theorem storeHdmaen_pending (v : Byte) (s : State) : (storeHdmaen v s).pending = s.pending := rfl
@[simp] theorem storeHdmaen_alone (v : Byte) (s : State) : (storeHdmaen v s).alone = s.alone := rfl

/-! ### clearAllHidden -/

@[simp] theorem clearAllHidden_mdmaen (s : State) : (clearAllHidden s).mdmaen = s.mdmaen := rfl
@[simp] theorem clearAllHidden_hdmaen (s : State) : (clearAllHidden s).hdmaen = s.hdmaen := rfl
@[simp] theorem clearAllHidden_mdr (s : State) : (clearAllHidden s).mdr = s.mdr := rfl
@[simp] theorem clearAllHidden_mem (s : State) : (clearAllHidden s).mem = s.mem := rfl
@[simp] theorem clearAllHidden_cycles (s : State) : (clearAllHidden s).cycles = s.cycles := rfl
@[simp] theorem clearAllHidden_trace (s : State) : (clearAllHidden s).trace = s.trace := rfl
@[simp] theorem clearAllHidden_reply (s : State) : (clearAllHidden s).reply = s.reply := rfl
@[simp] theorem clearAllHidden_deviceIn (s : State) : (clearAllHidden s).deviceIn = s.deviceIn := rfl
@[simp] theorem clearAllHidden_draws (s : State) : (clearAllHidden s).draws = s.draws := rfl
@[simp] theorem clearAllHidden_plat (s : State) : (clearAllHidden s).plat = s.plat := rfl
@[simp] theorem clearAllHidden_pending (s : State) : (clearAllHidden s).pending = s.pending := rfl
@[simp] theorem clearAllHidden_alone (s : State) : (clearAllHidden s).alone = s.alone := rfl

/-! ### resetControl -/

@[simp] theorem resetControl_mdmaen (s : State) : (resetControl s).mdmaen = 0x00 := rfl
@[simp] theorem resetControl_hdmaen (s : State) : (resetControl s).hdmaen = 0x00 := rfl
@[simp] theorem resetControl_mdr (s : State) : (resetControl s).mdr = s.mdr := rfl
@[simp] theorem resetControl_mem (s : State) : (resetControl s).mem = s.mem := rfl
@[simp] theorem resetControl_cycles (s : State) : (resetControl s).cycles = s.cycles := rfl
@[simp] theorem resetControl_trace (s : State) : (resetControl s).trace = s.trace := rfl
@[simp] theorem resetControl_reply (s : State) : (resetControl s).reply = s.reply := rfl
@[simp] theorem resetControl_deviceIn (s : State) : (resetControl s).deviceIn = s.deviceIn := rfl
@[simp] theorem resetControl_draws (s : State) : (resetControl s).draws = s.draws := rfl
@[simp] theorem resetControl_plat (s : State) : (resetControl s).plat = s.plat := rfl
@[simp] theorem resetControl_pending (s : State) : (resetControl s).pending = s.pending := rfl
@[simp] theorem resetControl_alone (s : State) : (resetControl s).alone = s.alone := rfl

/-! ### Reading one channel -/

theorem ch_setCh (s : State) (c x : Channel) (r : ChannelRegs) :
    (s.setCh c r).ch x = if x = c then r else s.ch x := by
  unfold State.ch State.setCh
  simp [Vector.getElem_set, Fin.ext_iff, eq_comm]

@[simp] theorem ch_setCh_same (s : State) (c : Channel) (r : ChannelRegs) : (s.setCh c r).ch c = r := by
  simp [ch_setCh]

theorem ch_setCh_other (s : State) (c x : Channel) (r : ChannelRegs) (h : x ≠ c) : (s.setCh c r).ch x = s.ch x := by
  simp [ch_setCh, h]

theorem ch_updCh (s : State) (c x : Channel) (f : ChannelRegs → ChannelRegs) :
    (s.updCh c f).ch x = if x = c then f (s.ch c) else s.ch x := ch_setCh s c x _

@[simp] theorem ch_updCh_same (s : State) (c : Channel) (f : ChannelRegs → ChannelRegs) :
    (s.updCh c f).ch c = f (s.ch c) := by simp [ch_updCh]

theorem ch_updCh_other (s : State) (c x : Channel) (f : ChannelRegs → ChannelRegs) (h : x ≠ c) :
    (s.updCh c f).ch x = s.ch x := by simp [ch_updCh, h]

theorem ch_congr {s t : State} (h : t.chans = s.chans) (x : Channel) : t.ch x = s.ch x := by
  simp [State.ch, h]

/-- Two register files that agree channel by channel are equal. -/
theorem chans_ext {s t : State} (h : ∀ x, t.ch x = s.ch x) : t.chans = s.chans := by
  apply Vector.ext
  intro i hi
  exact h ⟨i, hi⟩

@[simp] theorem ch_charge (n : Nat) (s : State) (x : Channel) : (charge n s).ch x = s.ch x := rfl
@[simp] theorem ch_memWrite (a : Addr) (v : Byte) (s : State) (x : Channel) : (memWrite a v s).ch x = s.ch x :=
  ch_congr (memWrite_chans a v s) x
@[simp] theorem ch_driveWrite (v : Byte) (s : State) (x : Channel) : (driveWrite v s).ch x = s.ch x := rfl
@[simp] theorem ch_answerRead (v : Byte) (s : State) (x : Channel) : (answerRead v s).ch x = s.ch x := rfl
@[simp] theorem ch_answerOpenBus (s : State) (x : Channel) : (answerOpenBus s).ch x = s.ch x := rfl
@[simp] theorem ch_storeMdmaen (v : Byte) (s : State) (x : Channel) : (storeMdmaen v s).ch x = s.ch x := rfl
@[simp] theorem ch_storeHdmaen (v : Byte) (s : State) (x : Channel) : (storeHdmaen v s).ch x = s.ch x := rfl

@[simp] theorem ch_clearAllHidden (s : State) (x : Channel) : (clearAllHidden s).ch x = clearHidden (s.ch x) := by
  have h : ∀ (cs : List Channel) (s : State), cs.Nodup →
      (cs.foldl clearFlags s).ch x = if x ∈ cs then clearHidden (s.ch x) else s.ch x := by
    intro cs
    induction cs with
    | nil => simp
    | cons c cs ih =>
      intro s hn
      obtain ⟨hc, hn⟩ := List.nodup_cons.mp hn
      simp only [List.foldl_cons, ih _ hn, clearFlags, ch_updCh]
      by_cases hx : x = c
      · subst hx; simp [hc]
      · simp [hx]
  have hm : ∀ x : Channel, x ∈ channels := by decide
  rw [clearAllHidden, h _ _ (by decide), if_pos (hm x)]

@[simp] theorem ch_resetControl (s : State) (x : Channel) : (resetControl s).ch x = clearHidden (s.ch x) :=
  ch_clearAllHidden s x

end Sys2Proof.Machine
end

