-- ==== Sys2Proof/Laws/Memory.lean ====
section
/-! SUPPORT. The laws of memory: read after write, and every operation keeps the canonical form. -/

namespace Sys2Proof.Machine

theorem mem_read_put (m : Memory) (a x : Nat) (v : Byte) (h : ∀ c ∈ m, a < c.1) :
    Memory.read (Memory.put a v m) x = if x = a then v else Memory.read m x := by
  have absent : Memory.read m a = Config.unlistedByte := by
    clear v x
    induction m with
    | nil => rfl
    | cons c m ih =>
      have hc := h c (by simp)
      simp only [Memory.read]
      rw [if_neg (by omega)]
      exact ih fun d hd => h d (by simp [hd])
  unfold Memory.put
  by_cases hv : v = Config.unlistedByte
  · simp only [hv, if_true]
    split
    · next hx => rw [hx, absent]
    · rfl
  · simp only [hv, if_false, Memory.read]

/-- Read after write: the byte written at its own address, everything else as before. -/
theorem mem_read_write (m : Memory) (a x : Nat) (v : Byte) (h : m.Pairwise fun p q => p.1 < q.1) :
    Memory.read (Memory.write m a v) x = if x = a then v else Memory.read m x := by
  induction m with
  | nil => exact mem_read_put [] a x v (by simp)
  | cons c m ih =>
    obtain ⟨b, w⟩ := c
    rw [List.pairwise_cons] at h
    simp only [Memory.write]
    split
    · next hlt =>
      exact mem_read_put _ a x v fun d hd => by
        rcases List.mem_cons.mp hd with rfl | hd
        · exact hlt
        · exact lt_trans hlt (h.1 d hd)
    · split
      · next heq =>
        subst heq
        rw [mem_read_put m a x v h.1]
        simp only [Memory.read]
        split <;> rfl
      · next hne =>
        simp only [Memory.read, ih h.2]
        split
        · next hxb => rw [if_neg (by omega)]
        · rfl

theorem mem_read_put_other (m : Memory) (a x : Nat) (v : Byte) (h : x ≠ a) :
    Memory.read (Memory.put a v m) x = Memory.read m x := by
  unfold Memory.put
  split
  · rfl
  · simp [Memory.read, h]

/-- A write leaves every other address alone, in any list of cells. -/
theorem mem_read_write_other (m : Memory) (a x : Nat) (v : Byte) (h : x ≠ a) :
    Memory.read (Memory.write m a v) x = Memory.read m x := by
  induction m with
  | nil => exact mem_read_put_other [] a x v h
  | cons c m ih =>
    obtain ⟨b, w⟩ := c
    simp only [Memory.write]
    split
    · exact mem_read_put_other _ a x v h
    · split
      · next hab =>
        rw [mem_read_put_other m a x v h]
        simp [Memory.read, ← hab, h]
      · simp only [Memory.read, ih]

theorem mem_write_bound (m : Memory) (a : Nat) (v : Byte) (c : Host.Cell) (hc : c ∈ Memory.write m a v) :
    c ∈ m ∨ (c = (a, v) ∧ v ≠ Config.unlistedByte) := by
  have hput : ∀ m' : Memory, c ∈ Memory.put a v m' → c ∈ m' ∨ (c = (a, v) ∧ v ≠ Config.unlistedByte) := by
    intro m' h
    unfold Memory.put at h
    split at h
    · exact .inl h
    · next hv =>
      rcases List.mem_cons.mp h with rfl | h
      · exact .inr ⟨rfl, hv⟩
      · exact .inl h
  induction m with
  | nil => exact hput [] hc
  | cons d m ih =>
    obtain ⟨b, w⟩ := d
    simp only [Memory.write] at hc
    split at hc
    · exact hput _ hc
    · split at hc
      · rcases hput m hc with h | h
        · exact .inl (by simp [h])
        · exact .inr h
      · rcases List.mem_cons.mp hc with rfl | h
        · exact .inl (by simp)
        · rcases ih h with h | h
          · exact .inl (by simp [h])
          · exact .inr h

theorem mem_put_pairwise (m : Memory) (a : Nat) (v : Byte) (h : m.Pairwise fun p q => p.1 < q.1)
    (ha : ∀ c ∈ m, a < c.1) : (Memory.put a v m).Pairwise fun p q => p.1 < q.1 := by
  unfold Memory.put
  split
  · exact h
  · exact List.pairwise_cons.mpr ⟨ha, h⟩

/-- A write keeps the canonical form. -/
theorem mem_write_wf (m : Memory) (a : Nat) (v : Byte) (ha : a < 2 ^ addrWidth) (h : Memory.wf m) :
    Memory.wf (Memory.write m a v) := by
  refine ⟨?_, fun c hc => ?_⟩
  · have hp := h.1
    clear h
    induction m with
    | nil => exact mem_put_pairwise [] a v List.Pairwise.nil (by simp)
    | cons c m ih =>
      obtain ⟨b, w⟩ := c
      have hp' := List.pairwise_cons.mp hp
      simp only [Memory.write]
      split
      · next hlt =>
        exact mem_put_pairwise _ a v hp fun d hd => by
          rcases List.mem_cons.mp hd with rfl | hd
          · exact hlt
          · exact lt_trans hlt (hp'.1 d hd)
      · split
        · next heq => exact mem_put_pairwise m a v hp'.2 (heq ▸ hp'.1)
        · next h1 h2 =>
          refine List.pairwise_cons.mpr ⟨fun d hd => ?_, ih hp'.2⟩
          rcases mem_write_bound m a v d hd with hd | ⟨rfl, -⟩
          · exact hp'.1 d hd
          · simp only; omega
  · rcases mem_write_bound m a v c hc with hc | ⟨rfl, hv⟩
    · exact h.2 c hc
    · exact ⟨ha, hv⟩

/-- What a device stores keeps the canonical form. -/
theorem applyStores_wf (v : Byte) (cs : List (Addr × Option Byte)) (m : Memory) (h : Memory.wf m) :
    Memory.wf (applyStores v cs m) := by
  induction cs generalizing m with
  | nil => exact h
  | cons c cs ih => exact ih _ (mem_write_wf m _ _ c.1.isLt h)

/-- A device leaves every address it does not name. -/
theorem applyStores_other (v : Byte) (cs : List (Addr × Option Byte)) (m : Memory) (a : Addr)
    (h : ∀ c ∈ cs, c.1 ≠ a) : Memory.read (applyStores v cs m) a.toNat = Memory.read m a.toNat := by
  induction cs generalizing m with
  | nil => rfl
  | cons c cs ih =>
    have hc : a.toNat ≠ c.1.toNat := fun e => h c (by simp) (BitVec.eq_of_toNat_eq e).symm
    rw [applyStores, List.foldl_cons]
    exact (ih _ fun d hd => h d (by simp [hd])).trans (mem_read_write_other m _ _ _ hc)

theorem mem_nil_wf : Memory.wf [] := ⟨List.Pairwise.nil, by simp⟩

end Sys2Proof.Machine
end

