-- ==== Sys2Proof/Laws/Bus.lean ====
section
/-! SUPPORT. What the Bus and the byte transfer can do: every operation is an `EngineRun`, and what it moves. -/

namespace Sys2Proof.Machine

theorem charged_append (l m : List Action) : charged (l ++ m) = charged l + charged m := by
  induction l with
  | nil => simp [charged]
  | cons x l ih => cases x <;> simp [charged, ih, Nat.add_assoc]

theorem lastDriven_append (b : Byte) (l m : List Action) :
    lastDriven b (l ++ m) = lastDriven (lastDriven b m) l := by
  induction l with
  | nil => rfl
  | cons x l ih => cases x <;> simp [lastDriven, ih]

theorem carriesBusByte_append (b : Byte) (l m : List Action) :
    carriesBusByte b (l ++ m) ↔ carriesBusByte (lastDriven b m) l ∧ carriesBusByte b m := by
  induction l with
  | nil => simp [carriesBusByte]
  | cons x l ih => cases x <;> simp [carriesBusByte, ih, lastDriven_append, and_assoc]

theorem memAfter_append (p : Platform) (f : Addr → Byte) (l m : List Action) (a : Addr) :
    memAfter p f (l ++ m) a = memAfter p (memAfter p f m) l a := by
  induction l with
  | nil => rfl
  | cons x l ih => cases x <;> simp [memAfter, ih]

/-- Only the byte at the address itself matters to what it holds afterwards. -/
theorem memAfter_congr (p : Platform) (f g : Addr → Byte) (l : List Action) (a : Addr) (h : f a = g a) :
    memAfter p f l a = memAfter p g l a := by
  induction l with
  | nil => exact h
  | cons x l ih => cases x <;> simp [memAfter, ih]

/-- Actions without a write leave storage. -/
theorem memAfter_no_write (p : Platform) (f : Addr → Byte) (l : List Action) (a : Addr)
    (h : ∀ v, Action.write a v ∉ l) : memAfter p f l a = f a := by
  induction l with
  | nil => rfl
  | cons x l ih =>
    have hl := ih fun v hv => h v (by simp [hv])
    cases x with
    | read b v => exact hl
    | charge n => exact hl
    | write b v =>
      have hne : a ≠ b := fun e => h v (by simp [e])
      simp [memAfter, hne, hl]

theorem readsStorage_append (p : Platform) (f : Addr → Byte) (E : Addr → Prop) (l m : List Action) :
    readsStorage p f E (l ++ m) ↔ readsStorage p (memAfter p f m) E l ∧ readsStorage p f E m := by
  induction l with
  | nil => simp [readsStorage]
  | cons x l ih => cases x <;> simp [readsStorage, ih, memAfter_append, and_assoc]

/-- A reading stays right with more exceptions, and with other bytes at the exceptions. -/
theorem readsStorage_mono (p : Platform) (f g : Addr → Byte) (E F : Addr → Prop) (l : List Action)
    (hE : ∀ a, E a → F a) (hf : ∀ a, ¬ F a → f a = g a) (h : readsStorage p f E l) : readsStorage p g F l := by
  induction l with
  | nil => trivial
  | cons x l ih =>
    cases x with
    | charge n => exact ih h
    | write b v => exact ih h
    | read a v =>
      refine ⟨fun hs ha => ?_, ih h.2⟩
      rw [h.1 hs fun e => ha (hE a e)]
      exact memAfter_congr p f g l a (hf a ha)

/-- Nothing happened behind the Bus. -/
theorem storageFollows_nil {s t : State} (h : t.mem = s.mem) : StorageFollows s t [] :=
  ⟨fun _ _ => by simp [State.bytes, memAfter, h], trivial⟩

theorem StorageFollows.trans {s t u : State} {l m : List Action} (h : StorageFollows s t l)
    (k : StorageFollows t u m) (hp : t.plat = s.plat) (hd : ∀ a, t.deviceStores a → s.deviceStores a) :
    StorageFollows s u (m ++ l) := by
  refine ⟨fun a ha => ?_, (readsStorage_append ..).mpr ⟨?_, h.2⟩⟩
  · rw [k.1 a fun e => ha (hd a e), memAfter_append, hp]
    exact memAfter_congr _ _ _ m a (h.1 a ha)
  · rw [← hp]
    exact readsStorage_mono _ _ _ _ _ m hd (fun a ha => hp ▸ h.1 a ha) k.2

/-- A state in which only the engine's registers differ is reached without actions. -/
theorem engineRun_of_same {s t : State} (h1 : t.trace = s.trace) (h2 : t.cycles = s.cycles) (h3 : t.mdr = s.mdr)
    (h4 : t.mem = s.mem) (h5 : t.deviceIn = s.deviceIn) (h6 : t.plat = s.plat) (h7 : t.pending = s.pending)
    (h8 : t.reply = s.reply) (h9 : t.alone = s.alone) : EngineRun s t [] where
  trace := h1
  cycles := h2
  mdr := h3
  carries := trivial
  mem := fun _ _ _ => by rw [h4]
  follows := fun _ => storageFollows_nil h4
  stores := fun a => by simp [State.deviceStores, h5]
  memWf := by simp [h4]
  plat := h6
  pending := h7
  reply := h8
  alone := h9

theorem engineRun_refl (s : State) : EngineRun s s [] := engineRun_of_same rfl rfl rfl rfl rfl rfl rfl rfl rfl

/-- Two runs one after the other: the later actions stand in front. -/
theorem EngineRun.trans {s t u : State} {l m : List Action} (h : EngineRun s t l) (k : EngineRun t u m) :
    EngineRun s u (m ++ l) where
  trace := by rw [k.trace, h.trace, List.append_assoc]
  cycles := by rw [k.cycles, h.cycles, charged_append]; omega
  mdr := by rw [k.mdr, h.mdr, lastDriven_append]
  carries := (carriesBusByte_append ..).mpr ⟨h.mdr ▸ k.carries, h.carries⟩
  mem := fun a hs ha => by
    rw [k.mem a (fun e => hs (h.stores a e)) fun v hv => ha v (by simp [hv]), h.mem a hs fun v hv => ha v (by simp [hv])]
  follows := fun hw => (h.follows hw).trans (k.follows (h.memWf hw)) h.plat h.stores
  stores := fun a e => h.stores a (k.stores a e)
  memWf := k.memWf ∘ h.memWf
  plat := k.plat.trans h.plat
  pending := k.pending.trans h.pending
  reply := k.reply.trans h.reply
  alone := k.alone.trans h.alone

/-- Register changes alone are a run without actions. -/
theorem engineRun_updCh (s : State) (c : Channel) (f : ChannelRegs → ChannelRegs) : EngineRun s (s.updCh c f) [] :=
  engineRun_of_same rfl rfl rfl rfl rfl rfl rfl rfl rfl

theorem engineRun_mdmaen (s : State) (m : Byte) : EngineRun s { s with mdmaen := m } [] :=
  engineRun_of_same rfl rfl rfl rfl rfl rfl rfl rfl rfl

theorem engineRun_charge (n : Nat) (s : State) : EngineRun s (charge n s) [.charge n] where
  trace := rfl
  cycles := rfl
  mdr := rfl
  carries := trivial
  mem := fun _ _ _ => rfl
  follows := fun _ => ⟨fun _ _ => rfl, trivial⟩
  stores := fun _ => id
  memWf := id
  plat := rfl
  pending := rfl
  reply := rfl
  alone := rfl

/-- What spending an act leaves of the acts that wait. -/
theorem takeAct_sub (a : Addr) (ds : List DeviceAct) (d : DeviceAct) (left : List DeviceAct)
    (h : takeAct a ds = some (d, left)) : d ∈ ds ∧ ∀ e ∈ left, e ∈ ds := by
  induction ds generalizing d left with
  | nil => simp [takeAct] at h
  | cons x ds ih =>
    simp only [takeAct] at h
    split at h
    · simp only [Option.some.injEq, Prod.mk.injEq] at h
      obtain ⟨rfl, rfl⟩ := h
      exact ⟨by simp, fun e he => by simp [he]⟩
    · split at h
      · next w l hw =>
        simp only [Option.some.injEq, Prod.mk.injEq] at h
        obtain ⟨rfl, rfl⟩ := h
        obtain ⟨h1, h2⟩ := ih w l hw
        refine ⟨by simp [h1], fun e he => ?_⟩
        rcases List.mem_cons.mp he with rfl | he
        · simp
        · simp [h2 e he]
      · simp at h

/-- What an access leaves behind the Bus: every byte no waiting act names, the canonical form, no new act. -/
structure BusKeeps (s t : State) : Prop where
  other : ∀ a : Addr, ¬ s.deviceStores a → t.bytes a = s.bytes a
  stores : ∀ a, t.deviceStores a → s.deviceStores a
  memWf : Memory.wf s.mem → Memory.wf t.mem

theorem busKeeps_same {s t : State} (h : t.mem = s.mem) (h' : t.deviceIn = s.deviceIn) : BusKeeps s t :=
  ⟨fun _ _ => by simp [State.bytes, h], fun a => by simp [State.deviceStores, h'], by simp [h]⟩

/-- A device's act leaves what it does not name. -/
theorem busKeeps_act {s t : State} {a : Addr} {d : DeviceAct} {left : List DeviceAct} (v : Byte)
    (h : takeAct a s.deviceIn = some (d, left)) (hm : t.mem = applyStores v d.stores s.mem)
    (hl : t.deviceIn = left) : BusKeeps s t := by
  obtain ⟨h1, h2⟩ := takeAct_sub a _ d left h
  refine ⟨fun x hx => ?_, fun x hx => ?_, fun hw => hm ▸ applyStores_wf v _ _ hw⟩
  · rw [State.bytes, State.bytes, hm]
    exact applyStores_other v _ _ x fun c hc e => hx ⟨d, h1, c, hc, e⟩
  · obtain ⟨e, he, hc⟩ := hx
    exact ⟨e, h2 e (hl ▸ he), hc⟩

/-- Behind a read only storage, the acts and the count of draws may differ. -/
theorem resolveRead_same (a : Addr) (s : State) :
    (resolveRead a s).2 = { s with mem := (resolveRead a s).2.mem, deviceIn := (resolveRead a s).2.deviceIn,
                                   draws := (resolveRead a s).2.draws } := by
  unfold resolveRead deviceRead actAnswer freeByte
  split
  · rfl
  · rfl
  · split
    · split <;> rfl
    · rfl
  · rfl

theorem resolveRead_keeps (a : Addr) (s : State) : BusKeeps s (resolveRead a s).2 := by
  unfold resolveRead deviceRead
  split
  · exact busKeeps_same rfl rfl
  · exact busKeeps_same rfl rfl
  · split
    · next d left h =>
      refine busKeeps_act (actAnswer d s).1 h ?_ rfl
      unfold actAnswer
      split <;> rfl
    · exact busKeeps_same rfl rfl
  · exact busKeeps_same rfl rfl

/-- A read of storage gives the byte storage holds and changes nothing behind the Bus. -/
theorem resolveRead_storage (a : Addr) (s : State) (h : isStorage s.plat a = true) :
    resolveRead a s = (s.bytes a, s) := by
  simp only [isStorage, Bool.or_eq_true, decide_eq_true_eq] at h
  rcases h with h | h <;> simp [resolveRead, h, State.bytes]

@[simp] theorem memRead_chans (a : Addr) (s : State) : (memRead a s).2.chans = s.chans := by
  simp only [memRead]; rw [resolveRead_same]
@[simp] theorem memRead_mdmaen (a : Addr) (s : State) : (memRead a s).2.mdmaen = s.mdmaen := by
  simp only [memRead]; rw [resolveRead_same]
@[simp] theorem memRead_hdmaen (a : Addr) (s : State) : (memRead a s).2.hdmaen = s.hdmaen := by
  simp only [memRead]; rw [resolveRead_same]
@[simp] theorem memRead_cycles (a : Addr) (s : State) : (memRead a s).2.cycles = s.cycles := by
  simp only [memRead]; rw [resolveRead_same]
@[simp] theorem memRead_reply (a : Addr) (s : State) : (memRead a s).2.reply = s.reply := by
  simp only [memRead]; rw [resolveRead_same]
@[simp] theorem memRead_plat (a : Addr) (s : State) : (memRead a s).2.plat = s.plat := by
  simp only [memRead]; rw [resolveRead_same]
@[simp] theorem memRead_pending (a : Addr) (s : State) : (memRead a s).2.pending = s.pending := by
  simp only [memRead]; rw [resolveRead_same]
@[simp] theorem memRead_alone (a : Addr) (s : State) : (memRead a s).2.alone = s.alone := by
  simp only [memRead]; rw [resolveRead_same]
@[simp] theorem memRead_trace (a : Addr) (s : State) : (memRead a s).2.trace = .read a (memRead a s).1 :: s.trace := by
  simp only [memRead]; rw [resolveRead_same]
@[simp] theorem memRead_mdr (a : Addr) (s : State) : (memRead a s).2.mdr = (memRead a s).1 := rfl
@[simp] theorem memRead_ch (a : Addr) (s : State) (x : Channel) : (memRead a s).2.ch x = s.ch x :=
  ch_congr (memRead_chans a s) x

/-- What a read leaves behind the Bus. -/
theorem memRead_keeps (a : Addr) (s : State) : BusKeeps s (memRead a s).2 :=
  ⟨(resolveRead_keeps a s).other, (resolveRead_keeps a s).stores, (resolveRead_keeps a s).memWf⟩

/-- A read of storage gives the byte memory holds. -/
theorem memRead_storage (a : Addr) (s : State) (h : isStorage s.plat a = true) :
    (memRead a s).1 = Memory.read s.mem a.toNat := by
  simp [memRead, resolveRead_storage a s h, State.bytes]

theorem engineRun_memRead (a : Addr) (s : State) :
    EngineRun s (memRead a s).2 [.read a (memRead a s).1] where
  trace := by simp
  cycles := by simp [charged]
  mdr := rfl
  carries := trivial
  mem := fun x hx _ => (memRead_keeps a s).other x hx
  follows := fun _ => ⟨fun x hx => (memRead_keeps a s).other x hx, fun h _ => memRead_storage a s h, trivial⟩
  stores := (memRead_keeps a s).stores
  memWf := (memRead_keeps a s).memWf
  plat := by simp
  pending := by simp
  reply := by simp
  alone := by simp

theorem addr_ne {a b : Addr} (h : a ≠ b) : a.toNat ≠ b.toNat := fun e => h (BitVec.eq_of_toNat_eq e)

/-- What a write leaves behind the Bus: `ram` holds its byte, nothing else that no waiting act names changes. -/
theorem resolveWrite_spec (a : Addr) (v : Byte) (s : State) :
    (∀ x : Addr, ¬ s.deviceStores x → x ≠ a → (resolveWrite a v s).bytes x = s.bytes x) ∧
    (Memory.wf s.mem → ∀ x : Addr, ¬ s.deviceStores x →
      (resolveWrite a v s).bytes x = if x = a ∧ regionKind s.plat a = .ram then v else s.bytes x) ∧
    (∀ x, (resolveWrite a v s).deviceStores x → s.deviceStores x) ∧
    (Memory.wf s.mem → Memory.wf (resolveWrite a v s).mem) := by
  have keep : ∀ t : State, BusKeeps s t → regionKind s.plat a ≠ .ram →
      (∀ x : Addr, ¬ s.deviceStores x → x ≠ a → t.bytes x = s.bytes x) ∧
      (Memory.wf s.mem → ∀ x : Addr, ¬ s.deviceStores x →
        t.bytes x = if x = a ∧ regionKind s.plat a = .ram then v else s.bytes x) ∧
      (∀ x, t.deviceStores x → s.deviceStores x) ∧ (Memory.wf s.mem → Memory.wf t.mem) := fun t h hk =>
    ⟨fun x hx _ => h.other x hx, fun _ x hx => by simp [hk, h.other x hx], h.stores, h.memWf⟩
  unfold resolveWrite
  split
  · next hk =>
    refine ⟨fun x _ hx => mem_read_write_other _ _ _ _ (addr_ne hx), fun hw x _ => ?_, fun _ => id,
      fun hw => mem_write_wf _ _ _ a.isLt hw⟩
    simp only [State.bytes, mem_read_write _ _ _ _ hw.1, hk, and_true]
    by_cases hx : x = a
    · simp [hx]
    · simp [hx, addr_ne hx]
  · next hk => exact keep s (busKeeps_same rfl rfl) (by simp [hk])
  · next hk =>
    refine keep _ ?_ (by simp [hk])
    unfold deviceWrite
    split
    · next d left h => exact busKeeps_act v h rfl rfl
    · exact busKeeps_same rfl rfl
  · next hk => exact keep s (busKeeps_same rfl rfl) (by simp [hk])

/-- The engine writes the byte that is on the Bus. -/
theorem engineRun_memWrite (a : Addr) (v : Byte) (s : State) (h : v = s.mdr) :
    EngineRun s (memWrite a v s) [.write a v] where
  trace := by simp
  cycles := by simp [charged]
  mdr := rfl
  carries := ⟨h, trivial⟩
  mem := fun x hx hw => (resolveWrite_spec a v s).1 x hx fun e => hw v (by simp [e])
  follows := fun hw => ⟨fun x hx => (resolveWrite_spec a v s).2.1 hw x hx, trivial⟩
  stores := (resolveWrite_spec a v s).2.2.1
  memWf := (resolveWrite_spec a v s).2.2.2
  plat := by simp
  pending := by simp
  reply := by simp
  alone := by simp

/-- Every byte transfer is one `EngineRun` that ends with the charge of `unit_cost` and moves one byte: the actions
are R152's, in R152's order. -/
theorem xferByte_spec (d : Dir) (a : Addr) (p : Byte) (s : State) :
    ∃ v, EngineRun s (xferByte d a p s)
        (.charge s.plat.unitCost ::
          match d, aSideBlocked s.plat a with
          | .busToPort, true => [.write (portAddr p) v]
          | .busToPort, false => [.write (portAddr p) v, .read a v]
          | .portToBus, true => [.read (portAddr p) v]
          | .portToBus, false => [.write a v, .read (portAddr p) v]) ∧
      (d = .busToPort → aSideBlocked s.plat a = true → v = s.mdr) := by
  cases d with
  | busToPort =>
    cases hb : aSideBlocked s.plat a with
    | true =>
      refine ⟨s.mdr, ?_, fun _ _ => rfl⟩
      have := (engineRun_memWrite (portAddr p) s.mdr s rfl).trans (engineRun_charge s.plat.unitCost _)
      simpa [xferByte, moveByte, aSideRead, hb] using this
    | false =>
      refine ⟨(memRead a s).1, ?_, by simp⟩
      have := ((engineRun_memRead a s).trans (engineRun_memWrite (portAddr p) (memRead a s).1 _ rfl)).trans
        (engineRun_charge s.plat.unitCost _)
      simpa [xferByte, moveByte, aSideRead, hb] using this
  | portToBus =>
    refine ⟨(memRead (portAddr p) s).1, ?_, by simp⟩
    cases hb : aSideBlocked s.plat a with
    | true =>
      have := (engineRun_memRead (portAddr p) s).trans (engineRun_charge s.plat.unitCost _)
      simpa [xferByte, moveByte, aSideWrite, hb] using this
    | false =>
      have := ((engineRun_memRead (portAddr p) s).trans
        (engineRun_memWrite a (memRead (portAddr p) s).1 _ rfl)).trans (engineRun_charge s.plat.unitCost _)
      simpa [xferByte, moveByte, aSideWrite, hb] using this

theorem xferByte_run (d : Dir) (a : Addr) (p : Byte) (s : State) : ∃ l, EngineRun s (xferByte d a p s) l :=
  let ⟨_, h, _⟩ := xferByte_spec d a p s
  ⟨_, h⟩

/-- The engine's registers are not touched by a byte transfer. -/
theorem xferByte_regs (d : Dir) (a : Addr) (p : Byte) (s : State) :
    (xferByte d a p s).chans = s.chans ∧ (xferByte d a p s).mdmaen = s.mdmaen ∧
      (xferByte d a p s).hdmaen = s.hdmaen := by
  cases d <;> simp only [xferByte, moveByte, aSideRead, aSideWrite] <;> split <;> simp

@[simp] theorem xferByte_ch (d : Dir) (a : Addr) (p : Byte) (s : State) (x : Channel) :
    (xferByte d a p s).ch x = s.ch x := ch_congr (xferByte_regs d a p s).1 x
@[simp] theorem xferByte_mdmaen (d : Dir) (a : Addr) (p : Byte) (s : State) :
    (xferByte d a p s).mdmaen = s.mdmaen := (xferByte_regs d a p s).2.1
@[simp] theorem xferByte_hdmaen (d : Dir) (a : Addr) (p : Byte) (s : State) :
    (xferByte d a p s).hdmaen = s.hdmaen := (xferByte_regs d a p s).2.2
@[simp] theorem xferByte_plat (d : Dir) (a : Addr) (p : Byte) (s : State) : (xferByte d a p s).plat = s.plat :=
  let ⟨_, h⟩ := xferByte_run d a p s
  h.plat

/-- The requirement of R70, spelled out on addresses. -/
theorem platformOk_blocked {p : Platform} (h : platformOk p) (a : Addr) (ha : routedToEngine p a = true) :
    aSideBlocked p a = true := by
  simp only [routedToEngine, aSideBlocked, List.any_eq_true] at *
  obtain ⟨w, hw, hin⟩ := ha
  obtain ⟨b, hb, hc⟩ := h.1 w hw
  refine ⟨b, hb, ?_⟩
  simp only [windowHolds, windowCovers, Bool.and_eq_true, decide_eq_true_eq] at *
  omega

/-- No port is routed to the engine of a platform that may be built (R137). -/
theorem platformOk_port {p : Platform} (h : platformOk p) (q : Byte) : routedToEngine p (portAddr q) = false := by
  have hq : (offsetOf (portAddr q)).toNat = 0x2100 + q.toNat := by
    have : offsetOf (portAddr q) = 0x2100 + q.setWidth 16 := by
      revert q
      decide +kernel
    rw [this]
    have := q.isLt
    bv_omega
  rw [routedToEngine, List.any_eq_false]
  intro w hw hin
  have hown := h.2.1 w hw
  simp only [windowHolds, ownsOnlyItsOffsets, Bool.or_eq_true, Bool.and_eq_true, decide_eq_true_eq] at hin hown
  have := q.isLt
  omega

/-- A platform that may be built gives no address two owners (R82). -/
theorem windowsMeet_of_holds {u w : Window} (a : Addr) (hu : windowHolds a u = true) (hw : windowHolds a w = true) :
    windowsMeet u w = true := by
  simp only [windowHolds, windowsMeet, Bool.and_eq_true, decide_eq_true_eq] at *
  omega

end Sys2Proof.Machine
end

