-- ==== Sys2Proof/Laws/Decode.lean ====
section
/-! SUPPORT. The fields of the encodings, read back from the words the encoder builds. -/

namespace Sys2Proof

/-! ### Register offsets (R91) -/

theorem offset_fields (c : Channel) (r : BitVec 4) :
    isChannelBlock (regOffset c r) = true ∧ offsetChannel (regOffset c r) = c ∧ offsetReg (regOffset c r) = r ∧
      regOffset c r ≠ 0x420B ∧ regOffset c r ≠ 0x420C := by
  revert c r
  decide +kernel

@[simp] theorem isChannelBlock_regOffset (c : Channel) (r : BitVec 4) : isChannelBlock (regOffset c r) = true :=
  (offset_fields c r).1
@[simp] theorem offsetChannel_regOffset (c : Channel) (r : BitVec 4) : offsetChannel (regOffset c r) = c :=
  (offset_fields c r).2.1
@[simp] theorem offsetReg_regOffset (c : Channel) (r : BitVec 4) : offsetReg (regOffset c r) = r :=
  (offset_fields c r).2.2.1
@[simp] theorem regOffset_ne_mdmaen (c : Channel) (r : BitVec 4) : (regOffset c r = 0x420B) = False :=
  eq_false (offset_fields c r).2.2.2.1
@[simp] theorem regOffset_ne_hdmaen (c : Channel) (r : BitVec 4) : (regOffset c r = 0x420C) = False :=
  eq_false (offset_fields c r).2.2.2.2

theorem decodeWrite_regOffset (c : Channel) (r : BitVec 4) (v : Byte) :
    decodeWrite (regOffset c r) v = .ok (decodeChannelWrite c v r) := by
  unfold decodeWrite
  rw [if_neg (offset_fields c r).2.2.2.1, if_neg (offset_fields c r).2.2.2.2]
  simp

theorem decodeRead_regOffset (c : Channel) (r : BitVec 4) :
    decodeRead (regOffset c r) = .ok (decodeChannelRead c r) := by
  unfold decodeRead
  rw [if_neg (offset_fields c r).2.2.2.1, if_neg (offset_fields c r).2.2.2.2]
  simp

/-! ### Control bytes (R93) -/

theorem ctrl_fields (d : Dir) (n u z f : Bool) (p : BitVec 3) :
    ctrlDir (ctrlByte d n u z f p) = d ∧ ctrlInd (ctrlByte d n u z f p) = n ∧
      ctrlUnused (ctrlByte d n u z f p) = u ∧ ctrlDec (ctrlByte d n u z f p) = z ∧
      ctrlFix (ctrlByte d n u z f p) = f ∧ ctrlPat (ctrlByte d n u z f p) = p := by
  cases d <;> revert n u z f p <;> decide +kernel

@[simp] theorem ctrlDir_ctrlByte (d : Dir) (n u z f : Bool) (p : BitVec 3) : ctrlDir (ctrlByte d n u z f p) = d :=
  (ctrl_fields d n u z f p).1
@[simp] theorem ctrlInd_ctrlByte (d : Dir) (n u z f : Bool) (p : BitVec 3) : ctrlInd (ctrlByte d n u z f p) = n :=
  (ctrl_fields d n u z f p).2.1
@[simp] theorem ctrlUnused_ctrlByte (d : Dir) (n u z f : Bool) (p : BitVec 3) :
    ctrlUnused (ctrlByte d n u z f p) = u := (ctrl_fields d n u z f p).2.2.1
@[simp] theorem ctrlDec_ctrlByte (d : Dir) (n u z f : Bool) (p : BitVec 3) : ctrlDec (ctrlByte d n u z f p) = z :=
  (ctrl_fields d n u z f p).2.2.2.1
@[simp] theorem ctrlFix_ctrlByte (d : Dir) (n u z f : Bool) (p : BitVec 3) : ctrlFix (ctrlByte d n u z f p) = f :=
  (ctrl_fields d n u z f p).2.2.2.2.1
@[simp] theorem ctrlPat_ctrlByte (d : Dir) (n u z f : Bool) (p : BitVec 3) : ctrlPat (ctrlByte d n u z f p) = p :=
  (ctrl_fields d n u z f p).2.2.2.2.2

/-- A control byte is made of its fields. -/
theorem ctrlByte_fields (b : Byte) :
    ctrlByte (ctrlDir b) (ctrlInd b) (ctrlUnused b) (ctrlDec b) (ctrlFix b) (ctrlPat b) = b := by
  revert b
  decide +kernel

/-! ### Header bytes (R95) -/

theorem header_fields (k : Bool) (lines : BitVec 7) :
    (headerByte k lines).getLsbD 7 = k ∧ (headerByte k lines).extractLsb' 0 7 = lines ∧
      (headerByte k lines = 0x00 ↔ k = false ∧ lines = 0) ∧ (headerByte k lines = 0x80 ↔ k = true ∧ lines = 0) := by
  revert k lines
  decide +kernel

theorem headerByte_fields (h : Byte) : headerByte (h.getLsbD 7) (h.extractLsb' 0 7) = h := by
  revert h
  decide +kernel

end Sys2Proof
end

