-- ==== Sys2Proof/Laws/GeneralDma.lean ====
section
/-! SUPPORT. What a channel's general DMA can do: the loop of R151 in closed form. -/

namespace Sys2Proof.Machine

/-! ### Reads, writes and accesses of a list of actions -/

theorem readsOf_append (m l : List Action) : readsOf (m ++ l) = readsOf l ++ readsOf m := by
  simp [readsOf]

theorem writesOf_append (m l : List Action) : writesOf (m ++ l) = writesOf l ++ writesOf m := by
  simp [writesOf]

theorem accessesOf_append (m l : List Action) : accessesOf (m ++ l) = accessesOf l ++ accessesOf m := by
  simp [accessesOf]

/-- An address that is not among the accesses' writes is written by no action. -/
theorem not_written {l : List Action} {a : Addr} (h : Access.write a ∉ accessesOf l) (v : Byte) :
    Action.write a v ∉ l := fun hv => h (by
  simp only [accessesOf, List.mem_filterMap, List.mem_reverse]
  exact ⟨_, hv, rfl⟩)

/-- A byte transfer as a run, with what it accesses and charges, and the byte it carries across. -/
theorem xferByte_moves (d : Dir) (a : Addr) (p : Byte) (s : State) :
    ∃ l, EngineRun s (xferByte d a p s) l ∧ charged l = s.plat.unitCost ∧
      accessesOf l = byteAccesses s.plat d a p ∧
      (aSideBlocked s.plat a = false → (readsOf l).map Prod.snd = (writesOf l).map Prod.snd) ∧
      (∀ m, (xferByte d a p s).mdr = lastDriven m l) := by
  obtain ⟨v, h, -⟩ := xferByte_spec d a p s
  refine ⟨_, h, ?_, ?_, ?_, fun m => ?_⟩
  · cases d <;> cases hb : aSideBlocked s.plat a <;> simp [charged]
  · cases d <;> cases hb : aSideBlocked s.plat a <;> simp [accessesOf, byteAccesses, hb]
  · cases d <;> cases hb : aSideBlocked s.plat a <;> simp [readsOf, writesOf]
  · rw [h.mdr]
    cases d <;> cases hb : aSideBlocked s.plat a <;> simp [lastDriven]

/-! ### One pass of the loop -/

theorem transferByte_ch (pat : List Byte) (d : Dir) (z f : Bool) (c : Channel) (i : Nat) (s : State) (x : Channel) :
    (transferByte pat d z f c i s).ch x =
      if x = c then { s.ch c with a1t := stepOffset f z (s.ch c).a1t, das := (s.ch c).das - 1 } else s.ch x := by
  simp [transferByte, ch_updCh]

@[simp] theorem transferByte_mdmaen (pat : List Byte) (d : Dir) (z f : Bool) (c : Channel) (i : Nat) (s : State) :
    (transferByte pat d z f c i s).mdmaen = s.mdmaen := by simp [transferByte]

@[simp] theorem transferByte_hdmaen (pat : List Byte) (d : Dir) (z f : Bool) (c : Channel) (i : Nat) (s : State) :
    (transferByte pat d z f c i s).hdmaen = s.hdmaen := by simp [transferByte]

theorem transferByte_moves (pat : List Byte) (d : Dir) (z f : Bool) (c : Channel) (i : Nat) (s : State) :
    ∃ l, EngineRun s (transferByte pat d z f c i s) l ∧ charged l = s.plat.unitCost ∧
      accessesOf l = byteAccesses s.plat d (dmaAddr (s.ch c)) (portOf (s.ch c).bbad pat i) ∧
      (aSideBlocked s.plat (dmaAddr (s.ch c)) = false → (readsOf l).map Prod.snd = (writesOf l).map Prod.snd) ∧
      (∀ m, (transferByte pat d z f c i s).mdr = lastDriven m l) := by
  obtain ⟨l, h, rest⟩ := xferByte_moves d (dmaAddr (s.ch c)) (portOf (s.ch c).bbad pat i) s
  refine ⟨l, ?_, rest⟩
  unfold transferByte
  exact h.trans (engineRun_updCh _ c _)

/-! ### The count -/

theorem byteCount_pos (x : Offset) : 0 < byteCount x := by
  unfold byteCount
  split <;> first | decide | bv_omega

theorem byteCount_le (x : Offset) : byteCount x ≤ 2 ^ 16 := by
  unfold byteCount
  split <;> first | decide | bv_omega

/-- The last byte: the decremented count is zero. -/
theorem byteCount_last (x : Offset) (h : x - 1 = 0) : byteCount x = 1 := by
  have : x = 1 := by bv_omega
  subst this
  decide

/-- Not the last byte: one fewer is left. -/
theorem byteCount_step (x : Offset) (h : x - 1 ≠ 0) : byteCount x = byteCount (x - 1) + 1 := by
  unfold byteCount
  by_cases hx : x = 0
  · subst hx; decide
  · rw [if_neg hx, if_neg h]; bv_omega

/-! ### The loop -/

theorem offsetAfter_zero (f z : Bool) (x : Offset) : offsetAfter f z x 0 = x := by
  cases f <;> cases z <;> simp [offsetAfter]

theorem offsetAfter_step (f z : Bool) (x : Offset) (n : Nat) :
    offsetAfter f z (stepOffset f z x) n = offsetAfter f z x (n + 1) := by
  cases f <;> cases z <;> simp [offsetAfter, stepOffset, BitVec.ofNat_add]
  · rw [BitVec.add_assoc, BitVec.add_comm 1#16]
  · generalize BitVec.ofNat 16 n = y
    bv_omega

/-- The accesses of the loop from pattern position `i` on. -/
def loopAccesses (p : Platform) (pat : List Byte) (d : Dir) (f z : Bool) (r : ChannelRegs) (i : Nat) : List Access :=
  (List.range (byteCount r.das)).flatMap fun k => byteAccesses p d (byteAddr f z r k) (portOf r.bbad pat (i + k))

/-- The loop of R151 in closed form: with enough fuel it moves exactly `byteCount` bytes. -/
theorem transferLoop_spec (pat : List Byte) (d : Dir) (z f : Bool) (c : Channel) (fuel i : Nat) (s : State)
    (hf : byteCount (s.ch c).das ≤ fuel) :
    ∃ l, EngineRun s (transferLoop pat d z f c fuel i s) l ∧
      charged l = byteCount (s.ch c).das * s.plat.unitCost ∧
      accessesOf l = loopAccesses s.plat pat d f z (s.ch c) i ∧
      ((∀ k < byteCount (s.ch c).das, aSideBlocked s.plat (byteAddr f z (s.ch c) k) = false) →
        (readsOf l).map Prod.snd = (writesOf l).map Prod.snd) ∧
      (∀ m, (transferLoop pat d z f c fuel i s).mdr = lastDriven m l) ∧
      (∀ x, (transferLoop pat d z f c fuel i s).ch x = if x = c then dmaAfter f z (s.ch c) else s.ch x) ∧
      (transferLoop pat d z f c fuel i s).mdmaen = s.mdmaen ∧
      (transferLoop pat d z f c fuel i s).hdmaen = s.hdmaen := by
  induction fuel generalizing i s with
  | zero => exact absurd hf (by have := byteCount_pos (s.ch c).das; omega)
  | succ fuel ih =>
    obtain ⟨l, hl, hcost, ha, hv, hd⟩ := transferByte_moves pat d z f c i s
    have hch := transferByte_ch pat d z f c i s
    have hc : (transferByte pat d z f c i s).ch c =
        { s.ch c with a1t := stepOffset f z (s.ch c).a1t, das := (s.ch c).das - 1 } := by rw [hch, if_pos rfl]
    have h0 : byteAddr f z (s.ch c) 0 = dmaAddr (s.ch c) := by simp [byteAddr, dmaAddr, offsetAfter_zero]
    simp only [transferLoop]
    by_cases hz : (s.ch c).das - 1 = 0
    · have hN := byteCount_last _ hz
      rw [if_pos (by rw [hc]; exact hz), hN]
      refine ⟨l, hl, by rw [hcost]; omega, ?_, ?_, hd, fun x => ?_, by simp, by simp⟩
      · rw [ha]; simp [loopAccesses, hN, h0]
      · intro hb; exact hv (h0 ▸ hb 0 (by omega))
      · rw [hch, dmaAfter, hN, ← offsetAfter_step, offsetAfter_zero, hz]
    · have hN := byteCount_step _ hz
      rw [if_neg (by rw [hc]; exact hz)]
      obtain ⟨m, hm, mcost, ma, mv, md, mch, m1, m2⟩ :=
        ih (i + 1) (transferByte pat d z f c i s) (by rw [hc]; simp only; omega)
      rw [hl.plat, hc] at mcost ma mv
      rw [hc] at mch
      simp only at mcost mv mch
      have hsucc : ∀ k, byteAddr f z { s.ch c with a1t := stepOffset f z (s.ch c).a1t, das := (s.ch c).das - 1 } k =
          byteAddr f z (s.ch c) (k + 1) := fun k => by simp [byteAddr, offsetAfter_step]
      refine ⟨m ++ l, hl.trans hm, ?_, ?_, ?_, ?_, ?_, by rw [m1]; simp, by rw [m2]; simp⟩
      · rw [charged_append, mcost, hcost, hN]; ring
      · rw [accessesOf_append, ha, ma]
        simp only [loopAccesses, hsucc, hN, List.range_succ_eq_map, List.flatMap_cons, List.flatMap_map, h0]
        simp [Nat.add_assoc, Nat.add_comm 1]
      · intro hb
        rw [readsOf_append, writesOf_append, List.map_append, List.map_append, hv (h0 ▸ hb 0 (by omega)),
          mv fun k hk => by rw [hsucc]; exact hb (k + 1) (by omega)]
      · intro b
        rw [lastDriven_append]
        exact md _
      · intro x
        rw [mch, hch]
        by_cases hx : x = c
        · simp [hx, dmaAfter, hN, offsetAfter_step]
        · simp [hx]

/-- `RunChannel(c)` (R151) in closed form. -/
theorem runChannel_spec (pat : List Byte) (d : Dir) (z f : Bool) (c : Channel) (s : State) :
    ∃ l, EngineRun s (runChannel pat d z f c s) l ∧
      charged l = dmaCost s.plat (s.ch c) ∧
      accessesOf l = dmaAccesses s.plat pat d f z (s.ch c) ∧
      ((∀ k < byteCount (s.ch c).das, aSideBlocked s.plat (byteAddr f z (s.ch c) k) = false) →
        (readsOf l).map Prod.snd = (writesOf l).map Prod.snd) ∧
      (∀ m, (runChannel pat d z f c s).mdr = lastDriven m l) ∧
      (∀ x, (runChannel pat d z f c s).ch x = if x = c then dmaAfter f z (s.ch c) else s.ch x) ∧
      (runChannel pat d z f c s).mdmaen = s.mdmaen ∧ (runChannel pat d z f c s).hdmaen = s.hdmaen := by
  obtain ⟨l, hl, hcost, ha, hv, hd, hch, h1, h2⟩ :=
    transferLoop_spec pat d z f c (2 ^ 16) 0 (charge s.plat.setupCost s) (byteCount_le _)
  simp only [ch_charge, charge_plat] at hcost ha hv hch
  refine ⟨l ++ [.charge s.plat.setupCost], ?_, ?_, ?_, ?_, ?_, hch, h1, h2⟩
  · unfold runChannel
    exact (engineRun_charge _ _).trans hl
  · rw [charged_append, hcost]; simp [charged, dmaCost]; omega
  · rw [accessesOf_append, ha]; simp [accessesOf, loopAccesses, dmaAccesses]
  · intro hb
    have := hv hb
    rw [readsOf_append, writesOf_append, List.map_append, List.map_append, this]
    simp [readsOf, writesOf]
  · intro b
    rw [lastDriven_append]
    exact hd _

/-! ### `RunDMA` -/

theorem maskBit_clear (m : Byte) (c x : Channel) : maskBit (clearMaskBit m c) x = (maskBit m x && decide (x ≠ c)) := by
  revert m c x
  decide +kernel

/-- What a channel's own control byte makes of it (R150, R151). -/
def ownAfter (r : ChannelRegs) : ChannelRegs := dmaAfter (ctrlFix r.dmap) (ctrlDec r.dmap) r

/-- The accesses of a channel under its own control byte. -/
def ownAccesses (p : Platform) (r : ChannelRegs) : List Access :=
  dmaAccesses p (pattern (ctrlPat r.dmap)) (ctrlDir r.dmap) (ctrlFix r.dmap) (ctrlDec r.dmap) r

/-- What the turn of channel `c` does: nothing if its bit is clear; else `RunChannel` under `DMAP[c]`, then the bit
clears (R150). -/
theorem serveDma_spec (s : State) (c : Channel) :
    ∃ l, EngineRun s (serveDma s c) l ∧
      charged l = (if maskBit s.mdmaen c then dmaCost s.plat (s.ch c) else 0) ∧
      accessesOf l = (if maskBit s.mdmaen c then ownAccesses s.plat (s.ch c) else []) ∧
      (maskBit s.mdmaen c = true → ∀ m, (serveDma s c).mdr = lastDriven m l) ∧
      (∀ x, (serveDma s c).ch x = if x = c ∧ maskBit s.mdmaen c then ownAfter (s.ch c) else s.ch x) ∧
      (∀ x, maskBit (serveDma s c).mdmaen x = (maskBit s.mdmaen x && decide (x ≠ c))) ∧
      (serveDma s c).hdmaen = s.hdmaen := by
  unfold serveDma
  cases hm : maskBit s.mdmaen c with
  | false =>
    refine ⟨[], engineRun_refl s, by simp [charged], by simp [accessesOf], by simp, by simp, fun x => ?_, rfl⟩
    by_cases hx : x = c
    · simp [hx, hm]
    · simp [hx]
  | true =>
    obtain ⟨l, hl, hcost, ha, -, hd, hch, h1, h2⟩ := runChannel_spec (pattern (ctrlPat (s.ch c).dmap))
      (ctrlDir (s.ch c).dmap) (ctrlDec (s.ch c).dmap) (ctrlFix (s.ch c).dmap) c s
    have hx : EngineRun s { runChannelRegs c s with mdmaen := clearMaskBit (runChannelRegs c s).mdmaen c } l :=
      hl.trans (engineRun_mdmaen (runChannelRegs c s) _)
    refine ⟨l, hx, by simpa using hcost,
      by simpa [ownAccesses] using ha, fun _ => hd, fun x => ?_, fun x => ?_, h2⟩
    · have := hch x
      simp only [and_true]
      exact this
    · simp only [if_true, maskBit_clear]
      rw [show (runChannelRegs c s).mdmaen = s.mdmaen from h1]

/-- The turns of the channels `cs`, each at most once, in the order of the list. -/
theorem foldl_serveDma_spec (cs : List Channel) (hcs : cs.Nodup) (s : State) :
    ∃ l, EngineRun s (cs.foldl serveDma s) l ∧
      charged l = ((cs.filter (maskBit s.mdmaen)).map fun c => dmaCost s.plat (s.ch c)).sum ∧
      accessesOf l = (cs.filter (maskBit s.mdmaen)).flatMap (fun c => ownAccesses s.plat (s.ch c)) ∧
      ((∃ c ∈ cs, maskBit s.mdmaen c = true) → ∀ m, (cs.foldl serveDma s).mdr = lastDriven m l) ∧
      (∀ x, (cs.foldl serveDma s).ch x = if x ∈ cs ∧ maskBit s.mdmaen x then ownAfter (s.ch x) else s.ch x) ∧
      (∀ x, maskBit (cs.foldl serveDma s).mdmaen x = (maskBit s.mdmaen x && decide (x ∉ cs))) ∧
      (cs.foldl serveDma s).hdmaen = s.hdmaen := by
  induction cs generalizing s with
  | nil => exact ⟨[], engineRun_refl s, by simp [charged], by simp [accessesOf], by simp, by simp, by simp, rfl⟩
  | cons c cs ih =>
    obtain ⟨hc, hn⟩ := List.nodup_cons.mp hcs
    obtain ⟨l, hl, hcost, ha, hd, hch, hm, hh⟩ := serveDma_spec s c
    obtain ⟨m, km, kcost, ka, kd, kch, kmask, kh⟩ := ih hn (serveDma s c)
    have hne : ∀ x ∈ cs, x ≠ c := fun x hx e => hc (e ▸ hx)
    have hmask : ∀ x ∈ cs, maskBit (serveDma s c).mdmaen x = maskBit s.mdmaen x := fun x hx => by
      rw [hm]; simp [hne x hx]
    have hsame : ∀ x ∈ cs, (serveDma s c).ch x = s.ch x := fun x hx => by
      rw [hch]; simp [hne x hx]
    have hsame' : ∀ x ∈ cs.filter (maskBit s.mdmaen), (serveDma s c).ch x = s.ch x :=
      fun x hx => hsame x (List.mem_filter.mp hx).1
    refine ⟨m ++ l, hl.trans km, ?_, ?_, fun he b => ?_, fun x => ?_, fun x => ?_, kh.trans hh⟩
    · rw [charged_append, kcost, hcost, hl.plat, List.filter_congr hmask, List.map_congr_left fun x hx => by
        rw [hsame' x hx]]
      cases hb : maskBit s.mdmaen c
      · simp [hb]
      · simp [hb]; omega
    · rw [accessesOf_append, ka, ha, hl.plat, List.filter_congr hmask, List.flatMap_congr fun x hx => by
        rw [hsame' x hx]]
      cases hb : maskBit s.mdmaen c <;> simp [hb]
    · simp only [List.foldl_cons]
      rw [lastDriven_append]
      by_cases hx : ∃ x ∈ cs, maskBit (serveDma s c).mdmaen x = true
      · exact kd hx _
      · have hbc : maskBit s.mdmaen c = true := by
          obtain ⟨x, hxm, hxb⟩ := he
          rcases List.mem_cons.mp hxm with rfl | hxm
          · exact hxb
          · exact absurd ⟨x, hxm, (hmask x hxm).trans hxb⟩ hx
        rw [km.mdr, hd hbc b]
    · simp only [List.foldl_cons]
      rw [kch]
      by_cases hx : x ∈ cs
      · simp [hx, hmask x hx, hsame x hx]
      · rw [hch]
        by_cases hxc : x = c
        · subst hxc; simp [hx]
        · simp [hx, hxc]
    · simp only [List.foldl_cons]
      rw [kmask, hm]
      by_cases hxc : x = c <;> by_cases hx : x ∈ cs <;> simp [hx, hxc]

theorem channels_nodup : channels.Nodup := by decide

theorem mem_channels (x : Channel) : x ∈ channels := by
  revert x
  decide

theorem mask_zero (m : Byte) (h : ∀ x, maskBit m x = false) : m = 0 := by
  revert m
  decide +kernel

/-- `RunDMA` (R150, R164): every enabled channel has moved its bytes, in ascending order, and `MDMAEN` is zero. -/
theorem runDma_spec (s : State) :
    ∃ l, EngineRun s (runDma s) l ∧
      charged l = ((channels.filter (maskBit s.mdmaen)).map fun c => dmaCost s.plat (s.ch c)).sum ∧
      accessesOf l = (channels.filter (maskBit s.mdmaen)).flatMap (fun c => ownAccesses s.plat (s.ch c)) ∧
      (s.mdmaen ≠ 0 → ∀ m, (runDma s).mdr = lastDriven m l) ∧
      (∀ x, (runDma s).ch x = if maskBit s.mdmaen x then ownAfter (s.ch x) else s.ch x) ∧
      (runDma s).mdmaen = 0 ∧ (runDma s).hdmaen = s.hdmaen := by
  obtain ⟨l, hl, hcost, ha, hd, hch, hm, hh⟩ := foldl_serveDma_spec channels channels_nodup s
  refine ⟨l, hl, hcost, ha, fun h0 => hd ?_, fun x => ?_, mask_zero _ fun x => ?_, hh⟩
  · by_contra hx
    simp only [not_exists, not_and, Bool.not_eq_true] at hx
    exact h0 (mask_zero _ fun x => hx x (mem_channels x))
  · have := hch x
    simp only [mem_channels, true_and] at this
    exact this
  · have := hm x
    simp only [mem_channels, not_true, decide_false, Bool.and_false] at this
    exact this

end Sys2Proof.Machine
end

