-- ==== Sys2Proof/Laws/Hdma.lean ====
section
/-! SUPPORT. What the table fetch, one HDMA unit and the two HDMA steps can do. -/

namespace Sys2Proof.Machine

/-! ### Table bytes -/

theorem tableByte_run (c : Channel) (s : State) :
    EngineRun s (tableByte c s).2
      [.charge s.plat.unitCost, .read (tableAddr (s.ch c)) (tableByte c s).1] := by
  have h := ((engineRun_memRead (tableAddr (s.ch c)) s).trans
    (engineRun_updCh _ c (fun q => { q with a2a := q.a2a + 1 }))).trans (engineRun_charge s.plat.unitCost _)
  simpa [tableByte] using h

theorem tableByte_ch (c : Channel) (s : State) (x : Channel) :
    (tableByte c s).2.ch x = if x = c then { s.ch c with a2a := (s.ch c).a2a + 1 } else s.ch x := by
  simp [tableByte, ch_updCh]

@[simp] theorem tableByte_mdmaen (c : Channel) (s : State) : (tableByte c s).2.mdmaen = s.mdmaen := by simp [tableByte]
@[simp] theorem tableByte_hdmaen (c : Channel) (s : State) : (tableByte c s).2.hdmaen = s.hdmaen := by simp [tableByte]
@[simp] theorem tableByte_plat (c : Channel) (s : State) : (tableByte c s).2.plat = s.plat := (tableByte_run c s).plat

/-- What a run over one channel `c` may do besides its actions: only registers of `c` change, among them neither those
the engine never writes nor `A1T[c]`, and neither mask. -/
structure ChannelRun (c : Channel) (s t : State) (l : List Action) : Prop where
  run : EngineRun s t l
  others : ∀ x, x ≠ c → t.ch x = s.ch x
  fixed : (t.ch c).sameFixed (s.ch c) ∧ (t.ch c).a1t = (s.ch c).a1t
  mdmaen : t.mdmaen = s.mdmaen
  hdmaen : t.hdmaen = s.hdmaen

theorem channelRun_refl (c : Channel) (s : State) : ChannelRun c s s [] :=
  ⟨engineRun_refl s, fun _ _ => rfl, ⟨⟨rfl, rfl, rfl, rfl, rfl⟩, rfl⟩, rfl, rfl⟩

theorem ChannelRun.trans {c : Channel} {s t u : State} {l m : List Action} (h : ChannelRun c s t l)
    (k : ChannelRun c t u m) : ChannelRun c s u (m ++ l) where
  run := h.run.trans k.run
  others := fun x hx => (k.others x hx).trans (h.others x hx)
  fixed := by
    obtain ⟨⟨a1, a2, a3, a4, a5⟩, a6⟩ := h.fixed
    obtain ⟨⟨b1, b2, b3, b4, b5⟩, b6⟩ := k.fixed
    exact ⟨⟨b1.trans a1, b2.trans a2, b3.trans a3, b4.trans a4, b5.trans a5⟩, b6.trans a6⟩
  mdmaen := k.mdmaen.trans h.mdmaen
  hdmaen := k.hdmaen.trans h.hdmaen

theorem channelRun_updCh (c : Channel) (s : State) (f : ChannelRegs → ChannelRegs)
    (h : (f (s.ch c)).sameFixed (s.ch c) ∧ (f (s.ch c)).a1t = (s.ch c).a1t) : ChannelRun c s (s.updCh c f) [] :=
  ⟨engineRun_updCh s c f, fun x hx => ch_updCh_other s c x f hx, by simpa using h, rfl, rfl⟩

theorem tableByte_channelRun (c : Channel) (s : State) :
    ChannelRun c s (tableByte c s).2 [.charge s.plat.unitCost, .read (tableAddr (s.ch c)) (tableByte c s).1] :=
  ⟨tableByte_run c s, fun x hx => by simp [tableByte_ch, hx], by simp [tableByte_ch, ChannelRegs.sameFixed],
    by simp, by simp⟩

/-- A run that reads storage and writes nothing: what the table fetches are. -/
structure TableRun (s t : State) (l : List Action) : Prop where
  writes : writesOf l = []
  cost : charged l = (readsOf l).length * s.plat.unitCost
  mem : ∀ a : Addr, ¬ s.deviceStores a → t.bytes a = s.bytes a
  stores : ∀ a, t.deviceStores a → s.deviceStores a
  bytes : ∀ x ∈ readsOf l, isStorage s.plat x.1 = true → ¬ s.deviceStores x.1 → x.2 = s.bytes x.1

theorem tableRun_nil {s t : State} (h : t.mem = s.mem) (h' : t.deviceIn = s.deviceIn) : TableRun s t [] :=
  ⟨rfl, by simp [charged, readsOf], fun _ _ => by simp [State.bytes, h], fun a => by simp [State.deviceStores, h'],
    by simp [readsOf]⟩

theorem tableRun_updCh (c : Channel) (s : State) (f : ChannelRegs → ChannelRegs) : TableRun s (s.updCh c f) [] :=
  tableRun_nil rfl rfl

theorem TableRun.trans {s t u : State} {l m : List Action} (h : TableRun s t l) (k : TableRun t u m)
    (hp : t.plat = s.plat) : TableRun s u (m ++ l) where
  writes := by rw [writesOf_append, h.writes, k.writes]; rfl
  cost := by rw [charged_append, readsOf_append, h.cost, k.cost, hp, List.length_append]; ring
  mem := fun a ha => (k.mem a fun e => ha (h.stores a e)).trans (h.mem a ha)
  stores := fun a e => h.stores a (k.stores a e)
  bytes := fun x hx hs hd => by
    rw [readsOf_append, List.mem_append] at hx
    rcases hx with hx | hx
    · exact h.bytes x hx hs hd
    · rw [k.bytes x hx (hp ▸ hs) fun e => hd (h.stores _ e), h.mem _ hd]

theorem tableByte_tableRun (c : Channel) (s : State) :
    TableRun s (tableByte c s).2 [.charge s.plat.unitCost, .read (tableAddr (s.ch c)) (tableByte c s).1] :=
  ⟨rfl, by simp [charged, readsOf], (memRead_keeps _ s).other, (memRead_keeps _ s).stores, fun x hx hs _ => by
    obtain rfl := List.mem_singleton.mp (show x ∈ [(tableAddr (s.ch c), (tableByte c s).1)] from hx)
    exact memRead_storage _ _ hs⟩

/-- The pointer fetch of an indirect entry (R183): two table bytes, low first, into `DAS[c]`. -/
theorem loadPointer_spec (c : Channel) (s : State) :
    ∃ lo hi l, ChannelRun c s (loadPointer c s) l ∧ TableRun s (loadPointer c s) l ∧
      readsOf l = [(busAddr (s.ch c).a1b (s.ch c).a2a, lo), (busAddr (s.ch c).a1b ((s.ch c).a2a + 1), hi)] ∧
      (loadPointer c s).ch c = { s.ch c with a2a := (s.ch c).a2a + 2, das := joinBytes hi lo } := by
  refine ⟨(tableByte c s).1, (tableByte c (tableByte c s).2).1, _,
    ((tableByte_channelRun c s).trans (tableByte_channelRun c (tableByte c s).2)).trans
      (channelRun_updCh c (tableByte c (tableByte c s).2).2
        (fun q => { q with das := joinBytes (tableByte c (tableByte c s).2).1 (tableByte c s).1 })
        ⟨⟨rfl, rfl, rfl, rfl, rfl⟩, rfl⟩),
    ((tableByte_tableRun c s).trans (tableByte_tableRun c (tableByte c s).2) (by simp)).trans (tableRun_nil rfl rfl)
      (by simp), ?_, ?_⟩
  · simp [readsOf, tableByte_ch, tableAddr]
  · simp [loadPointer, tableByte_ch, BitVec.add_assoc]

theorem takeTerminator_spec (c : Channel) (s : State) :
    ChannelRun c s (takeTerminator c s) [] ∧ (takeTerminator c s).ch c = loadTerminator (s.ch c) :=
  ⟨channelRun_updCh c s _ ⟨⟨rfl, rfl, rfl, rfl, rfl⟩, rfl⟩, by simp [takeTerminator]⟩

/-- What follows any other header than the terminator (R183). -/
theorem takeLines_spec (c : Channel) (h : Byte) (s : State) :
    ∃ lo hi l, ChannelRun c s (takeLines c h s) l ∧ TableRun s (takeLines c h s) l ∧
      readsOf l = (if ctrlInd (s.ch c).dmap then
        [(busAddr (s.ch c).a1b (s.ch c).a2a, lo), (busAddr (s.ch c).a1b ((s.ch c).a2a + 1), hi)] else []) ∧
      (takeLines c h s).ch c = (if ctrlInd (s.ch c).dmap then
          { s.ch c with nltr := h, doTransfer := true, a2a := (s.ch c).a2a + 2, das := joinBytes hi lo }
        else { s.ch c with nltr := h, doTransfer := true }) := by
  have h0 : ChannelRun c s (s.updCh c (loadLines h)) [] :=
    channelRun_updCh c s _ ⟨⟨rfl, rfl, rfl, rfl, rfl⟩, rfl⟩
  have hd : ((s.updCh c (loadLines h)).ch c).dmap = (s.ch c).dmap := by simp [loadLines]
  unfold takeLines
  simp only [hd]
  cases hi : ctrlInd (s.ch c).dmap with
  | false => exact ⟨0, 0, [], h0, tableRun_nil rfl rfl, rfl, by simp [loadLines]⟩
  | true =>
    obtain ⟨lo, hi, l, hr, ht, hreads, hch⟩ := loadPointer_spec c (s.updCh c (loadLines h))
    simp only [if_true]
    refine ⟨lo, hi, l ++ [], h0.trans hr, (tableRun_updCh c s _).trans ht rfl, ?_, ?_⟩
    · simpa [loadLines] using hreads
    · rw [hch]; simp [loadLines]

/-- `LoadEntry(c)` (R183, R184) in closed form. -/
theorem loadEntry_spec (c : Channel) (s : State) :
    ∃ h lo hi l, ChannelRun c s (loadEntry c s) l ∧ TableRun s (loadEntry c s) l ∧
      readsOf l = entryReads (s.ch c) h lo hi ∧ (loadEntry c s).ch c = entryAfter (s.ch c) h lo hi := by
  have h0 := tableByte_channelRun c s
  have t0 := tableByte_tableRun c s
  unfold loadEntry
  simp only
  split
  · next hz =>
    obtain ⟨h1, h2⟩ := takeTerminator_spec c (tableByte c s).2
    refine ⟨(tableByte c s).1, 0, 0, _, h0.trans h1, t0.trans (tableRun_nil rfl rfl) (by simp), ?_, ?_⟩
    · simp [readsOf, entryReads, hz, tableAddr]
    · rw [h2]; simp [loadTerminator, tableByte_ch, entryAfter, hz]
  · next hz =>
    obtain ⟨lo, hi, l, h1, t1, hr, hch⟩ := takeLines_spec c (tableByte c s).1 (tableByte c s).2
    refine ⟨(tableByte c s).1, lo, hi, _, h0.trans h1, t0.trans t1 (by simp), ?_, ?_⟩
    · rw [readsOf_append, hr]
      cases hn : ctrlInd (s.ch c).dmap <;>
        simp [readsOf, entryReads, tableByte_ch, tableAddr, hn, BitVec.add_assoc]
      exact hz
    · rw [hch]
      unfold entryAfter
      rw [if_neg hz]
      cases hn : ctrlInd (s.ch c).dmap <;> simp [tableByte_ch, hn, BitVec.add_assoc]

/-! ### One unit -/

theorem hdmaByte_spec (d : Dir) (ind : Bool) (c : Channel) (s : State) (off : Byte) :
    ∃ l, ChannelRun c s (hdmaByte d ind c s off) l ∧ charged l = s.plat.unitCost ∧
      accessesOf l = byteAccesses s.plat d (dataAddr ind (s.ch c)) ((s.ch c).bbad + off) ∧
      (aSideBlocked s.plat (dataAddr ind (s.ch c)) = false → (readsOf l).map Prod.snd = (writesOf l).map Prod.snd) ∧
      (hdmaByte d ind c s off).ch c = stepData ind (s.ch c) := by
  have hs : (stepData ind (s.ch c)).sameFixed (s.ch c) ∧ (stepData ind (s.ch c)).a1t = (s.ch c).a1t := by
    unfold stepData; split <;> exact ⟨⟨rfl, rfl, rfl, rfl, rfl⟩, rfl⟩
  have hb : (stepData ind (s.ch c)).bbad = (s.ch c).bbad := hs.1.2.1
  obtain ⟨l, hl, hcost, ha, hv, -⟩ := xferByte_moves d (dataAddr ind (s.ch c)) ((s.ch c).bbad + off)
    (s.updCh c (stepData ind))
  have h0 := channelRun_updCh c s _ hs
  have hx := xferByte_regs d (dataAddr ind (s.ch c)) ((s.ch c).bbad + off) (s.updCh c (stepData ind))
  have hr1 : ChannelRun c (s.updCh c (stepData ind)) (hdmaByte d ind c s off) l := by
    unfold hdmaByte
    simp only [ch_updCh_same, hb]
    exact ⟨hl, fun x _ => ch_congr hx.1 x, by rw [ch_congr hx.1]; exact ⟨⟨rfl, rfl, rfl, rfl, rfl⟩, rfl⟩,
      hx.2.1, hx.2.2⟩
  refine ⟨l ++ [], h0.trans hr1, by simpa using hcost, by simpa using ha, by simpa using hv, ?_⟩
  simp [hdmaByte]

theorem stepData_iterate (ind : Bool) (n : Nat) (r : ChannelRegs) : (stepData ind)^[n] r = unitAfter ind n r := by
  induction n generalizing r with
  | zero => cases ind <;> simp [unitAfter]
  | succ n ih =>
    rw [Function.iterate_succ_apply, ih]
    cases ind <;> simp [unitAfter, stepData, BitVec.ofNat_add, BitVec.add_assoc, BitVec.add_comm 1#16]

theorem foldl_hdmaByte_spec (d : Dir) (ind : Bool) (c : Channel) (offs : List Byte) (s : State) :
    ∃ l, ChannelRun c s (offs.foldl (hdmaByte d ind c) s) l ∧ charged l = offs.length * s.plat.unitCost ∧
      accessesOf l = (List.range offs.length).flatMap (fun k =>
        byteAccesses s.plat d (dataAddr ind ((stepData ind)^[k] (s.ch c))) ((s.ch c).bbad + offs.getD k 0)) ∧
      ((∀ k < offs.length, aSideBlocked s.plat (dataAddr ind ((stepData ind)^[k] (s.ch c))) = false) →
        (readsOf l).map Prod.snd = (writesOf l).map Prod.snd) ∧
      (offs.foldl (hdmaByte d ind c) s).ch c = (stepData ind)^[offs.length] (s.ch c) := by
  induction offs generalizing s with
  | nil => exact ⟨[], channelRun_refl c s, by simp [charged], rfl, fun _ => rfl, rfl⟩
  | cons off offs ih =>
    obtain ⟨l, hl, hcost, ha, hv, hch⟩ := hdmaByte_spec d ind c s off
    obtain ⟨m, hm, mcost, ma, mv, mch⟩ := ih (hdmaByte d ind c s off)
    have hb : (stepData ind (s.ch c)).bbad = (s.ch c).bbad := by unfold stepData; split <;> rfl
    rw [hl.run.plat] at mcost ma mv
    rw [hch] at ma mv mch
    refine ⟨m ++ l, hl.trans hm, ?_, ?_, fun hb' => ?_, ?_⟩
    · rw [charged_append, mcost, hcost, List.length_cons]; ring
    · rw [accessesOf_append, ha, ma, List.length_cons, List.range_succ_eq_map]
      simp [List.flatMap_map, hb, Function.iterate_succ]
    · rw [readsOf_append, writesOf_append, List.map_append, List.map_append, hv (hb' 0 (by simp)),
        mv fun k hk => by
          have := hb' (k + 1) (by simp; omega)
          rwa [Function.iterate_succ_apply] at this]
    · simp only [List.foldl_cons, mch, List.length_cons, Function.iterate_succ_apply]

/-- One whole unit of pattern `p` on channel `c` (R190). -/
theorem hdmaUnit_spec (d : Dir) (ind : Bool) (p : BitVec 3) (c : Channel) (s : State) :
    ∃ l, ChannelRun c s (hdmaUnit d ind p c s) l ∧ charged l = unitSize p * s.plat.unitCost ∧
      accessesOf l = unitAccesses s.plat d ind p (s.ch c) ∧
      ((∀ k < unitSize p, aSideBlocked s.plat (dataAddr ind (unitAfter ind k (s.ch c))) = false) →
        (readsOf l).map Prod.snd = (writesOf l).map Prod.snd) ∧
      (hdmaUnit d ind p c s).ch c = unitAfter ind (unitSize p) (s.ch c) := by
  have h := foldl_hdmaByte_spec d ind c (pattern p) s
  simp only [stepData_iterate] at h
  exact h

/-! ### The turns of a channel in the engine steps -/

/-- The channel takes part in pass 1 with these registers under this `HDMAEN` (R185). -/
def transfers (m : Byte) (c : Channel) (r : ChannelRegs) : Bool := maskBit m c && !r.done && r.doTransfer

/-- The bytes the channel moves in pass 1. -/
def passBytes (m : Byte) (c : Channel) (r : ChannelRegs) : Nat :=
  if transfers m c r then unitSize (ctrlPat r.dmap) else 0

/-- No data byte the channel moves in pass 1 has a blocked address on the A side. -/
def passUnblocked (p : Platform) (m : Byte) (c : Channel) (r : ChannelRegs) : Prop :=
  transfers m c r = true → ∀ k < unitSize (ctrlPat r.dmap),
    aSideBlocked p (dataAddr (ctrlInd r.dmap) (unitAfter (ctrlInd r.dmap) k r)) = false

/-- The accesses of the channel in pass 1. -/
def passAccesses (p : Platform) (m : Byte) (c : Channel) (r : ChannelRegs) : List Access :=
  if transfers m c r then unitAccesses p (ctrlDir r.dmap) (ctrlInd r.dmap) (ctrlPat r.dmap) r else []

theorem hdmaTransfer_spec (s : State) (c : Channel) :
    ∃ l, ChannelRun c s (hdmaTransfer s c) l ∧ charged l = passBytes s.hdmaen c (s.ch c) * s.plat.unitCost ∧
      accessesOf l = passAccesses s.plat s.hdmaen c (s.ch c) ∧
      (passUnblocked s.plat s.hdmaen c (s.ch c) → (readsOf l).map Prod.snd = (writesOf l).map Prod.snd) ∧
      (hdmaTransfer s c).ch c = (if active c s then transferAfter (s.ch c) else s.ch c) := by
  unfold hdmaTransfer passBytes passAccesses transferAfter
  by_cases h : active c s && (s.ch c).doTransfer
  · have ht : transfers s.hdmaen c (s.ch c) = true := h
    simp only [Bool.and_eq_true] at h
    simp only [h, ht, Bool.and_self, if_true]
    obtain ⟨l, hl, hcost, ha, hv, hch⟩ := hdmaUnit_spec (ctrlDir (s.ch c).dmap) (ctrlInd (s.ch c).dmap)
      (ctrlPat (s.ch c).dmap) c s
    exact ⟨l, hl, hcost, ha, fun hu => hv (hu ht), hch⟩
  · have ht : transfers s.hdmaen c (s.ch c) = false := by simpa [transfers, active] using h
    rw [if_neg h, ht]
    refine ⟨[], channelRun_refl c s, by simp [charged], rfl, fun _ => rfl, ?_⟩
    simp only [Bool.and_eq_true, not_and, Bool.not_eq_true] at h
    split
    · next ha => rw [h ha]; rfl
    · rfl

/-- The table bytes channel `c` reads in pass 2 with these registers (R185). -/
def countReads (m : Byte) (c : Channel) (r : ChannelRegs) (e : Byte × Byte × Byte) : List (Addr × Byte) :=
  if maskBit m c && !r.done && reloads r then entryReads (countLine r) e.1 e.2.1 e.2.2 else []

/-- The channel after pass 2. -/
def countAfter (m : Byte) (c : Channel) (r : ChannelRegs) (e : Byte × Byte × Byte) : ChannelRegs :=
  if maskBit m c && !r.done then
    if reloads r then entryAfter (countLine r) e.1 e.2.1 e.2.2 else countLine r
  else r

theorem hdmaCount_spec (s : State) (c : Channel) :
    ∃ e l, ChannelRun c s (hdmaCount s c) l ∧ TableRun s (hdmaCount s c) l ∧
      readsOf l = countReads s.hdmaen c (s.ch c) e ∧ (hdmaCount s c).ch c = countAfter s.hdmaen c (s.ch c) e := by
  unfold hdmaCount countReads countAfter
  by_cases ha : active c s = true
  · have ha' : (maskBit s.hdmaen c && !(s.ch c).done) = true := ha
    have h0 : ChannelRun c s (s.updCh c countLine) [] := channelRun_updCh c s _ ⟨⟨rfl, rfl, rfl, rfl, rfl⟩, rfl⟩
    have hn : ((s.updCh c countLine).ch c).nltr = (s.ch c).nltr - 1 := by simp [countLine]
    simp only [ha, ha', hn, if_true, Bool.true_and]
    by_cases hz : lineCount ((s.ch c).nltr - 1) = 0
    · have hr : reloads (s.ch c) = true := decide_eq_true hz
      obtain ⟨h, lo, hi, l, hl, ht, hreads, hch⟩ := loadEntry_spec c (s.updCh c countLine)
      rw [if_pos hz, hr]
      refine ⟨(h, lo, hi), l ++ [], h0.trans hl, (tableRun_updCh c s _).trans ht rfl, ?_, ?_⟩
      · simpa using hreads
      · simpa using hch
    · have hr : reloads (s.ch c) = false := decide_eq_false hz
      rw [if_neg hz, hr]
      exact ⟨(0, 0, 0), [], h0, tableRun_nil rfl rfl, rfl, by simp⟩
  · have ha' : (maskBit s.hdmaen c && !(s.ch c).done) = false := by simpa [active] using ha
    rw [if_neg ha, ha']
    exact ⟨(0, 0, 0), [], channelRun_refl c s, tableRun_nil rfl rfl, rfl, rfl⟩

/-- The channel's registers when its first entry of the frame is loaded (R182). -/
def restarted (r : ChannelRegs) : ChannelRegs := { r with a2a := r.a1t }

/-- The table bytes channel `c` reads at the frame start. -/
def startReads (m : Byte) (c : Channel) (r : ChannelRegs) (e : Byte × Byte × Byte) : List (Addr × Byte) :=
  if maskBit m c then entryReads (restarted r) e.1 e.2.1 e.2.2 else []

/-- The channel after its turn at the frame start. -/
def startAfter (m : Byte) (c : Channel) (r : ChannelRegs) (e : Byte × Byte × Byte) : ChannelRegs :=
  if maskBit m c then entryAfter (restarted r) e.1 e.2.1 e.2.2 else r

theorem hdmaStart_spec (s : State) (c : Channel) :
    ∃ e l, ChannelRun c s (hdmaStart s c) l ∧ TableRun s (hdmaStart s c) l ∧
      readsOf l = startReads s.hdmaen c (s.ch c) e ∧ (hdmaStart s c).ch c = startAfter s.hdmaen c (s.ch c) e := by
  unfold hdmaStart startReads startAfter
  split
  · have h0 : ChannelRun c s (s.updCh c restarted) [] := channelRun_updCh c s _ ⟨⟨rfl, rfl, rfl, rfl, rfl⟩, rfl⟩
    obtain ⟨h, lo, hi, l, hl, ht, hreads, hch⟩ := loadEntry_spec c (s.updCh c restarted)
    refine ⟨(h, lo, hi), l ++ [], h0.trans hl, (tableRun_updCh c s _).trans ht rfl, ?_, ?_⟩
    · simpa using hreads
    · simp only [ch_updCh_same] at hch
      exact hch
  · exact ⟨(0, 0, 0), [], channelRun_refl c s, tableRun_nil rfl rfl, rfl, rfl⟩

/-! ### Folding a turn over the channels -/

/-- A pass over the channels `cs`, where each turn is a `ChannelRun`: a run that leaves both masks, the channels
outside `cs`, and the registers the engine never writes. -/
theorem foldl_turns (g : State → Channel → State) (hg : ∀ s c, ∃ l, ChannelRun c s (g s c) l)
    (cs : List Channel) (s : State) :
    ∃ l, EngineRun s (cs.foldl g s) l ∧ (∀ x, x ∉ cs → (cs.foldl g s).ch x = s.ch x) ∧
      (∀ x, ((cs.foldl g s).ch x).sameFixed (s.ch x) ∧ ((cs.foldl g s).ch x).a1t = (s.ch x).a1t) ∧
      (cs.foldl g s).mdmaen = s.mdmaen ∧ (cs.foldl g s).hdmaen = s.hdmaen := by
  induction cs generalizing s with
  | nil => exact ⟨[], engineRun_refl s, fun _ _ => rfl, fun _ => ⟨⟨rfl, rfl, rfl, rfl, rfl⟩, rfl⟩, rfl, rfl⟩
  | cons c cs ih =>
    obtain ⟨l, hl⟩ := hg s c
    obtain ⟨m, hm, h1, h2, h3, h4⟩ := ih (g s c)
    refine ⟨m ++ l, hl.run.trans hm, fun x hx => ?_, fun x => ?_, h3.trans hl.mdmaen, h4.trans hl.hdmaen⟩
    · simp only [List.mem_cons, not_or] at hx
      simp only [List.foldl_cons]
      rw [h1 x hx.2, hl.others x hx.1]
    · obtain ⟨⟨b1, b2, b3, b4, b5⟩, b6⟩ := h2 x
      have : (g s c).ch x = s.ch x ∨ x = c := by
        by_cases hx : x = c
        · exact .inr hx
        · exact .inl (hl.others x hx)
      rcases this with e | rfl
      · rw [e] at b1 b2 b3 b4 b5 b6
        exact ⟨⟨b1, b2, b3, b4, b5⟩, b6⟩
      · obtain ⟨⟨a1, a2, a3, a4, a5⟩, a6⟩ := hl.fixed
        exact ⟨⟨b1.trans a1, b2.trans a2, b3.trans a3, b4.trans a4, b5.trans a5⟩, b6.trans a6⟩

/-- The list of channels around one channel. -/
theorem channels_split (x : Channel) : ∃ as bs, channels = as ++ x :: bs ∧ x ∉ as ∧ x ∉ bs := by
  obtain ⟨as, bs, h⟩ := List.append_of_mem (mem_channels x)
  have hn := channels_nodup
  rw [h, List.nodup_append] at hn
  exact ⟨as, bs, h, fun hx => hn.2.2 x hx x (by simp) rfl, (List.nodup_cons.mp hn.2.1).1⟩

/-- What a pass does to channel `x` is what `x`'s own turn does to it, in a state whose channel `x` and masks are
those of the start. -/
theorem foldl_turn_of (g : State → Channel → State) (hg : ∀ s c, ∃ l, ChannelRun c s (g s c) l)
    (s : State) (x : Channel) :
    ∃ t, t.ch x = s.ch x ∧ t.hdmaen = s.hdmaen ∧ t.mdmaen = s.mdmaen ∧ t.plat = s.plat ∧
      (channels.foldl g s).ch x = (g t x).ch x := by
  obtain ⟨as, bs, hsplit, ha, hb⟩ := channels_split x
  obtain ⟨l, hl, h1, -, h3, h4⟩ := foldl_turns g hg as s
  obtain ⟨m, -, k1, -⟩ := foldl_turns g hg bs (g (as.foldl g s) x)
  refine ⟨as.foldl g s, h1 x ha, h4, h3, hl.plat, ?_⟩
  rw [hsplit, List.foldl_append, List.foldl_cons, k1 x hb]

theorem hdmaTransfer_turn (s : State) (c : Channel) : ∃ l, ChannelRun c s (hdmaTransfer s c) l :=
  let ⟨l, h, _⟩ := hdmaTransfer_spec s c
  ⟨l, h⟩

/-- Pass 1 over the channels `cs` in closed form. -/
theorem foldl_hdmaTransfer_spec (cs : List Channel) (hcs : cs.Nodup) (s : State) :
    ∃ l, EngineRun s (cs.foldl hdmaTransfer s) l ∧
      charged l = (cs.map fun c => passBytes s.hdmaen c (s.ch c)).sum * s.plat.unitCost ∧
      accessesOf l = cs.flatMap (fun c => passAccesses s.plat s.hdmaen c (s.ch c)) ∧
      ((∀ c ∈ cs, passUnblocked s.plat s.hdmaen c (s.ch c)) → (readsOf l).map Prod.snd = (writesOf l).map Prod.snd) ∧
      (∀ x, (cs.foldl hdmaTransfer s).ch x =
        if x ∈ cs ∧ active x s then transferAfter (s.ch x) else s.ch x) ∧
      (cs.foldl hdmaTransfer s).mdmaen = s.mdmaen ∧ (cs.foldl hdmaTransfer s).hdmaen = s.hdmaen := by
  induction cs generalizing s with
  | nil => exact ⟨[], engineRun_refl s, by simp [charged], rfl, fun _ => rfl, by simp, rfl, rfl⟩
  | cons c cs ih =>
    obtain ⟨hc, hn⟩ := List.nodup_cons.mp hcs
    obtain ⟨l, hl, hcost, ha, hv, hch⟩ := hdmaTransfer_spec s c
    obtain ⟨m, hm, mcost, ma, mv, mch, m1, m2⟩ := ih hn (hdmaTransfer s c)
    have hsame : ∀ x, x ≠ c → (hdmaTransfer s c).ch x = s.ch x := hl.others
    have hin : ∀ x ∈ cs, (hdmaTransfer s c).ch x = s.ch x := fun x hx => hsame x fun e => hc (e ▸ hx)
    refine ⟨m ++ l, hl.run.trans hm, ?_, ?_, fun hu => ?_, fun x => ?_, m1.trans hl.mdmaen, m2.trans hl.hdmaen⟩
    · rw [charged_append, mcost, hcost, hl.hdmaen, hl.run.plat, List.map_congr_left fun x hx => by rw [hin x hx],
        List.map_cons, List.sum_cons]
      ring
    · rw [accessesOf_append, ha, ma, hl.hdmaen, hl.run.plat, List.flatMap_congr fun x hx => by rw [hin x hx],
        List.flatMap_cons]
    · rw [readsOf_append, writesOf_append, List.map_append, List.map_append, hv (hu c (by simp)),
        mv fun x hx => by rw [hin x hx, hl.hdmaen, hl.run.plat]; exact hu x (by simp [hx])]
    · simp only [List.foldl_cons, mch, active, hl.hdmaen]
      by_cases hx : x = c
      · subst hx; simp [hc, hch, active]
      · simp [hsame x hx, hx]

/-- A pass of turns that only read tables, in closed form: each turn's reads and registers are functions of `HDMAEN`,
the channel's own registers, and up to three bytes the Bus gives it. -/
theorem foldl_table_turns (g : State → Channel → State)
    (R : Byte → Channel → ChannelRegs → Byte × Byte × Byte → List (Addr × Byte))
    (A : Byte → Channel → ChannelRegs → Byte × Byte × Byte → ChannelRegs)
    (hg : ∀ s c, ∃ e l, ChannelRun c s (g s c) l ∧ TableRun s (g s c) l ∧
      readsOf l = R s.hdmaen c (s.ch c) e ∧ (g s c).ch c = A s.hdmaen c (s.ch c) e)
    (cs : List Channel) (hcs : cs.Nodup) (s : State) :
    ∃ (e : Channel → Byte × Byte × Byte) (l : List Action), EngineRun s (cs.foldl g s) l ∧ TableRun s (cs.foldl g s) l ∧
      readsOf l = cs.flatMap (fun c => R s.hdmaen c (s.ch c) (e c)) ∧
      (∀ x, (cs.foldl g s).ch x = if x ∈ cs then A s.hdmaen x (s.ch x) (e x) else s.ch x) ∧
      (cs.foldl g s).mdmaen = s.mdmaen ∧ (cs.foldl g s).hdmaen = s.hdmaen := by
  induction cs generalizing s with
  | nil => exact ⟨fun _ => (0, 0, 0), [], engineRun_refl s, tableRun_nil rfl rfl, rfl, by simp, rfl, rfl⟩
  | cons c cs ih =>
    obtain ⟨hc, hn⟩ := List.nodup_cons.mp hcs
    obtain ⟨e, l, hl, ht, hr, hch⟩ := hg s c
    obtain ⟨e', m, hm, mt, mr, mch, m1, m2⟩ := ih hn (g s c)
    have hne : ∀ x ∈ cs, x ≠ c := fun x hx h => hc (h ▸ hx)
    refine ⟨fun x => if x = c then e else e' x, m ++ l, hl.run.trans hm, ht.trans mt hl.run.plat, ?_, fun x => ?_,
      m1.trans hl.mdmaen, m2.trans hl.hdmaen⟩
    · rw [readsOf_append, hr, mr, hl.hdmaen, List.flatMap_cons]
      simp only [if_true]
      congr 1
      refine List.flatMap_congr fun x hx => ?_
      rw [hl.others x (hne x hx), if_neg (hne x hx)]
    · simp only [List.foldl_cons]
      rw [mch, hl.hdmaen]
      by_cases hx : x = c
      · subst hx; simp [hc, hch]
      · simp [hl.others x hx, hx]

/-- Pass 1 changes neither the counter nor `done` of a channel. -/
theorem transferAfter_keeps (r : ChannelRegs) :
    (transferAfter r).nltr = r.nltr ∧ (transferAfter r).done = r.done ∧ reloads (transferAfter r) = reloads r := by
  unfold reloads transferAfter unitAfter
  split
  · split <;> simp
  · simp

theorem countReads_transferAfter (m : Byte) (c : Channel) (r : ChannelRegs) (e : Byte × Byte × Byte) :
    countReads m c (if maskBit m c && !r.done then transferAfter r else r) e =
      if (maskBit m c && !r.done) && reloads r then entryReads (countLine (transferAfter r)) e.1 e.2.1 e.2.2 else [] := by
  obtain ⟨-, h2, h3⟩ := transferAfter_keeps r
  cases hb : maskBit m c <;> cases hd : r.done <;> simp [countReads, hb, hd, h2, h3]

theorem countAfter_transferAfter (m : Byte) (c : Channel) (r : ChannelRegs) (e : Byte × Byte × Byte) :
    countAfter m c (if maskBit m c && !r.done then transferAfter r else r) e =
      if maskBit m c && !r.done then lineAfter r e.1 e.2.1 e.2.2 else r := by
  obtain ⟨-, h2, h3⟩ := transferAfter_keeps r
  cases hb : maskBit m c <;> cases hd : r.done <;> simp [countAfter, lineAfter, hb, hd, h2, h3]

/-- `HdmaLine` with an active channel, in closed form (R185): the setup charge, pass 1 by `l`, pass 2 by `m`. -/
theorem hdmaLine_spec (s : State) (h : anyActive s = true) :
    ∃ (e : Channel → Byte × Byte × Byte) (l m : List Action),
      EngineRun s (hdmaLine s) (m ++ (l ++ [.charge s.plat.hdmaSetupCost])) ∧
      charged l = (channels.map fun c => passBytes s.hdmaen c (s.ch c)).sum * s.plat.unitCost ∧
      accessesOf l = channels.flatMap (fun c => passAccesses s.plat s.hdmaen c (s.ch c)) ∧
      ((∀ c, passUnblocked s.plat s.hdmaen c (s.ch c)) → (readsOf l).map Prod.snd = (writesOf l).map Prod.snd) ∧
      writesOf m = [] ∧ charged m = (readsOf m).length * s.plat.unitCost ∧
      (∀ x ∈ readsOf m, isStorage s.plat x.1 = true → ¬ s.deviceStores x.1 → x.2 = (hdmaLine s).bytes x.1) ∧
      readsOf m = channels.flatMap (fun c => if active c s && reloads (s.ch c) then
        entryReads (countLine (transferAfter (s.ch c))) (e c).1 (e c).2.1 (e c).2.2 else []) ∧
      (∀ x, (hdmaLine s).ch x = if active x s then lineAfter (s.ch x) (e x).1 (e x).2.1 (e x).2.2 else s.ch x) ∧
      (hdmaLine s).mdmaen = s.mdmaen ∧ (hdmaLine s).hdmaen = s.hdmaen := by
  obtain ⟨l, hl, hcost, ha, hv, hch, h1, h2⟩ := foldl_hdmaTransfer_spec channels channels_nodup
    (charge s.plat.hdmaSetupCost s)
  obtain ⟨e, m, hm, mt, mr, mch, m1, m2⟩ := foldl_table_turns hdmaCount countReads countAfter hdmaCount_spec channels
    channels_nodup (channels.foldl hdmaTransfer (charge s.plat.hdmaSetupCost s))
  have hpass : ∀ x, (channels.foldl hdmaTransfer (charge s.plat.hdmaSetupCost s)).ch x =
      if active x s then transferAfter (s.ch x) else s.ch x := fun x => by
    rw [hch]; simp [mem_channels, active]
  rw [h2] at mr mch
  have hsetup := engineRun_charge s.plat.hdmaSetupCost s
  have heq : hdmaLine s =
      channels.foldl hdmaCount (channels.foldl hdmaTransfer (charge s.plat.hdmaSetupCost s)) := by
    unfold hdmaLine; rw [if_pos h]
  rw [← heq] at mch m1 m2 mt hm
  refine ⟨e, l, m, (hsetup.trans hl).trans hm, hcost, ha, fun hu => hv fun c _ => hu c, mt.writes, by rw [mt.cost, hl.plat]; rfl, ?_, ?_, fun x => ?_,
    m1.trans h1, m2.trans h2⟩
  · intro x hx hs hd
    have hd' := fun e => hd (hl.stores x.1 e)
    rw [mt.mem x.1 hd']
    exact mt.bytes x hx (by rw [hl.plat]; exact hs) hd'
  · rw [mr]
    refine List.flatMap_congr fun c _ => ?_
    rw [hpass c]
    exact countReads_transferAfter s.hdmaen c (s.ch c) (e c)
  · rw [mch, if_pos (mem_channels x), hpass x]
    exact countAfter_transferAfter s.hdmaen x (s.ch x) (e x)

/-- `HdmaInit` in closed form (R182). -/
theorem hdmaInit_spec (s : State) :
    ∃ (e : Channel → Byte × Byte × Byte) (l : List Action),
      EngineRun s (hdmaInit s) (l ++ if s.hdmaen = 0 then [] else [.charge s.plat.hdmaSetupCost]) ∧
      TableRun s (hdmaInit s) l ∧
      readsOf l = channels.flatMap (fun c => startReads s.hdmaen c (clearHidden (s.ch c)) (e c)) ∧
      (∀ x, (hdmaInit s).ch x = startAfter s.hdmaen x (clearHidden (s.ch x)) (e x)) ∧
      (hdmaInit s).mdmaen = s.mdmaen ∧ (hdmaInit s).hdmaen = s.hdmaen := by
  have hc : EngineRun s (clearAllHidden s) [] := engineRun_of_same rfl rfl rfl rfl rfl rfl rfl rfl rfl
  unfold hdmaInit
  simp only
  by_cases h0 : s.hdmaen = 0
  · have hm : ∀ c, maskBit s.hdmaen c = false := fun c => by rw [h0]; simp [maskBit]
    rw [if_pos h0, if_pos (show (clearAllHidden s).hdmaen = 0x00 from h0)]
    refine ⟨fun _ => (0, 0, 0), [], hc, tableRun_nil rfl rfl, ?_, fun x => ?_, rfl, rfl⟩
    · simp [startReads, hm, readsOf]
    · simp [startAfter, hm]
  · rw [if_neg h0, if_neg (show ¬(clearAllHidden s).hdmaen = 0x00 from h0)]
    obtain ⟨e, l, hl, ht, hr, hch, h1, h2⟩ := foldl_table_turns hdmaStart startReads startAfter hdmaStart_spec channels
      channels_nodup (charge (clearAllHidden s).plat.hdmaSetupCost (clearAllHidden s))
    refine ⟨e, l, (hc.trans (engineRun_charge _ _)).trans hl, ⟨ht.writes, ht.cost, ht.mem, ht.stores, ht.bytes⟩, ?_, fun x => ?_,
      h1, h2⟩
    · rw [hr]; simp
    · rw [hch, if_pos (mem_channels x)]; simp

end Sys2Proof.Machine
end

