-- ==== Sys2Proof/Laws/PerInstr.lean ====
section
/-! SUPPORT. The family TableRow: the word the encoder builds for a well-formed instruction has the width, the mask
and the match of the instruction's row in spec/opcode_table.json. -/

namespace Sys2Proof.Laws.TableRow

/-- The bits of an encoded object that the table numbers, with their count. -/
def tableBits : Encoded → Nat × Nat
  | .regWrite o _ => (16, o.toNat)
  | .regRead o => (16, o.toNat)
  | .mask _ m => (8, m.toNat)
  | .dmap _ _ b => (8, b.toNat)
  | .hdr _ h => (8, h.toNat)
  | .event _ => (0, 0)

/-- The row's width, mask and match, copied from the table. -/
def row : Instr → Nat × Nat × Nat
  | .wrMdmaen _ => (16, 0xFFFF, 0x420B)
  | .rdMdmaen => (16, 0xFFFF, 0x420B)
  | .wrHdmaen _ => (16, 0xFFFF, 0x420C)
  | .rdHdmaen => (16, 0xFFFF, 0x420C)
  | .wrDmap _ _ => (16, 0xFF8F, 0x4300)
  | .rdDmap _ => (16, 0xFF8F, 0x4300)
  | .wrBbad _ _ => (16, 0xFF8F, 0x4301)
  | .rdBbad _ => (16, 0xFF8F, 0x4301)
  | .wrA1tl _ _ => (16, 0xFF8F, 0x4302)
  | .rdA1tl _ => (16, 0xFF8F, 0x4302)
  | .wrA1th _ _ => (16, 0xFF8F, 0x4303)
  | .rdA1th _ => (16, 0xFF8F, 0x4303)
  | .wrA1b _ _ => (16, 0xFF8F, 0x4304)
  | .rdA1b _ => (16, 0xFF8F, 0x4304)
  | .wrDasl _ _ => (16, 0xFF8F, 0x4305)
  | .rdDasl _ => (16, 0xFF8F, 0x4305)
  | .wrDash _ _ => (16, 0xFF8F, 0x4306)
  | .rdDash _ => (16, 0xFF8F, 0x4306)
  | .wrDasb _ _ => (16, 0xFF8F, 0x4307)
  | .rdDasb _ => (16, 0xFF8F, 0x4307)
  | .wrA2al _ _ => (16, 0xFF8F, 0x4308)
  | .rdA2al _ => (16, 0xFF8F, 0x4308)
  | .wrA2ah _ _ => (16, 0xFF8F, 0x4309)
  | .rdA2ah _ => (16, 0xFF8F, 0x4309)
  | .wrNltr _ _ => (16, 0xFF8F, 0x430A)
  | .rdNltr _ => (16, 0xFF8F, 0x430A)
  | .wrUnusedB _ _ => (16, 0xFF8F, 0x430B)
  | .rdUnusedB _ => (16, 0xFF8F, 0x430B)
  | .wrUnmappedC _ _ => (16, 0xFF8F, 0x430C)
  | .rdUnmappedC _ => (16, 0xFF8F, 0x430C)
  | .wrUnmappedD _ _ => (16, 0xFF8F, 0x430D)
  | .rdUnmappedD _ => (16, 0xFF8F, 0x430D)
  | .wrUnmappedE _ _ => (16, 0xFF8F, 0x430E)
  | .rdUnmappedE _ => (16, 0xFF8F, 0x430E)
  | .wrUnusedF _ _ => (16, 0xFF8F, 0x430F)
  | .rdUnusedF _ => (16, 0xFF8F, 0x430F)
  | .mdmaenNone => (8, 0xFF, 0x00)
  | .mdmaenStart _ => (8, 0x00, 0x00)
  | .hdmaenSet _ => (8, 0x00, 0x00)
  | .pat0 _ _ _ _ _ _ => (8, 0x07, 0x00)
  | .pat1 _ _ _ _ _ _ => (8, 0x07, 0x01)
  | .pat2 _ _ _ _ _ _ => (8, 0x07, 0x02)
  | .pat3 _ _ _ _ _ _ => (8, 0x07, 0x03)
  | .pat4 _ _ _ _ _ _ => (8, 0x07, 0x04)
  | .pat5 _ _ _ _ _ _ => (8, 0x07, 0x05)
  | .pat6 _ _ _ _ _ _ => (8, 0x07, 0x06)
  | .pat7 _ _ _ _ _ _ => (8, 0x07, 0x07)
  | .dirBusToPort _ _ _ _ _ _ => (8, 0x80, 0x00)
  | .dirPortToBus _ _ _ _ _ _ => (8, 0x80, 0x80)
  | .hdmaDirect _ _ _ _ _ _ => (8, 0x40, 0x00)
  | .hdmaIndirect _ _ _ _ _ _ => (8, 0x40, 0x40)
  | .stepFixed _ _ _ _ _ _ => (8, 0x08, 0x08)
  | .stepInc _ _ _ _ _ => (8, 0x18, 0x00)
  | .stepDec _ _ _ _ _ => (8, 0x18, 0x10)
  | .hdrTerminate _ => (8, 0xFF, 0x00)
  | .hdrOnce128 _ => (8, 0xFF, 0x80)
  | .hdrOnce _ _ => (8, 0x80, 0x00)
  | .hdrRepeat _ _ => (8, 0x80, 0x80)
  | .evReset _ => (0, 0x0, 0x0)
  | .evHdmainit => (0, 0x0, 0x0)
  | .evHdmaline => (0, 0x0, 0x0)

/-- The encoded word fits the row. -/
def Statement (i : Instr) : Prop :=
  i.wellFormed = true →
    (tableBits (encode i)).1 = (row i).1 ∧ (tableBits (encode i)).2 &&& (row i).2.1 = (row i).2.2

/-- A register offset under the mask of its rows. -/
theorem regOffset_masked (c : Channel) (r : BitVec 4) : (regOffset c r).toNat &&& 0xFF8F = 0x4300 + r.toNat := by
  revert c r
  decide +kernel

/-- A control byte under the masks of its rows. -/
theorem ctrlByte_masked (d : Dir) (n u z f : Bool) (p : BitVec 3) :
    (ctrlByte d n u z f p).toNat &&& 0x07 = p.toNat ∧
    (ctrlByte d n u z f p).toNat &&& 0x80 = d.bit.toNat * 0x80 ∧
    (ctrlByte d n u z f p).toNat &&& 0x40 = n.toNat * 0x40 ∧
    (ctrlByte d n u z f p).toNat &&& 0x08 = f.toNat * 0x08 ∧
    (ctrlByte d n u z f p).toNat &&& 0x18 = z.toNat * 0x10 + f.toNat * 0x08 := by
  cases d <;> revert n u z f p <;> decide +kernel

/-- A header byte under the mask of its rows. -/
theorem headerByte_masked (k : Bool) (lines : BitVec 7) : (headerByte k lines).toNat &&& 0x80 = k.toNat * 0x80 := by
  revert k lines
  decide +kernel

theorem wrMdmaen (v : Byte) : Statement (.wrMdmaen v) := fun _ => ⟨rfl, by simp [tableBits, encode, row]⟩
theorem rdMdmaen : Statement (.rdMdmaen) := fun _ => ⟨rfl, rfl⟩
theorem wrHdmaen (v : Byte) : Statement (.wrHdmaen v) := fun _ => ⟨rfl, by simp [tableBits, encode, row]⟩
theorem rdHdmaen : Statement (.rdHdmaen) := fun _ => ⟨rfl, rfl⟩
theorem wrDmap (c : Channel) (v : Byte) : Statement (.wrDmap c v) := fun _ => ⟨rfl, regOffset_masked c _⟩
theorem rdDmap (c : Channel) : Statement (.rdDmap c) := fun _ => ⟨rfl, regOffset_masked c _⟩
theorem wrBbad (c : Channel) (v : Byte) : Statement (.wrBbad c v) := fun _ => ⟨rfl, regOffset_masked c _⟩
theorem rdBbad (c : Channel) : Statement (.rdBbad c) := fun _ => ⟨rfl, regOffset_masked c _⟩
theorem wrA1tl (c : Channel) (v : Byte) : Statement (.wrA1tl c v) := fun _ => ⟨rfl, regOffset_masked c _⟩
theorem rdA1tl (c : Channel) : Statement (.rdA1tl c) := fun _ => ⟨rfl, regOffset_masked c _⟩
theorem wrA1th (c : Channel) (v : Byte) : Statement (.wrA1th c v) := fun _ => ⟨rfl, regOffset_masked c _⟩
theorem rdA1th (c : Channel) : Statement (.rdA1th c) := fun _ => ⟨rfl, regOffset_masked c _⟩
theorem wrA1b (c : Channel) (v : Byte) : Statement (.wrA1b c v) := fun _ => ⟨rfl, regOffset_masked c _⟩
theorem rdA1b (c : Channel) : Statement (.rdA1b c) := fun _ => ⟨rfl, regOffset_masked c _⟩
theorem wrDasl (c : Channel) (v : Byte) : Statement (.wrDasl c v) := fun _ => ⟨rfl, regOffset_masked c _⟩
theorem rdDasl (c : Channel) : Statement (.rdDasl c) := fun _ => ⟨rfl, regOffset_masked c _⟩
theorem wrDash (c : Channel) (v : Byte) : Statement (.wrDash c v) := fun _ => ⟨rfl, regOffset_masked c _⟩
theorem rdDash (c : Channel) : Statement (.rdDash c) := fun _ => ⟨rfl, regOffset_masked c _⟩
theorem wrDasb (c : Channel) (v : Byte) : Statement (.wrDasb c v) := fun _ => ⟨rfl, regOffset_masked c _⟩
theorem rdDasb (c : Channel) : Statement (.rdDasb c) := fun _ => ⟨rfl, regOffset_masked c _⟩
theorem wrA2al (c : Channel) (v : Byte) : Statement (.wrA2al c v) := fun _ => ⟨rfl, regOffset_masked c _⟩
theorem rdA2al (c : Channel) : Statement (.rdA2al c) := fun _ => ⟨rfl, regOffset_masked c _⟩
theorem wrA2ah (c : Channel) (v : Byte) : Statement (.wrA2ah c v) := fun _ => ⟨rfl, regOffset_masked c _⟩
theorem rdA2ah (c : Channel) : Statement (.rdA2ah c) := fun _ => ⟨rfl, regOffset_masked c _⟩
theorem wrNltr (c : Channel) (v : Byte) : Statement (.wrNltr c v) := fun _ => ⟨rfl, regOffset_masked c _⟩
theorem rdNltr (c : Channel) : Statement (.rdNltr c) := fun _ => ⟨rfl, regOffset_masked c _⟩
theorem wrUnusedB (c : Channel) (v : Byte) : Statement (.wrUnusedB c v) := fun _ => ⟨rfl, regOffset_masked c _⟩
theorem rdUnusedB (c : Channel) : Statement (.rdUnusedB c) := fun _ => ⟨rfl, regOffset_masked c _⟩
theorem wrUnmappedC (c : Channel) (v : Byte) : Statement (.wrUnmappedC c v) := fun _ => ⟨rfl, regOffset_masked c _⟩
theorem rdUnmappedC (c : Channel) : Statement (.rdUnmappedC c) := fun _ => ⟨rfl, regOffset_masked c _⟩
theorem wrUnmappedD (c : Channel) (v : Byte) : Statement (.wrUnmappedD c v) := fun _ => ⟨rfl, regOffset_masked c _⟩
theorem rdUnmappedD (c : Channel) : Statement (.rdUnmappedD c) := fun _ => ⟨rfl, regOffset_masked c _⟩
theorem wrUnmappedE (c : Channel) (v : Byte) : Statement (.wrUnmappedE c v) := fun _ => ⟨rfl, regOffset_masked c _⟩
theorem rdUnmappedE (c : Channel) : Statement (.rdUnmappedE c) := fun _ => ⟨rfl, regOffset_masked c _⟩
theorem wrUnusedF (c : Channel) (v : Byte) : Statement (.wrUnusedF c v) := fun _ => ⟨rfl, regOffset_masked c _⟩
theorem rdUnusedF (c : Channel) : Statement (.rdUnusedF c) := fun _ => ⟨rfl, regOffset_masked c _⟩
theorem mdmaenNone : Statement (.mdmaenNone) := fun _ => ⟨rfl, rfl⟩
theorem mdmaenStart (m : Byte) : Statement (.mdmaenStart m) := fun _ => ⟨rfl, Nat.and_zero _⟩
theorem hdmaenSet (m : Byte) : Statement (.hdmaenSet m) := fun _ => ⟨rfl, Nat.and_zero _⟩
theorem pat0 (c : Channel) (d : Dir) (n u z f : Bool) : Statement (.pat0 c d n u z f) :=
  fun _ => ⟨rfl, (ctrlByte_masked d n u z f 0).1⟩
theorem pat1 (c : Channel) (d : Dir) (n u z f : Bool) : Statement (.pat1 c d n u z f) :=
  fun _ => ⟨rfl, (ctrlByte_masked d n u z f 1).1⟩
theorem pat2 (c : Channel) (d : Dir) (n u z f : Bool) : Statement (.pat2 c d n u z f) :=
  fun _ => ⟨rfl, (ctrlByte_masked d n u z f 2).1⟩
theorem pat3 (c : Channel) (d : Dir) (n u z f : Bool) : Statement (.pat3 c d n u z f) :=
  fun _ => ⟨rfl, (ctrlByte_masked d n u z f 3).1⟩
theorem pat4 (c : Channel) (d : Dir) (n u z f : Bool) : Statement (.pat4 c d n u z f) :=
  fun _ => ⟨rfl, (ctrlByte_masked d n u z f 4).1⟩
theorem pat5 (c : Channel) (d : Dir) (n u z f : Bool) : Statement (.pat5 c d n u z f) :=
  fun _ => ⟨rfl, (ctrlByte_masked d n u z f 5).1⟩
theorem pat6 (c : Channel) (d : Dir) (n u z f : Bool) : Statement (.pat6 c d n u z f) :=
  fun _ => ⟨rfl, (ctrlByte_masked d n u z f 6).1⟩
theorem pat7 (c : Channel) (d : Dir) (n u z f : Bool) : Statement (.pat7 c d n u z f) :=
  fun _ => ⟨rfl, (ctrlByte_masked d n u z f 7).1⟩
theorem dirBusToPort (c : Channel) (n u z f : Bool) (p : BitVec 3) : Statement (.dirBusToPort c n u z f p) :=
  fun _ => ⟨rfl, (ctrlByte_masked .busToPort n u z f p).2.1⟩
theorem dirPortToBus (c : Channel) (n u z f : Bool) (p : BitVec 3) : Statement (.dirPortToBus c n u z f p) :=
  fun _ => ⟨rfl, (ctrlByte_masked .portToBus n u z f p).2.1⟩
theorem hdmaDirect (c : Channel) (d : Dir) (u z f : Bool) (p : BitVec 3) : Statement (.hdmaDirect c d u z f p) :=
  fun _ => ⟨rfl, (ctrlByte_masked d false u z f p).2.2.1⟩
theorem hdmaIndirect (c : Channel) (d : Dir) (u z f : Bool) (p : BitVec 3) : Statement (.hdmaIndirect c d u z f p) :=
  fun _ => ⟨rfl, (ctrlByte_masked d true u z f p).2.2.1⟩
theorem stepFixed (c : Channel) (d : Dir) (n u z : Bool) (p : BitVec 3) : Statement (.stepFixed c d n u z p) :=
  fun _ => ⟨rfl, (ctrlByte_masked d n u z true p).2.2.2.1⟩
theorem stepInc (c : Channel) (d : Dir) (n u : Bool) (p : BitVec 3) : Statement (.stepInc c d n u p) :=
  fun _ => ⟨rfl, (ctrlByte_masked d n u false false p).2.2.2.2⟩
theorem stepDec (c : Channel) (d : Dir) (n u : Bool) (p : BitVec 3) : Statement (.stepDec c d n u p) :=
  fun _ => ⟨rfl, (ctrlByte_masked d n u true false p).2.2.2.2⟩
theorem hdrTerminate (c : Channel) : Statement (.hdrTerminate c) := fun _ => ⟨rfl, by simp [tableBits, encode, row]⟩
theorem hdrOnce128 (c : Channel) : Statement (.hdrOnce128 c) := fun _ => ⟨rfl, by simp [tableBits, encode, row]⟩
theorem hdrOnce (c : Channel) (lines : BitVec 7) : Statement (.hdrOnce c lines) :=
  fun _ => ⟨rfl, headerByte_masked false lines⟩
theorem hdrRepeat (c : Channel) (lines : BitVec 7) : Statement (.hdrRepeat c lines) :=
  fun _ => ⟨rfl, headerByte_masked true lines⟩
theorem evReset (kind : ResetKind) : Statement (.evReset kind) := fun _ => ⟨rfl, by simp [tableBits, encode, row]⟩
theorem evHdmainit : Statement (.evHdmainit) := fun _ => ⟨rfl, rfl⟩
theorem evHdmaline : Statement (.evHdmaline) := fun _ => ⟨rfl, rfl⟩

end Sys2Proof.Laws.TableRow
end

