-- ==== Sys2Proof/Laws/Step.lean ====
section
/-! SUPPORT. Reset, the register port and the step: what each can do. -/

namespace Sys2Proof.Machine

/-! ### Reset -/

theorem powerOnStep_ch (s : State) (c x : Channel) :
    (powerOnStep s c).ch x = if x = c then powerOnChannel s.draws (s.ch c) else s.ch x := ch_updCh s c x _

@[simp] theorem powerOnStep_draws (s : State) (c : Channel) : (powerOnStep s c).draws = s.draws + channelBytes := rfl

/-- A power-on Reset changes the channels and the count of draws, nothing else. -/
theorem foldl_powerOn_same (cs : List Channel) (s : State) :
    (cs.foldl powerOnStep s).mdmaen = s.mdmaen ∧ (cs.foldl powerOnStep s).hdmaen = s.hdmaen ∧
      (cs.foldl powerOnStep s).draws = s.draws + cs.length * channelBytes ∧
      EngineRun s (cs.foldl powerOnStep s) [] ∧ (cs.foldl powerOnStep s).deviceIn = s.deviceIn ∧
      (∀ x, x ∉ cs → (cs.foldl powerOnStep s).ch x = s.ch x) ∧
      (∀ x, ((cs.foldl powerOnStep s).ch x).doTransfer = (s.ch x).doTransfer ∧
        ((cs.foldl powerOnStep s).ch x).done = (s.ch x).done) := by
  induction cs generalizing s with
  | nil => exact ⟨rfl, rfl, by simp, engineRun_refl s, rfl, fun _ _ => rfl, fun _ => ⟨rfl, rfl⟩⟩
  | cons c cs ih =>
    obtain ⟨h1, h2, h3, h4, h5, h6, h7⟩ := ih (powerOnStep s c)
    have h0 : EngineRun s (powerOnStep s c) [] := engineRun_of_same rfl rfl rfl rfl rfl rfl rfl rfl rfl
    refine ⟨h1, h2, ?_, h0.trans h4, h5, fun x hx => ?_, fun x => ?_⟩
    · simp only [List.foldl_cons]; rw [h3]; simp; ring
    · simp only [List.mem_cons, not_or] at hx
      simp only [List.foldl_cons]
      rw [h6 x hx.2, powerOnStep_ch, if_neg hx.1]
    · simp only [List.foldl_cons]
      rw [(h7 x).1, (h7 x).2, powerOnStep_ch]
      split
      · next e => subst e; exact ⟨rfl, rfl⟩
      · exact ⟨rfl, rfl⟩

/-- Reset is a run without actions (R250: no bus access and no charge) that clears both masks and every hidden flag. -/
theorem resetEngine_spec (k : ResetKind) (s : State) :
    EngineRun s (resetEngine k s) [] ∧ (resetEngine k s).mdmaen = 0 ∧ (resetEngine k s).hdmaen = 0 ∧
      (∀ x, ((resetEngine k s).ch x).doTransfer = false ∧ ((resetEngine k s).ch x).done = false) := by
  have h0 : EngineRun s (resetControl s) [] := engineRun_of_same rfl rfl rfl rfl rfl rfl rfl rfl rfl
  cases k with
  | soft => exact ⟨h0, rfl, rfl, fun x => by simp [resetEngine, clearHidden]⟩
  | powerOn =>
    obtain ⟨h1, h2, -, h4, -, -, h7⟩ := foldl_powerOn_same channels (resetControl s)
    refine ⟨h0.trans h4, h1, h2, fun x => ?_⟩
    have := h7 x
    simp only [ch_resetControl, clearHidden] at this
    exact this

/-! ### The step -/

theorem step_idle (s : State) (ha : s.alone = none) (h : s.pending = []) : step s = .next s := by
  unfold step
  simp only [ha, h]

/-- A waiting request is served. -/
theorem step_request (s : State) (r : Request) (rest : List Request) (ha : s.alone = none) (h : s.pending = r :: rest) :
    step s = serveRequest r { s with pending := rest } := by
  unfold step
  simp only [ha, h]

/-- A part that is to run alone is fetched and served. -/
theorem step_alone (s : State) (p : Part) (h : s.alone = some p) :
    step s = serve (fetchPart p { s with alone := none }).1 (fetchPart p { s with alone := none }).2
      (fetchPart p { s with alone := none }).2 := by
  unfold step
  simp only [h]

theorem serve_ok {o : Encoded} {i : Instr} (other s : State) (h : decode o = .ok i) : serve o other s = exec i s := by
  simp only [serve, h]

theorem serve_error {o : Encoded} {e : DecodeError} (other s : State) (h : decode o = .error e) :
    serve o other s = .next other := by
  simp only [serve, h]

/-- An access at an address the Bus routes to the engine, at an offset of its own, is the engine's (R102). -/
theorem serveRequest_engine (a : CpuAccess) (s : State) {i : Instr} (hr : routedToEngine s.plat a.addr = true)
    (h : decode a.object = .ok i) : serveRequest (.cpu a) s = exec i s := by
  simp only [serveRequest, hr, if_true, serve_ok _ _ h]

/-- Any other access is the Bus's (R136). -/
theorem serveRequest_bus (a : CpuAccess) (s : State)
    (h : routedToEngine s.plat a.addr = false ∨ ∃ e, decode a.object = .error e) :
    serveRequest (.cpu a) s = .next (busAccess a s) := by
  rcases h with h | ⟨e, h⟩
  · simp [serveRequest, h]
  · simp only [serveRequest, serve_error _ _ h]
    split <;> rfl

theorem serveRequest_event (e : Event) (s : State) {i : Instr} (h : decode (.event e) = .ok i) :
    serveRequest (.event e) s = exec i s := serve_ok s s h

/-- A step that serves an access of the engine. -/
theorem step_engine (s : State) (a : CpuAccess) (rest : List Request) {i : Instr} (ha : s.alone = none)
    (hp : s.pending = .cpu a :: rest) (hr : routedToEngine s.plat a.addr = true) (h : decode a.object = .ok i) :
    step s = exec i { s with pending := rest } :=
  (step_request s _ rest ha hp).trans (serveRequest_engine a { s with pending := rest } hr h)

/-- A step that serves an access of the Bus. -/
theorem step_bus (s : State) (a : CpuAccess) (rest : List Request) (ha : s.alone = none)
    (hp : s.pending = .cpu a :: rest) (h : routedToEngine s.plat a.addr = false ∨ ∃ e, decode a.object = .error e) :
    step s = .next (busAccess a { s with pending := rest }) :=
  (step_request s _ rest ha hp).trans (serveRequest_bus a { s with pending := rest } h)

/-- A step that serves an event. -/
theorem step_event (s : State) (e : Event) (rest : List Request) {i : Instr} (ha : s.alone = none)
    (hp : s.pending = .event e :: rest) (h : decode (.event e) = .ok i) : step s = exec i { s with pending := rest } :=
  (step_request s _ rest ha hp).trans (serveRequest_event e { s with pending := rest } h)

/-- A CPU access the Bus serves: storage, the acts of devices, the count of draws, the bus byte and the answer may
differ, nothing else. -/
theorem busAccess_same (a : CpuAccess) (s : State) :
    busAccess a s = { s with mem := (busAccess a s).mem, deviceIn := (busAccess a s).deviceIn,
                             draws := (busAccess a s).draws, mdr := (busAccess a s).mdr,
                             reply := (busAccess a s).reply } := by
  cases a with
  | write b v => unfold busAccess driveWrite; simp only; rw [resolveWrite_same]
  | read b => unfold busAccess answerRead; simp only; rw [resolveRead_same]

/-- A read the Bus cannot serve returns `mdr` and leaves everything behind the Bus (R67, R270). -/
theorem resolveRead_unmapped (a : Addr) (s : State) (h : regionKind s.plat a = .unmapped) :
    resolveRead a s = (s.mdr, s) := by
  simp [resolveRead, h]

/-- What fetching a part does to the state: nothing, except that an entry's header costs one table byte (R183). -/
theorem fetchPart_state (p : Part) (s : State) :
    (fetchPart p s).2 = match p with
      | .entry c => (tableByte c s).2
      | .mask _ _ => s
      | .control _ _ => s := by
  cases p <;> rfl

end Sys2Proof.Machine
end

