-- ==== Sys2Proof/Tests/Slice0.lean ====
section
/-! SUPPORT. Tests: the checks of WellFormed, the decoding of every row, one-step vectors, and a witness for every
statement with hypotheses. Expected values are those of 95_test_vectors.md (V<n>), of the worked examples of the
rules named, or of the encoding tables of 30_encoding.md; none comes from a run of the model. -/

namespace Sys2Proof.Tests

open Sys2Proof.Machine

/-! ### Small states -/

/-- The suggested costs of R271: with the model's own unknown costs a sum could not be compared. -/
def plat : Platform := { Config.defaultPlatform with unitCost := 8, setupCost := 8, hdmaSetupCost := 18 }

/-- After a power-on Reset, `mdr = 0x42` (95_test_vectors.md section 2.1). -/
def base : State := { State.reset with plat := plat, mdr := 0x42 }

/-- A channel with nothing set. -/
def zero : ChannelRegs :=
  { dmap := 0, bbad := 0, a1t := 0, a1b := 0, das := 0, dasb := 0, a2a := 0, nltr := 0, unused := 0,
    doTransfer := false, done := false }

/-- `base` with the registers of channel `c` put in. -/
def withCh (c : Channel) (r : ChannelRegs) : State := base.setCh c r

/-- The state after an instruction. -/
def after (i : Instr) (s : State) : State :=
  match exec i s with
  | .next t => t
  | .fault _ => s
  | .refused _ => s

/-- The state after a step. -/
def afterStep (s : State) : State :=
  match step s with
  | .next t => t
  | .fault _ => s
  | .refused _ => s

/-- What the instruction did on the bus, in order. -/
def acts (i : Instr) (s : State) : List Action := (after i s).actions

/-! ### WellFormed refuses what it checks -/

theorem test_illformed_start_of_nothing : Instr.wellFormed (.mdmaenStart 0x00) = false := by decide
theorem test_illformed_once_of_no_lines : Instr.wellFormed (.hdrOnce 3 0) = false := by decide
theorem test_illformed_repeat_of_no_lines : Instr.wellFormed (.hdrRepeat 3 0) = false := by decide

/-! ### Decoding: every row, by a word written from R91, R92, R93, R95 -/

theorem test_decode_mask_registers :
    decode (.regWrite 0b0100001000001011#16 0x05) = .ok (.wrMdmaen 0x05) ∧
    decode (.regRead 0b0100001000001011#16) = .ok .rdMdmaen ∧
    decode (.regWrite 0b0100001000001100#16 0x08) = .ok (.wrHdmaen 0x08) ∧
    decode (.regRead 0b0100001000001100#16) = .ok .rdHdmaen := by decide

theorem test_decode_channel_writes :
    decode (.regWrite 0b0100001100000000#16 0xFF) = .ok (.wrDmap 0 0xFF) ∧
    decode (.regWrite 0b0100001100010001#16 0x18) = .ok (.wrBbad 1 0x18) ∧
    decode (.regWrite 0b0100001101110010#16 0x34) = .ok (.wrA1tl 7 0x34) ∧
    decode (.regWrite 0b0100001101110011#16 0x12) = .ok (.wrA1th 7 0x12) ∧
    decode (.regWrite 0b0100001100000100#16 0x7E) = .ok (.wrA1b 0 0x7E) ∧
    decode (.regWrite 0b0100001100000101#16 0x10) = .ok (.wrDasl 0 0x10) ∧
    decode (.regWrite 0b0100001100100110#16 0x00) = .ok (.wrDash 2 0x00) ∧
    decode (.regWrite 0b0100001100110111#16 0x7E) = .ok (.wrDasb 3 0x7E) ∧
    decode (.regWrite 0b0100001101001000#16 0xCD) = .ok (.wrA2al 4 0xCD) ∧
    decode (.regWrite 0b0100001101111001#16 0xAB) = .ok (.wrA2ah 7 0xAB) ∧
    decode (.regWrite 0b0100001101001010#16 0x05) = .ok (.wrNltr 4 0x05) ∧
    decode (.regWrite 0b0100001101011011#16 0xA5) = .ok (.wrUnusedB 5 0xA5) ∧
    decode (.regWrite 0b0100001101101100#16 0x77) = .ok (.wrUnmappedC 6 0x77) ∧
    decode (.regWrite 0b0100001101101101#16 0x77) = .ok (.wrUnmappedD 6 0x77) ∧
    decode (.regWrite 0b0100001101101110#16 0x77) = .ok (.wrUnmappedE 6 0x77) ∧
    decode (.regWrite 0b0100001101111111#16 0xA5) = .ok (.wrUnusedF 7 0xA5) := by decide

theorem test_decode_channel_reads :
    decode (.regRead 0b0100001100000000#16) = .ok (.rdDmap 0) ∧
    decode (.regRead 0b0100001100010001#16) = .ok (.rdBbad 1) ∧
    decode (.regRead 0b0100001101110010#16) = .ok (.rdA1tl 7) ∧
    decode (.regRead 0b0100001101110011#16) = .ok (.rdA1th 7) ∧
    decode (.regRead 0b0100001100000100#16) = .ok (.rdA1b 0) ∧
    decode (.regRead 0b0100001100000101#16) = .ok (.rdDasl 0) ∧
    decode (.regRead 0b0100001100100110#16) = .ok (.rdDash 2) ∧
    decode (.regRead 0b0100001100110111#16) = .ok (.rdDasb 3) ∧
    decode (.regRead 0b0100001101001000#16) = .ok (.rdA2al 4) ∧
    decode (.regRead 0b0100001101111001#16) = .ok (.rdA2ah 7) ∧
    decode (.regRead 0b0100001101001010#16) = .ok (.rdNltr 4) ∧
    decode (.regRead 0b0100001101011011#16) = .ok (.rdUnusedB 5) ∧
    decode (.regRead 0b0100001101101100#16) = .ok (.rdUnmappedC 6) ∧
    decode (.regRead 0b0100001101101101#16) = .ok (.rdUnmappedD 6) ∧
    decode (.regRead 0b0100001101101110#16) = .ok (.rdUnmappedE 6) ∧
    decode (.regRead 0b0100001101111111#16) = .ok (.rdUnusedF 7) := by decide

/-- The table of 95_test_vectors.md section 2.2: offsets that are not the engine's. -/
theorem test_decode_rejects_foreign_offsets :
    decode (.regWrite 0x4380 0x55) = .error (.notEngineWrite 0x4380 0x55) ∧
    decode (.regRead 0x42FF) = .error (.notEngineRead 0x42FF) ∧
    decode (.regWrite 0x420A 0x55) = .error (.notEngineWrite 0x420A 0x55) ∧
    decode (.regRead 0x420D) = .error (.notEngineRead 0x420D) := by decide

theorem test_decode_masks :
    decode (.mask .mdmaen 0b00000000#8) = .ok .mdmaenNone ∧
    decode (.mask .mdmaen 0b10000010#8) = .ok (.mdmaenStart 0x82) ∧
    decode (.mask .hdmaen 0b00001000#8) = .ok (.hdmaenSet 0x08) := by decide

theorem test_decode_patterns :
    decode (.dmap .pattern 0 0b00000000#8) = .ok (.pat0 0 .busToPort false false false false) ∧
    decode (.dmap .pattern 1 0b10000001#8) = .ok (.pat1 1 .portToBus false false false false) ∧
    decode (.dmap .pattern 2 0b01000010#8) = .ok (.pat2 2 .busToPort true false false false) ∧
    decode (.dmap .pattern 3 0b00100011#8) = .ok (.pat3 3 .busToPort false true false false) ∧
    decode (.dmap .pattern 4 0b00010100#8) = .ok (.pat4 4 .busToPort false false true false) ∧
    decode (.dmap .pattern 5 0b00001101#8) = .ok (.pat5 5 .busToPort false false false true) ∧
    decode (.dmap .pattern 6 0b11000110#8) = .ok (.pat6 6 .portToBus true false false false) ∧
    decode (.dmap .pattern 7 0b11111111#8) = .ok (.pat7 7 .portToBus true true true true) := by decide

theorem test_decode_direction_addressing_step :
    decode (.dmap .direction 0 0b00011000#8) = .ok (.dirBusToPort 0 false false true true 0) ∧
    decode (.dmap .direction 1 0b10000001#8) = .ok (.dirPortToBus 1 false false false false 1) ∧
    decode (.dmap .addressing 3 0b00000010#8) = .ok (.hdmaDirect 3 .busToPort false false false 2) ∧
    decode (.dmap .addressing 0 0b01000001#8) = .ok (.hdmaIndirect 0 .busToPort false false false 1) ∧
    decode (.dmap .addressStep 0 0b00011000#8) = .ok (.stepFixed 0 .busToPort false false true 0) ∧
    decode (.dmap .addressStep 0 0b00000000#8) = .ok (.stepInc 0 .busToPort false false 0) ∧
    decode (.dmap .addressStep 1 0b10010000#8) = .ok (.stepDec 1 .portToBus false false 0) := by decide

theorem test_decode_headers :
    decode (.hdr 3 0b00000000#8) = .ok (.hdrTerminate 3) ∧
    decode (.hdr 3 0b10000000#8) = .ok (.hdrOnce128 3) ∧
    decode (.hdr 3 0b00000010#8) = .ok (.hdrOnce 3 2) ∧
    decode (.hdr 3 0b10000011#8) = .ok (.hdrRepeat 3 3) := by decide

theorem test_decode_events :
    decode (.event (.reset .soft)) = .ok (.evReset .soft) ∧ decode (.event .hdmaInit) = .ok .evHdmainit ∧
    decode (.event .hdmaLine) = .ok .evHdmaline := by decide

/-! ### The register port -/

/-- V1. -/
theorem test_V1_all_bits_of_DMAP_are_stored : ((after (.wrDmap 0 0xFF) base).ch 0).dmap = 0xFF := by decide
/-- V8. -/
theorem test_V8_DMAP_reads_back : (after (.rdDmap 1) (withCh 1 { zero with dmap := 0x81 })).reply = some 0x81 := by
  decide
/-- V9. -/
theorem test_V9_BBAD_of_one_channel : ((after (.wrBbad 2 0x22) base).ch 2).bbad = 0x22 ∧
    ∀ c, c ≠ 2 → (after (.wrBbad 2 0x22) base).ch c = base.ch c := by decide
/-- V2. -/
theorem test_V2_low_byte_of_A1T :
    ((after (.wrA1tl 7 0x34) (withCh 7 { zero with a1t := 0x12FF })).ch 7).a1t = 0x1234 := by decide
/-- V2. -/
theorem test_V2_high_byte_of_A1T :
    ((after (.wrA1th 7 0x12) (withCh 7 { zero with a1t := 0xFF34 })).ch 7).a1t = 0x1234 := by decide
/-- V2. -/
theorem test_V2_A1T_reads_back : (after (.rdA1tl 7) (withCh 7 { zero with a1t := 0x1234 })).reply = some 0x34 ∧
    (after (.rdA1th 7) (withCh 7 { zero with a1t := 0x1234 })).reply = some 0x12 := by decide
/-- V13. -/
theorem test_V13_banks : ((after (.wrA1b 0 0x01) base).ch 0).a1b = 0x01 ∧
    ((after (.wrDasb 0 0x7E) base).ch 0).dasb = 0x7E := by decide
/-- V13. -/
theorem test_V13_banks_read_back : (after (.rdA1b 0) (withCh 0 { zero with a1b := 0x01 })).reply = some 0x01 ∧
    (after (.rdDasb 0) (withCh 0 { zero with dasb := 0x7E })).reply = some 0x7E := by decide
/-- V12. -/
theorem test_V12_DAS : ((after (.wrDasl 0 0x10) (withCh 0 zero)).ch 0).das = 0x0010 ∧
    ((after (.wrDash 0 0x10) (withCh 0 zero)).ch 0).das = 0x1000 := by decide
/-- V12. -/
theorem test_V12_DAS_reads_back : (after (.rdDasl 0) (withCh 0 { zero with das := 0x0010 })).reply = some 0x10 ∧
    (after (.rdDash 0) (withCh 0 { zero with das := 0x0010 })).reply = some 0x00 := by decide
/-- V14. -/
theorem test_V14_A2A : ((after (.wrA2al 4 0xCD) (withCh 4 { zero with a2a := 0xAB00 })).ch 4).a2a = 0xABCD ∧
    ((after (.wrA2ah 4 0xAB) (withCh 4 { zero with a2a := 0x00CD })).ch 4).a2a = 0xABCD := by decide
/-- V14. -/
theorem test_V14_A2A_reads_back : (after (.rdA2al 4) (withCh 4 { zero with a2a := 0xABCD })).reply = some 0xCD ∧
    (after (.rdA2ah 4) (withCh 4 { zero with a2a := 0xABCD })).reply = some 0xAB := by decide
/-- V10, the write: the channel is not terminated. -/
theorem test_V10_NLTR : ((after (.wrNltr 3 0x00) (withCh 3 { zero with nltr := 0x05 })).ch 3).nltr = 0x00 ∧
    ((after (.wrNltr 3 0x00) (withCh 3 { zero with nltr := 0x05 })).ch 3).done = false := by decide
/-- R133's example, after P4. -/
theorem test_P4_NLTR_reads_back : (after (.rdNltr 3) (withCh 3 { zero with nltr := 0x00 })).reply = some 0x00 := by
  decide
/-- V3. -/
theorem test_V3_UNUSED_is_one_byte : ((after (.wrUnusedF 5 0xA5) base).ch 5).unused = 0xA5 ∧
    ((after (.wrUnusedB 5 0xA5) base).ch 5).unused = 0xA5 := by decide
/-- V3. -/
theorem test_V3_UNUSED_reads_back : (after (.rdUnusedB 5) (withCh 5 { zero with unused := 0xA5 })).reply = some 0xA5 ∧
    (after (.rdUnusedF 5) (withCh 5 { zero with unused := 0xA5 })).reply = some 0xA5 := by decide
/-- V4. -/
theorem test_V4_unmapped_write : ∀ i ∈ [Instr.wrUnmappedC 0 0x77, .wrUnmappedD 0 0x77, .wrUnmappedE 0 0x77],
    (after i base).mdr = 0x77 ∧ (after i base).chans = base.chans := by decide
/-- V4: open bus. -/
theorem test_V4_unmapped_read : ∀ i ∈ [Instr.rdUnmappedC 0, .rdUnmappedD 0, .rdUnmappedE 0],
    (after i { base with mdr := 0x77 }).reply = some 0x77 ∧ (after i { base with mdr := 0x77 }).mdr = 0x77 := by decide
/-- V5. -/
theorem test_V5_masks_are_write_only : (after .rdMdmaen base).reply = some 0x42 ∧
    (after .rdHdmaen base).reply = some 0x42 ∧ (after .rdHdmaen { base with hdmaen := 0xFF }).hdmaen = 0xFF := by decide
/-- V6. -/
theorem test_V6_zero_starts_nothing : ∀ i ∈ [Instr.wrMdmaen 0x00, .mdmaenNone],
    after i base = { base with mdr := 0x00 } := by decide
/-- V7. -/
theorem test_V7_HDMAEN_only_stores : ∀ i ∈ [Instr.wrHdmaen 0xFF, .hdmaenSet 0xFF],
    after i base = { base with hdmaen := 0xFF, mdr := 0xFF } := by decide
/-- V11. -/
theorem test_V11_foreign_write :
    (afterStep { base with pending := [.cpu (.write 0x004380 0x55)] }).chans = base.chans ∧
    (afterStep { base with pending := [.cpu (.write 0x00420A 0x55)] }).mdmaen = 0x00 ∧
    (afterStep { base with pending := [.cpu (.write 0x00420D 0x55)] }).hdmaen = 0x00 := by decide

/-! ### General DMA -/

/-- Channel 0 of section 2.3: five bytes at `7E:1000` to the ports from `bbad` on. -/
def five (bbad : Byte) : State :=
  (withCh 0 { zero with bbad := bbad, a1t := 0x1000, a1b := 0x7E, das := 0x0005 }).place 0x7E 0x1000
    [0xB0, 0xB1, 0xB2, 0xB3, 0xB4]

/-- V20 to V23: the ports of the five bytes. -/
theorem test_V20_to_V23_ports :
    (after (.pat0 0 .busToPort false false false false) (five 0x18)).portWrites =
      [(0x18, 0xB0), (0x18, 0xB1), (0x18, 0xB2), (0x18, 0xB3), (0x18, 0xB4)] ∧
    (after (.pat1 0 .busToPort false false false false) (five 0x18)).portWrites =
      [(0x18, 0xB0), (0x19, 0xB1), (0x18, 0xB2), (0x19, 0xB3), (0x18, 0xB4)] ∧
    (after (.pat2 0 .busToPort false false false false) (five 0x18)).portWrites =
      [(0x18, 0xB0), (0x18, 0xB1), (0x18, 0xB2), (0x18, 0xB3), (0x18, 0xB4)] ∧
    (after (.pat3 0 .busToPort false false false false) (five 0x18)).portWrites =
      [(0x18, 0xB0), (0x18, 0xB1), (0x19, 0xB2), (0x19, 0xB3), (0x18, 0xB4)] := by decide +kernel

/-- V24 to V27: the ports of the five bytes. -/
theorem test_V24_to_V27_ports :
    (after (.pat4 0 .busToPort false false false false) (five 0x18)).portWrites =
      [(0x18, 0xB0), (0x19, 0xB1), (0x1A, 0xB2), (0x1B, 0xB3), (0x18, 0xB4)] ∧
    (after (.pat5 0 .busToPort false false false false) (five 0x18)).portWrites =
      [(0x18, 0xB0), (0x19, 0xB1), (0x18, 0xB2), (0x19, 0xB3), (0x18, 0xB4)] ∧
    (after (.pat6 0 .busToPort false false false false) (five 0x18)).portWrites =
      [(0x18, 0xB0), (0x18, 0xB1), (0x18, 0xB2), (0x18, 0xB3), (0x18, 0xB4)] ∧
    (after (.pat7 0 .busToPort false false false false) (five 0x18)).portWrites =
      [(0x18, 0xB0), (0x18, 0xB1), (0x19, 0xB2), (0x19, 0xB3), (0x18, 0xB4)] := by decide +kernel

/-- V28 and V29: port arithmetic modulo 256. -/
theorem test_V28_V29_port_wraps :
    ((after (.pat1 0 .busToPort false false false false) (five 0xFF)).portWrites.map Prod.fst).take 4 =
      [0xFF, 0x00, 0xFF, 0x00] ∧
    ((after (.pat4 0 .busToPort false false false false) (five 0xFF)).portWrites.map Prod.fst).take 4 =
      [0xFF, 0x00, 0x01, 0x02] := by decide +kernel

/-- V30: one byte, started through the mask's write. -/
theorem test_V30_one_byte :
    acts (.wrMdmaen 0x01) ((withCh 0 { zero with bbad := 0x18, a1t := 0x1000, a1b := 0x7E, das := 0x0001 }).place
      0x7E 0x1000 [0xA0]) = [.charge 8, .read 0x7E1000 0xA0, .write 0x002118 0xA0, .charge 8] ∧
    (after (.wrMdmaen 0x01) (withCh 0 { zero with a1t := 0x1000, a1b := 0x7E, das := 0x0001 })).mdmaen = 0x00 := by
  decide +kernel

/-- V33 through `MDMAEN_START`: a count that is no multiple of the unit. -/
theorem test_V33_partial_unit :
    let t := after (.mdmaenStart 0x01) ((five 0x18).setCh 0 { (five 0x18).ch 0 with dmap := 0x03 })
    t.portWrites.map Prod.fst = [0x18, 0x18, 0x19, 0x19, 0x18] ∧ (t.ch 0).a1t = 0x1005 ∧ (t.ch 0).das = 0 ∧
      t.cycles = 48 := by decide +kernel

/-- V34 and V35: the address wraps in its bank, up and down. -/
theorem test_V34_V35_address_wraps :
    ((after (.wrMdmaen 0x01) (withCh 0 { zero with a1t := 0xFFFF, a1b := 0x7E, das := 2 })).ch 0) =
      { zero with a1t := 0x0001, a1b := 0x7E } ∧
    ((after (.wrMdmaen 0x01) (withCh 0 { zero with dmap := 0x10, a1t := 0x0001, a1b := 0x7E, das := 3 })).ch 0) =
      { zero with dmap := 0x10, a1t := 0xFFFE, a1b := 0x7E } := by decide +kernel

/-- V36 and V37: a fixed address is read every time; `dec` is ignored then. -/
theorem test_V36_V37_fixed :
    accessesOf (after (.wrMdmaen 0x01) (withCh 0 { zero with dmap := 0x18, a1t := 0x1000, a1b := 0x7E, das := 2 })).trace =
      [.read 0x7E1000, .write 0x002100, .read 0x7E1000, .write 0x002100] := by decide +kernel

/-- V60: all of channel 1 before all of channel 7. -/
theorem test_V60_channel_order :
    let r := { zero with a1t := 0x1000, a1b := 0x7E, das := 2 }
    let t := after (.wrMdmaen 0x82) ((withCh 1 { r with bbad := 0x11 }).setCh 7 { r with bbad := 0x77 })
    t.portWrites.map Prod.fst = [0x11, 0x11, 0x77, 0x77] ∧ t.cycles = 48 ∧ t.mdmaen = 0 := by decide +kernel

/-- R153's worked example and R168. -/
theorem test_address_steps :
    ((after (.stepDec 0 .busToPort false false 0) (withCh 0 { zero with a1t := 0x0000 })).ch 0).a1t = 0xFFFF ∧
    ((after (.stepInc 0 .busToPort false false 0) (withCh 0 { zero with a1t := 0xFFFF })).ch 0).a1t = 0x0000 ∧
    ((after (.stepFixed 0 .busToPort false false true 0) (withCh 0 { zero with a1t := 0x1000 })).ch 0).a1t = 0x1000 := by
  decide

/-- V40 and V41. -/
theorem test_V40_V41_bus_to_port :
    acts (.dirBusToPort 0 false false false false 0)
      ((withCh 0 { zero with bbad := 0x18, a1t := 0x1000, a1b := 0x7E }).place 0x7E 0x1000 [0xA0]) =
      [.read 0x7E1000 0xA0, .write 0x002118 0xA0, .charge 8] ∧
    acts (.dirBusToPort 0 false false false false 0)
      { withCh 0 { zero with bbad := 0x18, a1t := 0x4302 } with mdr := 0x5C } =
      [.write 0x002118 0x5C, .charge 8] := by decide

/-- V43 and V44. -/
theorem test_V43_V44_port_to_bus :
    acts (.dirPortToBus 0 false false false false 0)
      { withCh 0 { zero with bbad := 0x39, a1b := 0x7E } with deviceIn := [portAnswers 0x39 0xEE] } =
      [.read 0x002139 0xEE, .write 0x7E0000 0xEE, .charge 8] ∧
    acts (.dirPortToBus 0 false false false false 0)
      { withCh 0 { zero with bbad := 0x39, a1t := 0x420B } with deviceIn := [portAnswers 0x39 0xEE] } =
      [.read 0x002139 0xEE, .charge 8] := by decide

/-- A platform with read-only storage in bank `0x40` and nothing in bank `0x41`. -/
def holes : Platform := { plat with regions := ⟨⟨0x40, 0x40, 0, 0xFFFF⟩, .rom⟩ :: ⟨⟨0x41, 0x41, 0, 0xFFFF⟩, .unmapped⟩ ::
  plat.regions }

/-- V46 and V47: open bus from the Bus; a write absorbed by read-only storage. -/
theorem test_V46_V47_unmapped_and_rom :
    acts (.dirBusToPort 0 false false false false 0)
      { withCh 0 { zero with bbad := 0x18, a1b := 0x41 } with mdr := 0x5C, plat := holes } =
      [.read 0x410000 0x5C, .write 0x002118 0x5C, .charge 8] ∧
    (after (.dirPortToBus 0 false false false false 0)
      { withCh 0 { zero with bbad := 0x39, a1b := 0x40 } with plat := holes, deviceIn := [portAnswers 0x39 0xEE] }).mem = [] := by
  decide

/-- R268 through a port that writes memory, by hand from R151: port `0x80` stores each byte one above the one just read,
so the first byte of the source runs through all of it. -/
theorem test_R268_overlap_is_sequential :
    (after (.wrMdmaen 0x01) { (withCh 0 { zero with bbad := 0x80, a1t := 0x1000, a1b := 0x7E, das := 3 }).place 0x7E 0x1000
        [0xA0, 0xA1, 0xA2] with
      deviceIn := [portStores 0x80 0x7E1001, portStores 0x80 0x7E1002, portStores 0x80 0x7E1003] }).mem =
      [(0x7E1000, 0xA0), (0x7E1001, 0xA0), (0x7E1002, 0xA0), (0x7E1003, 0xA0)] := by decide +kernel

/-! ### HDMA -/

/-- V51: an indirect entry, by the entry request. -/
theorem test_V51_indirect_entry :
    let t := afterStep { (withCh 0 { zero with dmap := 0x40, a1b := 0x02, a2a := 0xA000 }).place 0x02 0xA000
      [0x81, 0x00, 0x30] with alone := some (.entry 0) }
    t.ch 0 = { zero with dmap := 0x40, a1b := 0x02, a2a := 0xA003, nltr := 0x81, das := 0x3000, doTransfer := true } ∧
      t.cycles = 24 := by decide

/-- V52: no pointer after the terminator. -/
theorem test_V52_terminator :
    let t := afterStep { (withCh 0 { zero with dmap := 0x40, a1b := 0x02, a2a := 0xA000, das := 0x5555 }).place
      0x02 0xA000 [0x00, 0x34, 0x12] with alone := some (.entry 0) }
    t.ch 0 = { zero with dmap := 0x40, a1b := 0x02, a2a := 0xA001, das := 0x5555, done := true } ∧ t.cycles = 8 := by
  decide

/-- V53: the table wraps in its bank. -/
theorem test_V53_table_wraps :
    ((afterStep { (withCh 0 { zero with dmap := 0x40, a1b := 0x02, a2a := 0xFFFF }).place 0x02 0xFFFF
      [0x01, 0xCD, 0xAB] with alone := some (.entry 0) }).ch 0) =
      { zero with dmap := 0x40, a1b := 0x02, a2a := 0x0002, nltr := 0x01, das := 0xABCD, doTransfer := true } := by decide

/-- R184, and R186, R187 on direct channels. -/
theorem test_headers_on_direct_channels :
    (after (.hdrTerminate 3) (withCh 3 { zero with nltr := 0x80, doTransfer := true })).ch 3 = { zero with done := true } ∧
    (after (.hdrOnce128 3) (withCh 3 zero)).ch 3 = { zero with nltr := 0x80, doTransfer := true } ∧
    (after (.hdrOnce 3 2) (withCh 3 zero)).ch 3 = { zero with nltr := 0x02, doTransfer := true } ∧
    (after (.hdrRepeat 3 3) (withCh 3 zero)).ch 3 = { zero with nltr := 0x83, doTransfer := true } := by decide

/-- R183's worked example from the header on: the pointer of an indirect entry, low byte first. -/
theorem test_repeat_header_on_an_indirect_channel :
    ((after (.hdrRepeat 0 1) ((withCh 0 { zero with dmap := 0x40, a1b := 0x02, a2a := 0xA001 }).place 0x02 0xA001
      [0x00, 0x30])).ch 0) =
      { zero with dmap := 0x40, a1b := 0x02, a2a := 0xA003, nltr := 0x81, das := 0x3000, doTransfer := true } := by decide

/-- P4 line 0 and P5 line 0: the unit alone. -/
theorem test_units :
    acts (.hdmaDirect 3 .busToPort false false false 2)
      ((withCh 3 { zero with bbad := 0x0D, a1b := 0x01, a2a := 0x9001 }).place 0x01 0x9001 [0x11, 0x22]) =
      [.read 0x019001 0x11, .write 0x00210D 0x11, .charge 8, .read 0x019002 0x22, .write 0x00210D 0x22, .charge 8] ∧
    acts (.hdmaIndirect 0 .busToPort false false false 1)
      ((withCh 0 { zero with bbad := 0x26, das := 0x3000, dasb := 0x7E }).place 0x7E 0x3000 [0xD0, 0xD1]) =
      [.read 0x7E3000 0xD0, .write 0x002126 0xD0, .charge 8, .read 0x7E3001 0xD1, .write 0x002127 0xD1, .charge 8] := by
  decide

/-- V54: no channel enabled. -/
theorem test_V54_frame_start_with_nothing_enabled :
    after .evHdmainit ((withCh 5 { zero with done := true }).setCh 2 { zero with doTransfer := true }) =
      (withCh 5 zero).setCh 2 zero := by decide

/-- V55. -/
theorem test_V55_frame_start :
    let s := ((withCh 0 { zero with a1b := 0x7E, a1t := 0x4000 }).setCh 7 { zero with a1b := 0x7E, a1t := 0x5000 }).setCh 3
      { zero with done := true }
    let t := after .evHdmainit (({ s with hdmaen := 0x81 }).place 0x7E 0x5000 [0x81])
    t.actions = [.charge 18, .read 0x7E4000 0x00, .charge 8, .read 0x7E5000 0x81, .charge 8] ∧
    t.ch 0 = { zero with a1b := 0x7E, a1t := 0x4000, a2a := 0x4001, done := true } ∧
    t.ch 7 = { zero with a1b := 0x7E, a1t := 0x5000, a2a := 0x5001, nltr := 0x81, doTransfer := true } ∧
    t.ch 3 = zero := by decide

/-- V58: port to bus, direct, pattern 3. -/
theorem test_V58_line_from_ports :
    let r := { zero with dmap := 0x83, bbad := 0x3B, a1b := 0x7E, a2a := 0x2001, nltr := 0x82, doTransfer := true }
    let s := withCh 2 r
    let t := after .evHdmaline { s with hdmaen := 0x04, deviceIn := [portAnswers 0x3B 1, portAnswers 0x3B 2, portAnswers 0x3C 3, portAnswers 0x3C 4] }
    t.mem = [(0x7E2001, 1), (0x7E2002, 2), (0x7E2003, 3), (0x7E2004, 4)] ∧ (t.ch 2).a2a = 0x2005 ∧
      (t.ch 2).nltr = 0x81 ∧ (t.ch 2).doTransfer = true ∧ t.cycles = 18 + 32 := by decide +kernel

/-- P6 line 0: channel 1's transfer comes before channel 0's table fetch. -/
theorem test_P6_pass_order :
    let s := (withCh 0 { zero with bbad := 0x21, a1b := 0x7E, a2a := 0x4001, nltr := 0x01, doTransfer := true }).setCh 1
      { zero with bbad := 0x22, a1b := 0x7E, a2a := 0x5001, nltr := 0x82, doTransfer := true }
    let t := after .evHdmaline ((({ s with hdmaen := 0x03 }).place 0x7E 0x4001 [0xAA, 0x01]).place 0x7E 0x5001 [0xBA])
    t.actions = [.charge 18, .read 0x7E4001 0xAA, .write 0x002121 0xAA, .charge 8, .read 0x7E5001 0xBA,
      .write 0x002122 0xBA, .charge 8, .read 0x7E4002 0x01, .charge 8] := by decide +kernel

/-! ### Reset -/

/-- V64. -/
theorem test_V64_soft_reset_keeps_the_registers :
    let r := { zero with dmap := 0x02, bbad := 0x0D, a1t := 0x9000, a1b := 0x01, a2a := 0x900B, done := true }
    after (.evReset .soft) { withCh 3 r with hdmaen := 0x08 } = withCh 3 { r with done := false } := by decide

/-- V63. -/
theorem test_V63_power_on_reset :
    let t := after (.evReset .powerOn) { withCh 3 { zero with done := true, doTransfer := true } with hdmaen := 0x08 }
    t.hdmaen = 0x00 ∧ (t.ch 3).done = false ∧ (t.ch 3).doTransfer = false ∧ t.cycles = 0 ∧ t.trace = [] := by decide

/-- V66: nothing happens after a Reset until a register write. -/
theorem test_V66_idle_after_reset : ∀ i ∈ [Instr.evHdmainit, .evHdmaline],
    let t := after (.evReset .soft) { withCh 3 { zero with nltr := 0x82, doTransfer := true } with hdmaen := 0x08 }
    after i t = t := by decide

/-! ### The CPU and the Bus -/

/-- R270: right after a general DMA an unmapped address and a write-only register give the last byte it moved. -/
theorem test_R270_open_bus_after_a_dma :
    let s : State := { five 0x18 with plat := holes }
    let t := afterStep { s with pending := [.cpu (.write 0x00420B 0x01), .cpu (.read 0x410000), .cpu (.read 0x80420B)] }
    (afterStep t).reply = some 0xB4 ∧ (afterStep (afterStep t)).reply = some 0xB4 := by decide +kernel

/-- R73 and R80: the engine's offset in a bank that is not routed to it is storage, and a byte the CPU stores there is
the byte a table fetch finds. -/
theorem test_R80_table_fetch_finds_what_the_cpu_stored :
    let t := afterStep { withCh 7 { zero with a1b := 0x7E, a2a := 0x420B } with pending := [.cpu (.write 0x7E420B 0x83)] }
    t.mdmaen = 0x00 ∧ (tableByte 7 t).1 = 0x83 := by decide

/-! ### Construction and restore reject what is ill-formed (R82, R232 c) -/

/-- A component that claims the engine's `MDMAEN`, two that claim one port, and the default platform. -/
theorem test_platform_owners :
    base.build { plat with regions := [⟨⟨0x00, 0x00, 0x4200, 0x420B⟩, .ram⟩] } = none ∧
    base.build { plat with regions := ⟨⟨0x00, 0x3F, 0x2180, 0x2183⟩, .ram⟩ :: plat.regions } = none ∧
    base.build plat = some base := by decide

/-- One byte short, one too many, and a flag byte with a bit no engine has. -/
theorem test_restore_rejects :
    base.restore (base.serialize.take 105) = none ∧ base.restore (base.serialize ++ [0]) = none ∧
    base.restore (base.serialize.set 14 0x01) = none ∧ base.restore base.serialize = some base := by decide +kernel

/-! ### A witness for the hypotheses of every statement that has some, at the boundaries of its clauses -/

/-- Channel `c` enabled, not done, with the counter `n` and a data transfer due, and `k` scanlines waiting. -/
def running (c : Channel) (n : Byte) (k : Nat) : State :=
  let s := withCh c { zero with dmap := 0x40, nltr := n, doTransfer := true }
  { s with hdmaen := 0xFF, pending := List.replicate k (.event .hdmaLine) ++ [.event .hdmaInit] }

theorem witness_StepKeepsTheInvariant :
    ({ five 0x18 with pending := [.cpu (.write 0x00420B 0x01)] } : State).Inv ∧
    ({ base with pending := [.cpu (.read 0x00420B)] } : State).Inv := by decide

theorem witness_StepKeepsTheInvariant_step :
    step { base with pending := [.cpu (.read 0x00420B)] } =
      .next (afterStep { base with pending := [.cpu (.read 0x00420B)] }) := rfl

theorem witness_NoStepStops : base.alone = none ∧ base.pending = [] := ⟨rfl, rfl⟩

theorem witness_StepRunsTheDecodedInstruction :
    ({ base with pending := [.cpu (.write 0x004370 0x81), .event .hdmaLine] } : State).pending =
      .cpu (.write 0x004370 0x81) :: [.event .hdmaLine] ∧
    base.alone = none ∧ decode (.regWrite (offsetOf 0x004370) 0x81) = .ok (.wrDmap 7 0x81) ∧
    routedToEngine base.plat 0x004370 = true ∧ routedToEngine base.plat 0x00420B = true ∧
    ({ base with pending := [.cpu (.read 0x00420B)] } : State).pending = .cpu (.read 0x00420B) :: [] ∧
    decode (.regRead (offsetOf 0x00420B)) = .ok .rdMdmaen ∧
    ({ base with pending := [.event .hdmaLine] } : State).pending = .event .hdmaLine :: [] ∧
    decode (.event .hdmaLine) = .ok .evHdmaline ∧
    ({ base with alone := some (.mask .hdmaen 0x80) } : State).alone = some (.mask .hdmaen 0x80) ∧
    decode (.mask .hdmaen 0x80) = .ok (.hdmaenSet 0x80) ∧
    ({ withCh 7 zero with alone := some (.control 7 .pattern) } : State).alone = some (.control 7 .pattern) ∧
    decode (.dmap .pattern 7 ((withCh 7 zero).ch 7).dmap) = .ok (.pat0 7 .busToPort false false false false) ∧
    ({ base with alone := some (.entry 7) } : State).alone = some (.entry 7) := by decide

/-- Addresses the Bus does not route to the engine, the offsets next to its own and its own offset in another bank; and,
on a platform that may not be built, an offset routed to the engine that is not its own. The read clauses: storage and
nothing. -/
theorem witness_ForeignOffsetLeavesTheEngine :
    routedToEngine base.plat 0x004380 = false ∧ routedToEngine base.plat 0x00420A = false ∧
    routedToEngine base.plat 0x7E420B = false ∧ regionKind base.plat 0x7E420B = .ram ∧ Memory.wf base.mem ∧
    (routedToEngine { plat with enginePort := [⟨0, 0, 0x4200, 0x420B⟩] } 0x004200 = true ∧
      decode (.regWrite (offsetOf 0x004200) 0x55) = .error (.notEngineWrite 0x4200 0x55)) ∧
    decode (.regRead (offsetOf 0x0042FF)) = .error (.notEngineRead 0x42FF) ∧
    isStorage base.plat 0x0042FF = true ∧ regionKind holes 0x410000 = .unmapped ∧
    routedToEngine holes 0x410000 = false ∧ base.alone = none ∧
    ({ base with pending := [.cpu (.write 0x004380 0x55)] } : State).pending = .cpu (.write 0x004380 0x55) :: [] ∧
    ({ base with pending := [.cpu (.read 0x410000)] } : State).pending = .cpu (.read 0x410000) :: [] := by decide

theorem witness_StepServesOneRequest :
    step { base with pending := [.cpu (.write 0x00420C 0x80), .cpu (.read 0x00420B)] } =
      .next { base with hdmaen := 0x80, mdr := 0x80, pending := [.cpu (.read 0x00420B)] } := rfl

/-- The two other clauses: a part that waits, and the three engine steps. -/
theorem witness_StepServesOneRequest_clauses :
    base.alone = none ∧ ({ base with alone := some (.mask .hdmaen 0x80) } : State).alone ≠ none ∧
    (routedToEngine (five 0x18).plat 0x00420B = true ∧ offsetOf 0x00420B = 0x420B) ∧
    (afterStep { five 0x18 with pending := [.cpu (.write 0x00420B 0x01)] }).trace ≠ (five 0x18).trace ∧
    (afterStep { base with hdmaen := 0x80, pending := [.event .hdmaInit] }).trace ≠ base.trace ∧
    (afterStep { running 7 0x82 0 with pending := [.event .hdmaLine] }).trace ≠ base.trace := by decide +kernel

theorem witness_DecodeInvertsEncode :
    (∀ i ∈ [Instr.mdmaenStart 0x01, .mdmaenStart 0xFF, .hdrOnce 7 1, .hdrOnce 7 0x7F, .hdrRepeat 0 1, .hdrRepeat 0 0x7F],
      i.wellFormed = true) := by decide

theorem witness_EncodeInvertsDecode :
    decode (.regRead 0x437F) = .ok (.rdUnusedF 7) ∧ decode (.hdr 7 0x81) = .ok (.hdrRepeat 7 1) := by decide

theorem witness_DecoderOwnsExactlyItsOffsets :
    (∃ i, decode (.regWrite 0x4300 0x00) = .ok i) ∧ (∃ i, decode (.regRead 0x437F) = .ok i) :=
  ⟨⟨.wrDmap 0 0, rfl⟩, ⟨.rdUnusedF 7, rfl⟩⟩

theorem witness_RegisterOffsetsFollowTheTable :
    (0x4380 ≤ (0x4380 : Offset).toNat ∧ (0x4380 : Offset).toNat ≤ 0x43FF) ∧
    (0x4380 ≤ (0x43FF : Offset).toNat ∧ (0x43FF : Offset).toNat ≤ 0x43FF) := by decide

/-- The headers where the clauses meet, each in its clause, and the row of 95_test_vectors.md or R95 for it. -/
theorem witness_HeaderAndMaskRowsFollowTheirOrder :
    decode (.hdr 0 0x00) = .ok (.hdrTerminate 0) ∧ decode (.hdr 0 0x01) = .ok (.hdrOnce 0 1) ∧
    decode (.hdr 0 0x7F) = .ok (.hdrOnce 0 0x7F) ∧ decode (.hdr 0 0x80) = .ok (.hdrOnce128 0) ∧
    decode (.hdr 0 0x81) = .ok (.hdrRepeat 0 1) ∧ decode (.hdr 0 0xFF) = .ok (.hdrRepeat 0 0x7F) ∧
    (0x01 : Byte) ≠ 0x00 := by decide

theorem witness_UnmappedOffsets : Instr.wrUnmappedE 7 0xFF ∈ [Instr.wrUnmappedC 7 0xFF, .wrUnmappedD 7 0xFF,
    .wrUnmappedE 7 0xFF] := by decide

theorem witness_ReadBackThroughThePort :
    ((0x0 : BitVec 4).toNat < 0xC ∧ decode (.regWrite (regOffset 0 0x0) 0x81) = .ok (.wrDmap 0 0x81) ∧
      decode (.regRead (regOffset 0 0x0)) = .ok (.rdDmap 0)) ∧
    ((0xB : BitVec 4).toNat < 0xC ∧ decode (.regWrite (regOffset 7 0xB) 0x81) = .ok (.wrUnusedB 7 0x81) ∧
      decode (.regRead (regOffset 7 0xB)) = .ok (.rdUnusedB 7)) ∧
    ((0xF : BitVec 4).toNat = 0xF ∧ decode (.regWrite (regOffset 7 0xF) 0x81) = .ok (.wrUnusedF 7 0x81) ∧
      decode (.regRead (regOffset 7 0xF)) = .ok (.rdUnusedF 7)) := by decide

/-- The write clauses: another bank, another offset, the start mask with zero, the start mask with a bit. The read
clauses: the two masks, the three unmapped offsets, an address where nothing answers. -/
theorem witness_MdrAfterRegisterAccess :
    routedToEngine base.plat 0x7E420B = false ∧ offsetOf 0x00420C ≠ 0x420B ∧
    (routedToEngine base.plat 0x00420B = true ∧ offsetOf 0x00420B = 0x420B ∧ (0x01 : Byte) ≠ 0x00) ∧
    base.alone = none ∧
    ({ base with pending := [.cpu (.write 0x00420B 0x01), .cpu (.read 0x410000)] } : State).pending =
      .cpu (.write 0x00420B 0x01) :: .cpu (.read 0x410000) :: [] ∧
    (readsOpenBus holes 0x00420B ∧ readsOpenBus holes 0x80420C ∧ readsOpenBus holes 0x00430C ∧
      readsOpenBus holes 0x00431D ∧ readsOpenBus holes 0x3F437E ∧ readsOpenBus holes 0x410000) ∧
    ¬ readsOpenBus holes 0x400000 :=
  ⟨by decide, by decide, by decide, rfl, rfl,
    ⟨.inl rfl, .inr (.inl rfl), .inr (.inr ⟨0, .inl rfl⟩), .inr (.inr ⟨1, .inr (.inl rfl)⟩),
      .inr (.inr ⟨7, .inr (.inr rfl)⟩), rfl⟩, fun h => nomatch h⟩

theorem witness_HdmaenWriteAndRead : Instr.hdmaenSet 0x81 ∈ [Instr.wrHdmaen 0x81, .hdmaenSet 0x81] := by decide

theorem witness_MdmaenZeroAndRead : Instr.mdmaenNone ∈ [Instr.wrMdmaen 0x00, .mdmaenNone] := by decide

theorem witness_RegisterAccessesMakeNoBusAccess :
    (decode (.regWrite 0x420B 0x00) = .ok (.wrMdmaen 0x00) ∧ ((0x420B : Offset) = 0x420B → (0x00 : Byte) = 0x00)) ∧
    (decode (.regWrite 0x437F 0x55) = .ok (.wrUnusedF 7 0x55) ∧ ((0x437F : Offset) = 0x420B → (0x55 : Byte) = 0x00)) ∧
    decode (.regRead 0x420B) = .ok .rdMdmaen := by decide

/-- Channel 0 increments, channel 1 decrements, channel 7 is fixed (and `dec` set); channel 2 is not started. -/
theorem witness_StartMaskCompletesItsChannels :
    let s := ((withCh 0 zero).setCh 1 { zero with dmap := 0x10 }).setCh 7 { zero with dmap := 0x18 }
    (0x83 : Byte) ≠ 0x00 ∧ Instr.mdmaenStart 0x83 ∈ [Instr.wrMdmaen 0x83, .mdmaenStart 0x83] ∧
    maskBit 0x83 0 = true ∧ ctrlFix (s.ch 0).dmap = false ∧ ctrlDec (s.ch 0).dmap = false ∧
    maskBit 0x83 1 = true ∧ ctrlFix (s.ch 1).dmap = false ∧ ctrlDec (s.ch 1).dmap = true ∧
    maskBit 0x83 7 = true ∧ ctrlFix (s.ch 7).dmap = true ∧ maskBit 0x83 2 = false := by decide

/-- R219's scenario: 16 bytes at costs of 8 and 8. -/
theorem witness_StartMaskCost :
    let s := withCh 7 { zero with das := 16 }
    ((0x01 : Byte) ≠ 0x00 ∧ Instr.wrMdmaen 0x01 ∈ [Instr.wrMdmaen 0x01, .mdmaenStart 0x01]) ∧
    (s.ch 7).das = 16 ∧ s.plat.setupCost = 8 ∧ s.plat.unitCost = 8 := by decide

theorem witness_StartMaskCost_next :
    exec (.wrMdmaen (1#8 <<< (7 : Channel).val)) (withCh 7 { zero with das := 16 }) =
      .next (after (.wrMdmaen 0x80) (withCh 7 { zero with das := 16 })) := rfl

theorem witness_StartMaskServesChannelsInOrder :
    (0x82 : Byte) ≠ 0x00 ∧ Instr.mdmaenStart 0x82 ∈ [Instr.wrMdmaen 0x82, .mdmaenStart 0x82] ∧
    Access.write 0x7E0000 ∉ accessesOf (after (.wrMdmaen 0x01) (five 0x18)).trace := by decide +kernel

theorem witness_EnabledChannelRunsItsPatternRow :
    decode (.dmap .pattern 7 ((withCh 7 { zero with dmap := 0x83 }).ch 7).dmap) =
      .ok (.pat3 7 .portToBus false false false false) := by decide

/-- The second state differs in everything R169 lists. -/
theorem witness_GeneralDmaIgnoresHdmaState :
    let s := five 0x18
    let q := { s.ch 0 with dmap := 0x60, dasb := 1, a2a := 2, nltr := 3, unused := 4, doTransfer := true, done := true }
    let s' := { (s.setCh 0 q).setCh 1 zero with hdmaen := 0xFF }
    (0x01 : Byte) ≠ 0x00 ∧ State.sameOutside s s' ∧
    (∀ c, maskBit 0x01 c = true → (s.ch c).bbad = (s'.ch c).bbad ∧ (s.ch c).a1t = (s'.ch c).a1t ∧
      (s.ch c).a1b = (s'.ch c).a1b ∧ (s.ch c).das = (s'.ch c).das ∧
      ctrlDir (s.ch c).dmap = ctrlDir (s'.ch c).dmap ∧ ctrlDec (s.ch c).dmap = ctrlDec (s'.ch c).dmap ∧
      ctrlFix (s.ch c).dmap = ctrlFix (s'.ch c).dmap ∧ ctrlPat (s.ch c).dmap = ctrlPat (s'.ch c).dmap) ∧
    maskBit 0x01 1 = false := by decide +kernel

theorem witness_PatternRowsRunTheChannel :
    Access.write 0x7E1000 ∉ accessesOf (after (.pat3 0 .busToPort true true false false) (five 0xFF)).trace := by
  decide +kernel

theorem witness_GeneralDmaMovesBytesUnchanged :
    ∀ k < byteCount ((five 0x18).ch 0).das, aSideBlocked (five 0x18).plat (busAddr ((five 0x18).ch 0).a1b
      (offsetAfter false false ((five 0x18).ch 0).a1t k)) = false := by decide +kernel

/-- Both directions, the A side blocked and not. -/
theorem witness_DirectionRowsMoveOneByte :
    let s := withCh 0 { zero with a1b := 0x7E }
    let b := withCh 0 { zero with a1t := 0x437F }
    aSideBlocked s.plat (busAddr (s.ch 0).a1b (s.ch 0).a1t) = false ∧
    aSideBlocked b.plat (busAddr (b.ch 0).a1b (b.ch 0).a1t) = true ∧
    (0x7E0000 : Addr) ≠ portAddr ((s.ch 0).bbad + (pattern 0).getD 0 0) ∧ (0x7E0001 : Addr) ≠ 0x7E0000 ∧
    Memory.wf s.mem := by decide

theorem witness_EntryRequestLoadsTheEntry :
    ({ withCh 7 { zero with dmap := 0x40, a2a := 0xFFFF } with alone := some (.entry 7) } : State).alone = some (.entry 7) := rfl

theorem witness_LineHeadersStartTheirEntry :
    (∀ h ∈ [(0x01 : Byte), 0x7F, 0x80, 0x81, 0xFF], h ≠ 0x00) ∧ ctrlInd ((withCh 0 zero).ch 0).dmap = false ∧
    ctrlInd ((withCh 0 { zero with dmap := 0x40 }).ch 0).dmap = true := by decide

theorem witness_AddressingRowsMoveOneUnit :
    Access.write 0x7E0000 ∉ accessesOf (after (addressingRow false 0 .busToPort false false false 7) (five 0xFF)).trace ∧
    Access.write 0x7E0000 ∉ accessesOf (after (addressingRow true 0 .portToBus false false false 7)
      { withCh 0 { zero with das := 0xFFFE, dasb := 0x7F } with
        deviceIn := [portAnswers 0x00 1, portAnswers 0x00 2, portAnswers 0x01 3, portAnswers 0x01 4] }).trace := by decide +kernel

/-- The units of both modes, and the pass of a line, with no blocked address. -/
theorem witness_unblocked_units :
    (∀ k < unitSize 7, aSideBlocked base.plat (busAddr 0x7E (0x1000 + BitVec.ofNat 16 k)) = false) ∧
    (let s := withCh 7 { zero with dasb := 0x7E, dmap := 0x40, nltr := 0x82, doTransfer := true }
     let t := { s with hdmaen := 0x80 }
     ∀ c, active c t = true → (t.ch c).doTransfer = true → ∀ k < unitSize (ctrlPat (t.ch c).dmap),
      aSideBlocked t.plat (dataAddr (ctrlInd (t.ch c).dmap) (unitAfter (ctrlInd (t.ch c).dmap) k (t.ch c))) = false) := by
  decide +kernel

theorem witness_FrameStartLoadsEveryEnabledChannel :
    base.hdmaen = 0x00 ∧ maskBit base.hdmaen 0 = false ∧ ({ base with hdmaen := 0x80 } : State).hdmaen ≠ 0x00 ∧
    maskBit ({ base with hdmaen := 0x80 } : State).hdmaen 7 = true := by decide

theorem witness_ScanlineIsTwoPasses :
    (∀ c, active c base = false) ∧ (∃ c, active c (running 7 0x81 1) = true) ∧
    active 7 { running 7 0x81 1 with hdmaen := 0x7F } = false ∧ active 0 { running 7 0x81 1 with hdmaen := 0x7F } = true := by
  decide

/-- Every clause: a counter that steps, the two that reload, and the two that wrap. -/
theorem witness_LineCounter :
    (∀ n ∈ [(0x01 : Byte), 0x81, 0x80, 0x00, 0x02, 0xFF], active 7 (running 7 n 1) = true ∧
      ((running 7 n 1).ch 7).nltr = n) ∧
    (∀ n ∈ [(0x80 : Byte), 0x00, 0x02, 0xFF], n - 1 ≠ 0x00 ∧ n - 1 ≠ 0x80) := by decide

theorem witness_HdmaNeverWritesProgrammedRegisters :
    (Instr.evHdmainit = .evHdmainit ∨ Instr.evHdmainit = .evHdmaline) ∧
    (Instr.evHdmaline = .evHdmainit ∨ Instr.evHdmaline = .evHdmaline) ∧
    maskBit ({ running 7 0x81 1 with hdmaen := 0x80 } : State).hdmaen 0 = false ∧
    ctrlInd ((running 7 0x81 1).ch 0).dmap = true ∧ ctrlInd ((withCh 0 zero).ch 0).dmap = false := by decide

/-- Channel 3 with a stale counter that steps (`0x05`), and channel 7 with ones that run out. -/
theorem witness_EnabledInMidFrame :
    (∀ n ∈ [(0x05 : Byte), 0x00, 0x01, 0x81], maskBit (withCh 3 { zero with nltr := n }).hdmaen 3 = false) ∧
    maskBit 0x08 3 = true ∧ ((0x05 : Byte) - 1 ≠ 0x00 ∧ (0x05 : Byte) - 1 ≠ 0x80) ∧
    ((0x00 : Byte) - 1 ≠ 0x00 ∧ (0x00 : Byte) - 1 ≠ 0x80) ∧ (0x01 : Byte) - 1 = 0x00 ∧ (0x81 : Byte) - 1 = 0x80 := by
  decide

/-- The shortest and the longest entry, at its first, its last but one and its last line. -/
theorem witness_OnceEntryLasts :
    ∀ x ∈ [((0x01 : Byte), 1), (0x02, 1), (0x02, 2), (0x80, 1), (0x80, 127), (0x80, 128)],
      let s := running 7 x.1 x.2
      maskBit s.hdmaen 7 = true ∧ (s.ch 7).done = false ∧ (s.ch 7).doTransfer = true ∧ 0x01 ≤ (s.ch 7).nltr.toNat ∧
        (s.ch 7).nltr.toNat ≤ 0x80 ∧ 1 ≤ x.2 ∧ x.2 ≤ (s.ch 7).nltr.toNat ∧
        s.alone = none ∧ s.pending = List.replicate x.2 (.event .hdmaLine) ++ [.event .hdmaInit] := by decide +kernel

/-- The shortest and the longest entry, at its first, its last but one and its last line. -/
theorem witness_RepeatEntryLasts :
    ∀ x ∈ [((0x81 : Byte), 1), (0x82, 1), (0x82, 2), (0xFF, 1), (0xFF, 126), (0xFF, 127)],
      let s := running 7 x.1 x.2
      maskBit s.hdmaen 7 = true ∧ (s.ch 7).done = false ∧ (s.ch 7).doTransfer = true ∧ 0x81 ≤ (s.ch 7).nltr.toNat ∧
        1 ≤ x.2 ∧ x.2 ≤ (s.ch 7).nltr.toNat - 0x80 ∧
        s.alone = none ∧ s.pending = List.replicate x.2 (.event .hdmaLine) ++ [.event .hdmaInit] := by decide +kernel

theorem witness_DoneChannelIsSkipped :
    let s := (running 0 0x81 3).setCh 7 { zero with done := true }
    (s.ch 7).done = true ∧ s.alone = none ∧ s.pending = List.replicate 3 (.event .hdmaLine) ++ [.event .hdmaInit] := by decide

/-- A byte neither written nor named by the device act that waits, and one that the act names. -/
theorem witness_ActionsAccountForTheBus :
    let s := { five 0x18 with deviceIn := [portStores 0x18 0x7E2000] }
    Access.write 0x7E1000 ∉ accessesOf (after (.wrMdmaen 0x01) s).trace ∧ ¬ s.deviceStores 0x7E1000 ∧
    s.deviceStores 0x7E2000 ∧ Memory.wf s.mem := by decide +kernel

theorem witness_OnlySoftwareChangesProgrammedRegisters :
    exec (.wrDasb 7 0x7E) base = .next (after (.wrDasb 7 0x7E) base) ∧
    ¬ ChannelRegs.sameFixed ((after (.wrDasb 7 0x7E) base).ch 7) (base.ch 7) := ⟨rfl, by decide⟩

theorem witness_OnlySoftwareChangesHdmaen :
    exec (.wrHdmaen 0x80) base = .next (after (.wrHdmaen 0x80) base) ∧
    (after (.wrHdmaen 0x80) base).hdmaen ≠ base.hdmaen ∧
    exec (.evReset .soft) { base with hdmaen := 0x80 } = .next (after (.evReset .soft) { base with hdmaen := 0x80 }) ∧
    (after (.evReset .soft) { base with hdmaen := 0x80 }).hdmaen ≠ ({ base with hdmaen := 0x80 } : State).hdmaen :=
  ⟨rfl, by decide, rfl, by decide⟩

/-- A terminator at a frame start sets the flag; the next frame start and a Reset clear it. -/
theorem witness_DoneIsSetAndClearedAsTold :
    let s := { withCh 7 zero with hdmaen := 0x80 }
    let d := { withCh 0 { zero with done := true } with hdmaen := 0x80 }
    ((s.ch 7).done = false ∧ ((after .evHdmainit s).ch 7).done = true) ∧
    ((s.ch 7).done = false ∧ ((after (.hdrTerminate 7) s).ch 7).done = true) ∧
    ((d.ch 0).done = true ∧ ((after .evHdmainit d).ch 0).done = false) ∧
    ((d.ch 0).done = true ∧ ((after (.evReset .soft) d).ch 0).done = false) := by decide

theorem witness_DoneIsSetAndClearedAsTold_next (s : State) : ∀ i ∈ [Instr.evHdmainit, .hdrTerminate 7, .evReset .soft],
    exec i s = .next (after i s) := by
  simp only [List.mem_cons, List.not_mem_nil, or_false, forall_eq_or_imp, forall_eq]
  exact ⟨rfl, rfl, rfl⟩

/-- Two states with other costs, another counter and another trace. -/
theorem witness_EngineIgnoresTheCosts :
    let s := five 0x18
    let s' := { s with cycles := 99, trace := [.charge 1], plat := { plat with unitCost := 1, setupCost := 0 } }
    State.sameButCosts s s' := by decide +kernel

theorem witness_NoStepWritesTheEnginesRegisters : platformOk Config.defaultPlatform := by decide

theorem witness_NoStepWritesTheEnginesRegisters_step :
    step { State.reset with pending := [.event .hdmaLine] } =
      .next (afterStep { State.reset with pending := [.event .hdmaLine] }) := rfl

theorem witness_BusPrimitives :
    Memory.wf (five 0x18).mem ∧ regionKind holes 0x7E0000 = .ram ∧ isStorage holes 0x7E0000 = true ∧
    regionKind holes 0x400000 = .rom ∧ isStorage holes 0x400000 = true ∧ regionKind holes 0x41FFFF = .unmapped := by
  decide

theorem witness_BusPrimitives_device :
    let s := { base with deviceIn := [portAnswers 0x39 0xEE, portStores 0x80 0x7E2000] }
    regionKind s.plat 0x002139 = .device ∧ takeAct 0x002138 s.deviceIn = none ∧
    takeAct 0x002139 s.deviceIn = some (portAnswers 0x39 0xEE, [portStores 0x80 0x7E2000]) ∧
    (portAnswers 0x39 0xEE).answer = some 0xEE ∧ (portStores 0x80 0x7E2000).stores = [(0x7E2000, none)] ∧
    takeAct 0x002180 s.deviceIn = some (portStores 0x80 0x7E2000, [portAnswers 0x39 0xEE]) ∧
    ¬ s.deviceStores 0x7E2001 ∧ Memory.wf s.mem := by decide

/-- Different states may share their bytes: what the engine does not hold is not in them. -/
theorem witness_SaveStateRoundTrip :
    base.serialize = ({ base with mdr := 0x00 } : State).serialize ∧ ([] : List Byte).length ≠ base.serialize.length ∧
    (base.serialize ++ [0]).length ≠ base.serialize.length := by decide

/-- Each way to be ill-formed: another owner, two owners of one address, an offset that is not the engine's, no block. -/
theorem witness_IllFormedPlatformIsRejected :
    let w : Window := ⟨0x00, 0x00, 0x4200, 0x420B⟩
    let r : Region := ⟨⟨0x00, 0x3F, 0x21FF, 0x2200⟩, .ram⟩
    let q : Region := ⟨⟨0x00, 0x00, 0x2100, 0x21FF⟩, .device⟩
    (Region.mk w .ram ∈ [Region.mk w .ram] ∧ windowHolds 0x00420B w = true ∧ routedToEngine plat 0x00420B = true) ∧
    (r :: plat.regions = [] ++ r :: [] ++ q :: [] ∧ windowHolds 0x0021FF r.window = true ∧
      windowHolds 0x0021FF q.window = true) ∧
    (routedToEngine { plat with enginePort := [w] } 0x004200 = true ∧
      decode (.regWrite (offsetOf 0x004200) 0) = .error (.notEngineWrite 0x4200 0)) ∧
    (routedToEngine { plat with blocked := [] } 0x00437F = true ∧
      aSideBlocked { plat with blocked := [] } 0x00437F = false) ∧
    base.build plat = some base := by decide

end Sys2Proof.Tests
end

section
/-! What an instruction and a step can do. -/

namespace Sys2Proof.Machine

/-! ### What an instruction can do -/

theorem sameOutside_refl (s : State) : State.sameOutside s s := ⟨rfl, rfl, rfl, rfl, rfl, rfl, rfl, rfl⟩

theorem writeMdmaen_start {v : Byte} (s : State) (hv : v ≠ 0x00) : writeMdmaen v s = runDma (storeMdmaen v s) :=
  if_neg hv

/-- Instruction `i` takes `s` to `t`: first the register access itself, to `u` (`u = s` for what is no access), which
leaves everything outside the engine and puts its byte on the bus; then the actions `l`, the newest first. -/
structure InstrRun (i : Instr) (s u t : State) (l : List Action) : Prop where
  outcome : exec i s = .next t
  port : State.sameOutside s u
  driven : u.mdr = drivenFirst i s t
  run : EngineRun u t l

/-- An instruction that only is a register access. -/
theorem instrRun_of_port {i : Instr} {s t : State} (he : exec i s = .next t) (hp : State.sameOutside s t)
    (hd : t.mdr = drivenFirst i s t) : ∃ u t l, InstrRun i s u t l :=
  ⟨t, t, [], he, hp, hd, engineRun_refl t⟩

/-- An instruction that is no register access. -/
theorem instrRun_of_engine {i : Instr} {s t : State} (he : exec i s = .next t) (hd : s.mdr = drivenFirst i s t)
    (hr : ∃ l, EngineRun s t l) : ∃ u t l, InstrRun i s u t l :=
  let ⟨l, hl⟩ := hr
  ⟨s, t, l, he, sameOutside_refl s, hd, hl⟩

/-- A byte written to `MDMAEN` is stored; then the general DMA runs (R121, R150). -/
theorem instrRun_of_start {i : Instr} {s : State} (m : Byte) (he : exec i s = .next (runDma (storeMdmaen m s)))
    (hd : m = drivenFirst i s (runDma (storeMdmaen m s))) : ∃ u t l, InstrRun i s u t l :=
  let ⟨l, hl, _⟩ := runDma_spec (storeMdmaen m s)
  ⟨storeMdmaen m s, _, l, he, sameOutside_refl s, hd, hl⟩

theorem runChannel_run (pat : List Byte) (d : Dir) (z f : Bool) (c : Channel) (s : State) :
    ∃ l, EngineRun s (runChannel pat d z f c s) l :=
  let ⟨l, hl, _⟩ := runChannel_spec pat d z f c s
  ⟨l, hl⟩

theorem hdmaUnit_run (d : Dir) (ind : Bool) (p : BitVec 3) (c : Channel) (s : State) :
    ∃ l, EngineRun s (hdmaUnit d ind p c s) l :=
  let ⟨l, hl, _⟩ := hdmaUnit_spec d ind p c s
  ⟨l, hl.run⟩

theorem takeLines_run (c : Channel) (h : Byte) (s : State) : ∃ l, EngineRun s (takeLines c h s) l :=
  let ⟨_, _, l, hl, _⟩ := takeLines_spec c h s
  ⟨l, hl.run⟩

theorem hdmaInit_run (s : State) : ∃ l, EngineRun s (hdmaInit s) l :=
  let ⟨_, _, hl, _⟩ := hdmaInit_spec s
  ⟨_, hl⟩

theorem hdmaLine_idle {s : State} (h : anyActive s = false) : hdmaLine s = s := by
  simp [hdmaLine, h]

theorem hdmaLine_run (s : State) : ∃ l, EngineRun s (hdmaLine s) l := by
  cases h : anyActive s with
  | false => exact ⟨[], by rw [hdmaLine_idle h]; exact engineRun_refl s⟩
  | true =>
    obtain ⟨_, _, _, hl, _⟩ := hdmaLine_spec s h
    exact ⟨_, hl⟩

/-- Every instruction is a register access, the actions of the engine, or the one and then the other. -/
theorem exec_run (i : Instr) (s : State) : ∃ u t l, InstrRun i s u t l := by
  cases i with
  | wrMdmaen v =>
    rcases eq_or_ne v 0x00 with rfl | hv
    · exact instrRun_of_port (t := storeMdmaen 0x00 s) rfl (sameOutside_refl s) rfl
    · exact instrRun_of_start v (congrArg Host.Outcome.next (writeMdmaen_start s hv)) rfl
  | mdmaenStart m => exact instrRun_of_start m rfl rfl
  | rdMdmaen | wrHdmaen | rdHdmaen | mdmaenNone | hdmaenSet
  | wrDmap | rdDmap | wrBbad | rdBbad | wrA1tl | rdA1tl | wrA1th | rdA1th | wrA1b | rdA1b | wrDasl | rdDasl
  | wrDash | rdDash | wrDasb | rdDasb | wrA2al | rdA2al | wrA2ah | rdA2ah | wrNltr | rdNltr
  | wrUnusedB | rdUnusedB | wrUnusedF | rdUnusedF | wrUnmappedC | rdUnmappedC | wrUnmappedD | rdUnmappedD
  | wrUnmappedE | rdUnmappedE => exact instrRun_of_port rfl (sameOutside_refl s) rfl
  | pat0 | pat1 | pat2 | pat3 | pat4 | pat5 | pat6 | pat7 => exact instrRun_of_engine rfl rfl (runChannel_run ..)
  | dirBusToPort | dirPortToBus => exact instrRun_of_engine rfl rfl (xferByte_run ..)
  | hdmaDirect | hdmaIndirect => exact instrRun_of_engine rfl rfl (hdmaUnit_run ..)
  | stepFixed | stepInc | stepDec => exact instrRun_of_engine rfl rfl ⟨[], engineRun_updCh ..⟩
  | hdrTerminate => exact instrRun_of_engine rfl rfl ⟨[], engineRun_updCh ..⟩
  | hdrOnce128 | hdrOnce | hdrRepeat => exact instrRun_of_engine rfl rfl (takeLines_run ..)
  | evReset kind => exact instrRun_of_engine rfl rfl ⟨[], (resetEngine_spec kind s).1⟩
  | evHdmainit => exact instrRun_of_engine rfl rfl (hdmaInit_run s)
  | evHdmaline => exact instrRun_of_engine rfl rfl (hdmaLine_run s)

/-- No instruction changes the platform, the queue or the part that is to run alone. -/
theorem exec_keeps {i : Instr} {s t : State} (h : exec i s = .next t) :
    t.plat = s.plat ∧ t.pending = s.pending ∧ t.alone = s.alone := by
  obtain ⟨u, t', l, hi⟩ := exec_run i s
  obtain rfl : t = t' := Host.Outcome.next.inj (h.symm.trans hi.outcome)
  obtain ⟨-, -, -, -, -, hplat, hpending, halone⟩ := hi.port
  exact ⟨hi.run.plat.trans hplat.symm, hi.run.pending.trans hpending.symm, hi.run.alone.trans halone.symm⟩

/-! ### Register accesses that leave the Bus alone (R138) -/

theorem exec_channelWrite (c : Channel) (v : Byte) (r : BitVec 4) (s : State) :
    ∃ t, exec (decodeChannelWrite c v r) s = .next t ∧ State.sameOutside s t := by
  unfold decodeChannelWrite
  split <;> exact ⟨_, rfl, sameOutside_refl s⟩

theorem exec_channelRead (c : Channel) (r : BitVec 4) (s : State) :
    ∃ t, exec (decodeChannelRead c r) s = .next t ∧ State.sameOutside s t := by
  unfold decodeChannelRead
  split <;> exact ⟨_, rfl, sameOutside_refl s⟩

/-- What the engine decodes a register write as (R102). -/
theorem decode_regWrite {o : Offset} {v : Byte} {i : Instr} (h : decode (.regWrite o v) = .ok i) :
    (o = 0x420B ∧ i = .wrMdmaen v) ∨ (o = 0x420C ∧ i = .wrHdmaen v) ∨
      i = decodeChannelWrite (offsetChannel o) v (offsetReg o) := by
  simp only [decode, decodeWrite] at h
  split_ifs at h with hm hh
  · exact .inl ⟨hm, (Except.ok.inj h).symm⟩
  · exact .inr (.inl ⟨hh, (Except.ok.inj h).symm⟩)
  · exact .inr (.inr (Except.ok.inj h).symm)

/-- What the engine decodes a register read as (R102). -/
theorem decode_regRead {o : Offset} {i : Instr} (h : decode (.regRead o) = .ok i) :
    (o = 0x420B ∧ i = .rdMdmaen) ∨ (o = 0x420C ∧ i = .rdHdmaen) ∨
      i = decodeChannelRead (offsetChannel o) (offsetReg o) := by
  simp only [decode, decodeRead] at h
  split_ifs at h with hm hh
  · exact .inl ⟨hm, (Except.ok.inj h).symm⟩
  · exact .inr (.inl ⟨hh, (Except.ok.inj h).symm⟩)
  · exact .inr (.inr (Except.ok.inj h).symm)

/-- A register write other than a non-zero write to `MDMAEN` changes nothing outside the engine. -/
theorem exec_regWrite_sameOutside {o : Offset} {v : Byte} {i : Instr} (s : State)
    (h : decode (.regWrite o v) = .ok i) (hv : o = 0x420B → v = 0x00) :
    ∃ t, exec i s = .next t ∧ State.sameOutside s t := by
  rcases decode_regWrite h with ⟨ho, rfl⟩ | ⟨-, rfl⟩ | rfl
  · obtain rfl := hv ho
    exact ⟨storeMdmaen 0x00 s, rfl, sameOutside_refl s⟩
  · exact ⟨storeHdmaen v s, rfl, sameOutside_refl s⟩
  · exact exec_channelWrite _ v _ s

/-- A register read changes nothing outside the engine. -/
theorem exec_regRead_sameOutside {o : Offset} {i : Instr} (s : State) (h : decode (.regRead o) = .ok i) :
    ∃ t, exec i s = .next t ∧ State.sameOutside s t := by
  rcases decode_regRead h with ⟨-, rfl⟩ | ⟨-, rfl⟩ | rfl
  · exact ⟨answerOpenBus s, rfl, sameOutside_refl s⟩
  · exact ⟨answerOpenBus s, rfl, sameOutside_refl s⟩
  · exact exec_channelRead _ _ s

/-! ### What a step can do -/

theorem fetchPart_run (p : Part) (s : State) : ∃ l, EngineRun s (fetchPart p s).2 l := by
  cases p with
  | mask r m => exact ⟨[], engineRun_refl s⟩
  | control c w => exact ⟨[], engineRun_refl s⟩
  | entry c => exact ⟨_, tableByte_run c s⟩

/-- The object of a part is always one the engine decodes (R107). -/
theorem fetchPart_decodes (p : Part) (s : State) : ∃ i, decode (fetchPart p s).1 = .ok i := by
  cases p <;> exact ⟨_, rfl⟩

/-- The cases of a step, each with its outcome: nothing waits; an access of the Bus; an access of the engine; an event;
a part that runs alone. -/
inductive StepCase (s : State) : Prop where
  | idle (ha : s.alone = none) (hp : s.pending = []) (hs : step s = .next s)
  | bus (a : CpuAccess) (rest : List Request) (ha : s.alone = none) (hp : s.pending = .cpu a :: rest)
      (hs : step s = .next (busAccess a { s with pending := rest }))
  | engine (a : CpuAccess) (rest : List Request) (i : Instr) (ha : s.alone = none) (hp : s.pending = .cpu a :: rest)
      (hr : routedToEngine s.plat a.addr = true) (hd : decode a.object = .ok i)
      (hs : step s = exec i { s with pending := rest })
  | event (e : Event) (rest : List Request) (ha : s.alone = none) (hp : s.pending = .event e :: rest)
      (hs : step s = exec (decodeEvent e) { s with pending := rest })
  | part (p : Part) (i : Instr) (ha : s.alone = some p) (hd : decode (fetchPart p { s with alone := none }).1 = .ok i)
      (hs : step s = exec i (fetchPart p { s with alone := none }).2)

theorem step_case (s : State) : StepCase s := by
  cases ha : s.alone with
  | some p =>
    obtain ⟨i, hd⟩ := fetchPart_decodes p { s with alone := none }
    exact .part p i ha hd ((step_alone s p ha).trans (serve_ok _ _ hd))
  | none =>
    cases hp : s.pending with
    | nil => exact .idle ha hp (step_idle s ha hp)
    | cons r rest =>
      cases r with
      | event e => exact .event e rest ha hp (step_event s e rest ha hp rfl)
      | cpu a =>
        cases hr : routedToEngine s.plat a.addr with
        | false => exact .bus a rest ha hp (step_bus s a rest ha hp (.inl hr))
        | true =>
          cases hd : decode a.object with
          | error e => exact .bus a rest ha hp (step_bus s a rest ha hp (.inr ⟨e, hd⟩))
          | ok i => exact .engine a rest i ha hp hr hd (step_engine s a rest ha hp hr hd)

/-- A step spends the first request, or the part that is to run alone and no request. -/
theorem step_spends {s t : State} (h : step s = .next t) :
    t.plat = s.plat ∧ t.alone = none ∧ (s.alone = none → t.pending = s.pending.tail) ∧
      (s.alone ≠ none → t.pending = s.pending) := by
  cases step_case s with
  | idle ha hp hs =>
    obtain rfl := Host.Outcome.next.inj (hs.symm.trans h)
    exact ⟨rfl, ha, fun _ => by rw [hp]; rfl, fun hn => absurd ha hn⟩
  | bus a rest ha hp hs =>
    obtain rfl := Host.Outcome.next.inj (hs.symm.trans h)
    rw [busAccess_same]
    exact ⟨rfl, ha, fun _ => by rw [hp]; rfl, fun hn => absurd ha hn⟩
  | engine a rest i ha hp hr hd hs =>
    obtain ⟨hplat, hpending, halone⟩ := exec_keeps (hs.symm.trans h)
    exact ⟨hplat, halone.trans ha, fun _ => by rw [hpending, hp]; rfl, fun hn => absurd ha hn⟩
  | event e rest ha hp hs =>
    obtain ⟨hplat, hpending, halone⟩ := exec_keeps (hs.symm.trans h)
    exact ⟨hplat, halone.trans ha, fun _ => by rw [hpending, hp]; rfl, fun hn => absurd ha hn⟩
  | part p i ha hd hs =>
    obtain ⟨hplat, hpending, halone⟩ := exec_keeps (hs.symm.trans h)
    obtain ⟨l, hl⟩ := fetchPart_run p { s with alone := none }
    exact ⟨hplat.trans hl.plat, halone.trans hl.alone, fun hn => by simp [ha] at hn,
      fun _ => hpending.trans hl.pending⟩

/-- A register access by a step, other than a non-zero write to `MDMAEN`, makes no action and charges nothing. -/
theorem exec_access_quiet {a : CpuAccess} {i : Instr} {s t : State} (hd : decode a.object = .ok i)
    (h : exec i s = .next t) :
    (t.trace = s.trace ∧ t.cycles = s.cycles) ∨ ∃ b v, a = .write b v ∧ v ≠ 0x00 ∧ offsetOf b = 0x420B := by
  have quiet (hx : ∃ u, exec i s = .next u ∧ State.sameOutside s u) : t.trace = s.trace ∧ t.cycles = s.cycles := by
    obtain ⟨u, hu, -, hcycles, htrace, -⟩ := hx
    obtain rfl := Host.Outcome.next.inj (hu.symm.trans h)
    exact ⟨htrace.symm, hcycles.symm⟩
  cases a with
  | read b => exact .inl (quiet (exec_regRead_sameOutside s hd))
  | write b v =>
    by_cases hv : offsetOf b = 0x420B → v = 0x00
    · exact .inl (quiet (exec_regWrite_sameOutside s hd hv))
    · obtain ⟨hb, hv⟩ := Classical.not_imp.mp hv
      exact .inr ⟨b, v, rfl, hv, hb⟩

/-- Settles O8: `step_spends`, and the cases of a step in which the engine acts. -/
theorem stepServesOneRequest : Obligations.StepServesOneRequest := by
  unfold Obligations.StepServesOneRequest
  refine ⟨fun s t => step_spends, fun s t hn h => ?_⟩
  cases step_case s with
  | idle ha hp hs =>
    obtain rfl := Host.Outcome.next.inj (hs.symm.trans h)
    exact .inl ⟨rfl, rfl⟩
  | bus a rest ha hp hs =>
    obtain rfl := Host.Outcome.next.inj (hs.symm.trans h)
    rw [busAccess_same]
    exact .inl ⟨rfl, rfl⟩
  | engine a rest i ha hp hr hd hs =>
    rcases exec_access_quiet hd (hs.symm.trans h) with hq | ⟨b, v, rfl, hv, hb⟩
    · exact .inl hq
    · exact .inr (.inl ⟨b, v, rest, hv, hp, hr, hb⟩)
  | event e rest ha hp hs =>
    cases e with
    | reset kind =>
      obtain rfl := Host.Outcome.next.inj (hs.symm.trans h)
      have hr := (resetEngine_spec kind { s with pending := rest }).1
      exact .inl ⟨hr.trace, hr.cycles⟩
    | hdmaInit => exact .inr (.inr (.inl ⟨rest, hp⟩))
    | hdmaLine => exact .inr (.inr (.inr ⟨rest, hp⟩))
  | part p i ha hd hs => simp [ha] at hn

end Sys2Proof.Machine
end

section
/-! The two bus primitives: what an access of a device does. -/

namespace Sys2Proof.Machine

/-! ### An access of a device (R13, R68) -/

theorem resolveWrite_device {a : Addr} {s : State} (v : Byte) (hk : regionKind s.plat a = .device) :
    resolveWrite a v s = deviceWrite a v s := by
  simp only [resolveWrite, hk]

theorem resolveRead_device {a : Addr} {s : State} (hk : regionKind s.plat a = .device) :
    resolveRead a s = deviceRead a s := by
  simp only [resolveRead, hk]

theorem deviceWrite_noAct {a : Addr} {s : State} (v : Byte) (h : takeAct a s.deviceIn = none) :
    deviceWrite a v s = s := by
  simp only [deviceWrite, h]

theorem deviceWrite_act {a : Addr} {s : State} {d : DeviceAct} {left : List DeviceAct} (v : Byte)
    (h : takeAct a s.deviceIn = some (d, left)) :
    deviceWrite a v s = { s with deviceIn := left, mem := applyStores v d.stores s.mem } := by
  simp only [deviceWrite, h]

theorem deviceRead_noAct {a : Addr} {s : State} (h : takeAct a s.deviceIn = none) : deviceRead a s = freeByte s := by
  simp only [deviceRead, h]

/-- Whatever a device answers, the state changes at most in the count of draws. -/
theorem actAnswer_same (d : DeviceAct) (s : State) : (actAnswer d s).2 = { s with draws := (actAnswer d s).2.draws } := by
  unfold actAnswer freeByte
  split <;> rfl

theorem actAnswer_supplied {d : DeviceAct} {w : Byte} (s : State) (h : d.answer = some w) : actAnswer d s = (w, s) := by
  simp only [actAnswer, h]

theorem deviceRead_act {a : Addr} {s : State} {d : DeviceAct} {left : List DeviceAct}
    (h : takeAct a s.deviceIn = some (d, left)) :
    deviceRead a s = ((actAnswer d s).1, { s with
      deviceIn := left, mem := applyStores (actAnswer d s).1 d.stores s.mem, draws := (actAnswer d s).2.draws }) := by
  simp only [deviceRead, h]
  rw [actAnswer_same]

/-- A device that stores the byte of the access at one address (R268). -/
theorem read_applyStores_moved (v : Byte) (x : Addr) (m : Memory) (hw : Memory.wf m) :
    Memory.read (applyStores v [(x, none)] m) x.toNat = v := by
  simp [applyStores, mem_read_write _ _ _ _ hw.1]

/-! ### The primitives -/

theorem memRead_fst (a : Addr) (s : State) : (memRead a s).1 = (resolveRead a s).1 := rfl
theorem memRead_mem (a : Addr) (s : State) : (memRead a s).2.mem = (resolveRead a s).2.mem := rfl
theorem memRead_deviceIn (a : Addr) (s : State) : (memRead a s).2.deviceIn = (resolveRead a s).2.deviceIn := rfl

/-- With no act supplied a device's access stores nothing. -/
theorem device_access_noAct {a : Addr} {s : State} (v : Byte) (hk : regionKind s.plat a = .device)
    (h : takeAct a s.deviceIn = none) : (memWrite a v s).mem = s.mem ∧ (memRead a s).2.mem = s.mem := by
  rw [memWrite_mem, memRead_mem, resolveWrite_device v hk, resolveRead_device hk, deviceWrite_noAct v h,
    deviceRead_noAct h]
  exact ⟨rfl, rfl⟩

/-- A device's write spends the act supplied and stores what the act says. -/
theorem memWrite_act {a : Addr} {s : State} {d : DeviceAct} {left : List DeviceAct} (v : Byte)
    (hk : regionKind s.plat a = .device) (h : takeAct a s.deviceIn = some (d, left)) :
    (memWrite a v s).mem = applyStores v d.stores s.mem ∧ (memWrite a v s).deviceIn = left := by
  rw [memWrite_mem, memWrite_deviceIn, resolveWrite_device v hk, deviceWrite_act v h]
  exact ⟨rfl, rfl⟩

/-- A device's read spends the act supplied, answers as the act says and stores what it says. -/
theorem memRead_act {a : Addr} {s : State} {d : DeviceAct} {left : List DeviceAct}
    (hk : regionKind s.plat a = .device) (h : takeAct a s.deviceIn = some (d, left)) :
    (memRead a s).1 = (actAnswer d s).1 ∧ (memRead a s).2.mem = applyStores (memRead a s).1 d.stores s.mem ∧
      (memRead a s).2.deviceIn = left := by
  rw [memRead_mem, memRead_deviceIn, memRead_fst, resolveRead_device hk, deviceRead_act h]
  exact ⟨rfl, rfl, rfl⟩

/-- A read where nothing answers is open bus and changes nothing behind the Bus (R67). -/
theorem memRead_unmapped {a : Addr} {s : State} (hk : regionKind s.plat a = .unmapped) :
    (memRead a s).1 = s.mdr ∧ (memRead a s).2.mdr = s.mdr ∧ (memRead a s).2.mem = s.mem := by
  rw [memRead_mdr, memRead_mem, memRead_fst, resolveRead_unmapped a s hk]
  exact ⟨rfl, rfl, rfl⟩

theorem memRead_storage_mem {a : Addr} {s : State} (hs : isStorage s.plat a = true) : (memRead a s).2.mem = s.mem := by
  rw [memRead_mem, resolveRead_storage a s hs]

/-- Settles O56, from what `memWrite` and `memRead` leave behind the Bus and from the two cases of a device. -/
theorem busPrimitives : Obligations.BusPrimitives := by
  unfold Obligations.BusPrimitives
  refine ⟨fun s a x v hw => ?_, fun s a => ?_, fun s a v hk => ⟨device_access_noAct v hk, fun d left h => ?_⟩⟩
  · obtain ⟨-, hbytes, -, hwf⟩ := resolveWrite_spec a v s
    exact ⟨hwf hw, rfl, hbytes hw x⟩
  · have hkeep := memRead_keeps a s
    exact ⟨rfl, hkeep.memWf, hkeep.other, fun hs => ⟨memRead_storage a s hs, memRead_storage_mem hs⟩, memRead_unmapped⟩
  · obtain ⟨hwmem, hwleft⟩ := memWrite_act v hk h
    obtain ⟨hanswer, hrmem, hrleft⟩ := memRead_act hk h
    refine ⟨hwmem, hwleft, hrmem, hrleft, fun w hw => ?_, fun x hst hwf => ?_⟩
    · rw [hanswer, actAnswer_supplied s hw]
    · rw [hwmem, hrmem, hst]
      exact ⟨read_applyStores_moved _ x _ hwf, read_applyStores_moved _ x _ hwf⟩

end Sys2Proof.Machine
end

section
/-! What an instruction can do to the engine's registers, and the invariant every step keeps. -/

namespace Sys2Proof.Machine

/-! ### Reset -/

/-- Settles O1: what `resetEngine_spec` says of the two masks. -/
theorem noChannelEnabledAfterReset : Obligations.NoChannelEnabledAfterReset := by
  unfold Obligations.NoChannelEnabledAfterReset
  refine ⟨rfl, rfl, fun k s => ?_⟩
  obtain ⟨-, hmdmaen, hhdmaen, -⟩ := resetEngine_spec k s
  exact ⟨resetEngine k s, rfl, hmdmaen, hhdmaen⟩

/-- The default sets of R70 and R73 make a platform that may be built, whatever its costs. -/
theorem platformOk_default : platformOk Config.defaultPlatform := by
  decide

/-- Settles O2: memory is empty and the platform is the default one. -/
theorem resetMeetsTheInvariant : Obligations.ResetMeetsTheInvariant := by
  unfold Obligations.ResetMeetsTheInvariant
  exact ⟨rfl, mem_nil_wf, platformOk_default⟩

/-! ### What the closed forms leave of a channel -/

theorem sameFixed_refl (r : ChannelRegs) : r.sameFixed r := ⟨rfl, rfl, rfl, rfl, rfl⟩

theorem sameFixed_trans {p q r : ChannelRegs} (h : p.sameFixed q) (k : q.sameFixed r) : p.sameFixed r := by
  obtain ⟨h1, h2, h3, h4, h5⟩ := h
  obtain ⟨k1, k2, k3, k4, k5⟩ := k
  exact ⟨h1.trans k1, h2.trans k2, h3.trans k3, h4.trans k4, h5.trans k5⟩

theorem unitAfter_keeps (ind : Bool) (n : Nat) (r : ChannelRegs) :
    (unitAfter ind n r).sameFixed r ∧ (unitAfter ind n r).done = r.done := by
  cases ind <;> exact ⟨sameFixed_refl r, rfl⟩

theorem transferAfter_sameFixed (r : ChannelRegs) : (transferAfter r).sameFixed r := by
  unfold transferAfter
  split
  · exact (unitAfter_keeps ..).1
  · exact sameFixed_refl r

theorem entryAfter_sameFixed (r : ChannelRegs) (h lo hi : Byte) : (entryAfter r h lo hi).sameFixed r := by
  unfold entryAfter
  split_ifs <;> exact sameFixed_refl r

theorem startAfter_sameFixed (m : Byte) (c : Channel) (r : ChannelRegs) (e : Byte × Byte × Byte) :
    (startAfter m c r e).sameFixed r := by
  unfold startAfter
  split
  · exact entryAfter_sameFixed (restarted r) ..
  · exact sameFixed_refl r

theorem lineAfter_sameFixed (r : ChannelRegs) (h lo hi : Byte) : (lineAfter r h lo hi).sameFixed r := by
  have hcount : (countLine (transferAfter r)).sameFixed r := transferAfter_sameFixed r
  unfold lineAfter
  split
  · exact sameFixed_trans (entryAfter_sameFixed ..) hcount
  · exact hcount

/-- A channel that has read its terminator (R184). -/
def terminated (r : ChannelRegs) : Prop := r.nltr = 0x00 ∧ r.doTransfer = false

/-- `LoadEntry` sets `done` at a terminator only (R184). -/
theorem entryAfter_terminated {r : ChannelRegs} {h lo hi : Byte} (hr : r.done = false)
    (hd : (entryAfter r h lo hi).done = true) : terminated (entryAfter r h lo hi) := by
  revert hd
  unfold entryAfter
  split_ifs
  · exact fun _ => ⟨rfl, rfl⟩
  · exact fun hd => absurd (hr.symm.trans hd) Bool.false_ne_true
  · exact fun hd => absurd (hr.symm.trans hd) Bool.false_ne_true

theorem lineAfter_terminated {r : ChannelRegs} {h lo hi : Byte} (hr : r.done = false)
    (hd : (lineAfter r h lo hi).done = true) : terminated (lineAfter r h lo hi) := by
  have hcount : (countLine (transferAfter r)).done = false := (transferAfter_keeps r).2.1.trans hr
  revert hd
  unfold lineAfter
  split
  · exact entryAfter_terminated hcount
  · exact fun hd => absurd (hcount.symm.trans hd) Bool.false_ne_true

/-! ### What the two HDMA events do to one channel -/

/-- A channel that takes no part in a scanline is left alone by it (R181, R185). -/
theorem hdmaLine_inactive {s : State} {c : Channel} (hc : active c s = false) : (hdmaLine s).ch c = s.ch c := by
  cases h : anyActive s with
  | false => rw [hdmaLine_idle h]
  | true =>
    obtain ⟨_, _, _, -, -, -, -, -, -, -, -, hch, -⟩ := hdmaLine_spec s h
    rw [hch, hc]
    rfl

/-- A channel that takes part in a scanline is what the line makes of it (R185). -/
theorem hdmaLine_active {s : State} {c : Channel} (hc : active c s = true) :
    ∃ h lo hi, (hdmaLine s).ch c = lineAfter (s.ch c) h lo hi := by
  have h : anyActive s = true := List.any_eq_true.mpr ⟨c, mem_channels c, hc⟩
  obtain ⟨_, _, _, -, -, -, -, -, -, -, -, hch, -⟩ := hdmaLine_spec s h
  exact ⟨_, _, _, (hch c).trans (if_pos hc)⟩

theorem active_of_done {s : State} {c : Channel} (h : (s.ch c).done = true) : active c s = false := by
  simp [active, h]

theorem hdmaLine_masks (s : State) : (hdmaLine s).mdmaen = s.mdmaen ∧ (hdmaLine s).hdmaen = s.hdmaen := by
  cases h : anyActive s with
  | false => rw [hdmaLine_idle h]; exact ⟨rfl, rfl⟩
  | true =>
    obtain ⟨_, _, _, -, -, -, -, -, -, -, -, -, hmasks⟩ := hdmaLine_spec s h
    exact hmasks

theorem hdmaLine_sameFixed (s : State) (c : Channel) : ((hdmaLine s).ch c).sameFixed (s.ch c) := by
  cases hc : active c s with
  | false => rw [hdmaLine_inactive hc]; exact sameFixed_refl _
  | true =>
    obtain ⟨h, lo, hi, hch⟩ := hdmaLine_active hc
    rw [hch]
    exact lineAfter_sameFixed ..

theorem hdmaInit_masks (s : State) : (hdmaInit s).mdmaen = s.mdmaen ∧ (hdmaInit s).hdmaen = s.hdmaen := by
  obtain ⟨_, _, -, -, -, -, hmasks⟩ := hdmaInit_spec s
  exact hmasks

theorem hdmaInit_ch (s : State) (c : Channel) :
    ∃ e, (hdmaInit s).ch c = startAfter s.hdmaen c (clearHidden (s.ch c)) e := by
  obtain ⟨e, _, -, -, -, hch, -⟩ := hdmaInit_spec s
  exact ⟨e c, hch c⟩

theorem hdmaInit_sameFixed (s : State) (c : Channel) : ((hdmaInit s).ch c).sameFixed (s.ch c) := by
  obtain ⟨e, hch⟩ := hdmaInit_ch s c
  rw [hch]
  exact startAfter_sameFixed s.hdmaen c (clearHidden (s.ch c)) e

/-! ### What an instruction can do to the engine's registers -/

theorem ch_writeChannel (c : Channel) (v : Byte) (f : ChannelRegs → ChannelRegs) (s : State) (x : Channel) :
    (writeChannel c v f s).ch x = if x = c then f (s.ch c) else s.ch x := ch_updCh (driveWrite v s) c x f

/-- From `s` to `t` the engine wrote none of the registers that are software's and no `done` flag: `HDMAEN` stands,
`MDMAEN` stands or is cleared (R22, R33, R35, R41). -/
structure EngineMoves (s t : State) : Prop where
  hdmaen : t.hdmaen = s.hdmaen
  mdmaen : t.mdmaen = s.mdmaen ∨ t.mdmaen = 0x00
  fixed : ∀ x, (t.ch x).sameFixed (s.ch x)
  done : ∀ x, (t.ch x).done = (s.ch x).done

theorem engineMoves_of_masks {s t : State} (hh : t.hdmaen = s.hdmaen) (hm : t.mdmaen = s.mdmaen ∨ t.mdmaen = 0x00)
    (hc : t.chans = s.chans) : EngineMoves s t :=
  ⟨hh, hm, fun x => by rw [ch_congr hc x]; exact sameFixed_refl _, fun x => by rw [ch_congr hc x]⟩

/-- Only channel `c` changed, and there nothing that is software's. -/
theorem engineMoves_of_channel {s t : State} (c : Channel) (hh : t.hdmaen = s.hdmaen) (hm : t.mdmaen = s.mdmaen)
    (ho : ∀ x, x ≠ c → t.ch x = s.ch x) (hc : (t.ch c).sameFixed (s.ch c) ∧ (t.ch c).done = (s.ch c).done) :
    EngineMoves s t := by
  obtain ⟨hfixed, hdone⟩ := hc
  refine ⟨hh, .inl hm, fun x => ?_, fun x => ?_⟩
  · rcases eq_or_ne x c with rfl | hx
    · exact hfixed
    · rw [ho x hx]; exact sameFixed_refl _
  · rcases eq_or_ne x c with rfl | hx
    · exact hdone
    · rw [ho x hx]

theorem engineMoves_updCh (c : Channel) (f : ChannelRegs → ChannelRegs) (s : State)
    (hf : (f (s.ch c)).sameFixed (s.ch c) ∧ (f (s.ch c)).done = (s.ch c).done) : EngineMoves s (s.updCh c f) :=
  engineMoves_of_channel c rfl rfl (fun x hx => ch_updCh_other s c x f hx) (by rw [ch_updCh_same]; exact hf)

theorem engineMoves_writeChannel (c : Channel) (v : Byte) (f : ChannelRegs → ChannelRegs) (s : State)
    (hf : (f (s.ch c)).sameFixed (s.ch c) ∧ (f (s.ch c)).done = (s.ch c).done) :
    EngineMoves s (writeChannel c v f s) :=
  let ⟨hhdmaen, hmdmaen, hfixed, hdone⟩ := engineMoves_updCh c f (driveWrite v s) hf
  ⟨hhdmaen, hmdmaen, hfixed, hdone⟩

theorem engineMoves_xferByte (d : Dir) (a : Addr) (p : Byte) (s : State) : EngineMoves s (xferByte d a p s) :=
  let ⟨hchans, hmdmaen, hhdmaen⟩ := xferByte_regs d a p s
  engineMoves_of_masks hhdmaen (.inl hmdmaen) hchans

theorem engineMoves_runChannel (pat : List Byte) (d : Dir) (z f : Bool) (c : Channel) (s : State) :
    EngineMoves s (runChannel pat d z f c s) := by
  obtain ⟨_, -, -, -, -, -, hch, hmdmaen, hhdmaen⟩ := runChannel_spec pat d z f c s
  refine engineMoves_of_channel c hhdmaen hmdmaen (fun x hx => (hch x).trans (if_neg hx)) ?_
  rw [hch, if_pos rfl]
  exact ⟨sameFixed_refl _, rfl⟩

theorem engineMoves_runDma (v : Byte) (s : State) : EngineMoves s (runDma (storeMdmaen v s)) := by
  obtain ⟨_, -, -, -, -, hch, hmdmaen, hhdmaen⟩ := runDma_spec (storeMdmaen v s)
  refine ⟨hhdmaen, .inr hmdmaen, fun x => ?_, fun x => ?_⟩
  · rw [hch]
    split <;> exact sameFixed_refl _
  · rw [hch]
    split <;> rfl

theorem engineMoves_hdmaUnit (d : Dir) (ind : Bool) (p : BitVec 3) (c : Channel) (s : State) :
    EngineMoves s (hdmaUnit d ind p c s) := by
  obtain ⟨_, hrun, -, -, -, hch⟩ := hdmaUnit_spec d ind p c s
  exact engineMoves_of_channel c hrun.hdmaen hrun.mdmaen hrun.others (by rw [hch]; exact unitAfter_keeps ..)

theorem engineMoves_takeLines (c : Channel) (h : Byte) (s : State) : EngineMoves s (takeLines c h s) := by
  obtain ⟨_, _, _, hrun, -, -, hch⟩ := takeLines_spec c h s
  refine engineMoves_of_channel c hrun.hdmaen hrun.mdmaen hrun.others ⟨hrun.fixed.1, ?_⟩
  rw [hch]
  split <;> rfl

/-- The cases of an instruction, with what each makes of the registers that are software's, of the masks and of
`done`: a port write to such a register of a channel, a write of `HDMAEN`, a terminator, one of the three events, or
an instruction that leaves them. -/
inductive EngineCase (s : State) : Instr → State → Prop where
  | moves {i : Instr} {t : State} (h : EngineMoves s t) : EngineCase s i t
  | hdmaenStored {i : Instr} (v : Byte) (hi : i = .wrHdmaen v ∨ i = .hdmaenSet v) : EngineCase s i (storeHdmaen v s)
  | programmed {i : Instr} (c : Channel) (v : Byte) (f : ChannelRegs → ChannelRegs)
      (hi : i = .wrDmap c v ∨ i = .wrBbad c v ∨ i = .wrA1b c v ∨ i = .wrDasb c v ∨ i = .wrUnusedB c v ∨
        i = .wrUnusedF c v) (hf : ∀ r, (f r).done = r.done) : EngineCase s i (writeChannel c v f s)
  | terminator (c : Channel) : EngineCase s (.hdrTerminate c) (takeTerminator c s)
  | reset (k : ResetKind) : EngineCase s (.evReset k) (resetEngine k s)
  | frameStart : EngineCase s .evHdmainit (hdmaInit s)
  | scanline : EngineCase s .evHdmaline (hdmaLine s)

/-- An instruction answers the state of its case. -/
theorem exec_case (i : Instr) (s : State) : ∃ t, exec i s = .next t ∧ EngineCase s i t := by
  cases i with
  | wrMdmaen v =>
    rcases eq_or_ne v 0x00 with rfl | hv
    · exact ⟨storeMdmaen 0x00 s, rfl, .moves (engineMoves_of_masks rfl (.inr rfl) rfl)⟩
    · exact ⟨_, congrArg Host.Outcome.next (writeMdmaen_start s hv), .moves (engineMoves_runDma v s)⟩
  | mdmaenNone => exact ⟨_, rfl, .moves (engineMoves_of_masks rfl (.inr rfl) rfl)⟩
  | mdmaenStart m => exact ⟨_, rfl, .moves (engineMoves_runDma m s)⟩
  | wrHdmaen v | hdmaenSet v => exact ⟨_, rfl, .hdmaenStored v (by simp)⟩
  | wrDmap c v | wrBbad c v | wrA1b c v | wrDasb c v | wrUnusedB c v | wrUnusedF c v =>
    exact ⟨_, rfl, .programmed c v _ (by simp) fun _ => rfl⟩
  | wrA1tl | wrA1th | wrDasl | wrDash | wrA2al | wrA2ah | wrNltr =>
    exact ⟨_, rfl, .moves (engineMoves_writeChannel _ _ _ s ⟨sameFixed_refl _, rfl⟩)⟩
  | rdMdmaen | rdHdmaen | rdDmap | rdBbad | rdA1tl | rdA1th | rdA1b | rdDasl | rdDash | rdDasb | rdA2al | rdA2ah
  | rdNltr | rdUnusedB | rdUnusedF | wrUnmappedC | rdUnmappedC | wrUnmappedD | rdUnmappedD | wrUnmappedE
  | rdUnmappedE => exact ⟨_, rfl, .moves (engineMoves_of_masks rfl (.inl rfl) rfl)⟩
  | pat0 | pat1 | pat2 | pat3 | pat4 | pat5 | pat6 | pat7 => exact ⟨_, rfl, .moves (engineMoves_runChannel ..)⟩
  | dirBusToPort | dirPortToBus => exact ⟨_, rfl, .moves (engineMoves_xferByte ..)⟩
  | hdmaDirect | hdmaIndirect => exact ⟨_, rfl, .moves (engineMoves_hdmaUnit ..)⟩
  | stepFixed | stepInc | stepDec => exact ⟨_, rfl, .moves (engineMoves_updCh _ _ s ⟨sameFixed_refl _, rfl⟩)⟩
  | hdrOnce128 | hdrOnce | hdrRepeat => exact ⟨_, rfl, .moves (engineMoves_takeLines ..)⟩
  | hdrTerminate c => exact ⟨_, rfl, .terminator c⟩
  | evReset k => exact ⟨_, rfl, .reset k⟩
  | evHdmainit => exact ⟨_, rfl, .frameStart⟩
  | evHdmaline => exact ⟨_, rfl, .scanline⟩

theorem exec_engineCase {i : Instr} {s t : State} (h : exec i s = .next t) : EngineCase s i t := by
  obtain ⟨u, hu, hcase⟩ := exec_case i s
  obtain rfl := Host.Outcome.next.inj (hu.symm.trans h)
  exact hcase

/-! ### The invariant -/

/-- `MDMAEN` is left as it was or zero (R35). -/
theorem exec_mdmaen {i : Instr} {s t : State} (h : exec i s = .next t) : t.mdmaen = s.mdmaen ∨ t.mdmaen = 0x00 := by
  cases exec_engineCase h with
  | moves hmoves => exact hmoves.mdmaen
  | hdmaenStored | programmed | terminator => exact .inl rfl
  | reset k => exact .inr (resetEngine_spec k s).2.1
  | frameStart => exact .inl (hdmaInit_masks s).1
  | scanline => exact .inl (hdmaLine_masks s).1

theorem exec_memWf {i : Instr} {s t : State} (h : exec i s = .next t) (hw : Memory.wf s.mem) : Memory.wf t.mem := by
  obtain ⟨u, t', l, hi⟩ := exec_run i s
  obtain rfl : t = t' := Host.Outcome.next.inj (h.symm.trans hi.outcome)
  obtain ⟨hmem, -⟩ := hi.port
  exact hi.run.memWf (hmem ▸ hw)

theorem exec_keepsInv {i : Instr} {s t : State} (h : exec i s = .next t) (hs : s.Inv) : t.Inv := by
  obtain ⟨hzero, hwf, hplat⟩ := hs
  refine ⟨?_, exec_memWf h hwf, (exec_keeps h).1 ▸ hplat⟩
  rcases exec_mdmaen h with hm | hm
  · exact hm.trans hzero
  · exact hm

theorem busAccess_memWf (a : CpuAccess) {s : State} (hw : Memory.wf s.mem) : Memory.wf (busAccess a s).mem := by
  cases a with
  | write b v =>
    obtain ⟨-, -, -, hwf⟩ := resolveWrite_spec b v s
    exact hwf hw
  | read b => exact (resolveRead_keeps b s).memWf hw

theorem busAccess_keepsInv (a : CpuAccess) {s : State} (hs : s.Inv) : (busAccess a s).Inv := by
  obtain ⟨hzero, hwf, hplat⟩ := hs
  refine ⟨?_, busAccess_memWf a hwf, ?_⟩
  · rw [busAccess_same]; exact hzero
  · rw [busAccess_same]; exact hplat

theorem fetchPart_mdmaen (p : Part) (s : State) : (fetchPart p s).2.mdmaen = s.mdmaen := by
  cases p with
  | mask r m => rfl
  | control c w => rfl
  | entry c => exact tableByte_mdmaen c s

theorem fetchPart_keepsInv (p : Part) {s : State} (hs : s.Inv) : (fetchPart p s).2.Inv := by
  obtain ⟨hzero, hwf, hplat⟩ := hs
  obtain ⟨l, hl⟩ := fetchPart_run p s
  exact ⟨(fetchPart_mdmaen p s).trans hzero, hl.memWf hwf, hl.plat ▸ hplat⟩

/-- Settles O3, by the cases of a step: an access of the Bus, a part's fetch and an instruction each keep the
invariant. -/
theorem stepKeepsTheInvariant : Obligations.StepKeepsTheInvariant := by
  unfold Obligations.StepKeepsTheInvariant
  intro s t hs h
  cases step_case s with
  | idle ha hp hstep =>
    obtain rfl := Host.Outcome.next.inj (hstep.symm.trans h)
    exact hs
  | bus a rest ha hp hstep =>
    obtain rfl := Host.Outcome.next.inj (hstep.symm.trans h)
    exact busAccess_keepsInv a (s := { s with pending := rest }) hs
  | engine a rest i ha hp hr hd hstep => exact exec_keepsInv (s := { s with pending := rest }) (hstep.symm.trans h) hs
  | event e rest ha hp hstep => exact exec_keepsInv (s := { s with pending := rest }) (hstep.symm.trans h) hs
  | part p i ha hd hstep =>
    exact exec_keepsInv (hstep.symm.trans h) (fetchPart_keepsInv p (s := { s with alone := none }) hs)

/-! ### Registers only software changes -/

/-- Settles O49, by the cases of an instruction. -/
theorem onlySoftwareChangesProgrammedRegisters : Obligations.OnlySoftwareChangesProgrammedRegisters := by
  unfold Obligations.OnlySoftwareChangesProgrammedRegisters
  intro i s t c h hne
  cases exec_engineCase h with
  | moves hmoves => exact absurd (hmoves.fixed c) hne
  | hdmaenStored => exact absurd (sameFixed_refl _) hne
  | programmed c' v f hi hf =>
    rcases eq_or_ne c c' with rfl | hc
    · exact .inr ⟨v, hi⟩
    · rw [ch_writeChannel, if_neg hc] at hne
      exact absurd (sameFixed_refl _) hne
  | terminator c' =>
    obtain ⟨hrun, -⟩ := takeTerminator_spec c' s
    rcases eq_or_ne c c' with rfl | hc
    · exact absurd hrun.fixed.1 hne
    · rw [hrun.others c hc] at hne
      exact absurd (sameFixed_refl _) hne
  | reset k =>
    cases k with
    | powerOn => exact .inl rfl
    | soft =>
      refine absurd ?_ hne
      rw [resetEngine, ch_resetControl]
      exact sameFixed_refl _
  | frameStart => exact absurd (hdmaInit_sameFixed s c) hne
  | scanline => exact absurd (hdmaLine_sameFixed s c) hne

/-- Settles O50, by the cases of an instruction: a terminator and the two HDMA events leave `HDMAEN`. -/
theorem onlySoftwareChangesHdmaen : Obligations.OnlySoftwareChangesHdmaen := by
  unfold Obligations.OnlySoftwareChangesHdmaen
  intro i s t h hne
  cases exec_engineCase h with
  | moves hmoves => exact absurd hmoves.hdmaen hne
  | hdmaenStored v hi => exact .inl ⟨v, hi⟩
  | programmed | terminator => exact absurd rfl hne
  | reset k => exact .inr ⟨k, rfl⟩
  | frameStart => exact absurd (hdmaInit_masks s).2 hne
  | scanline => exact absurd (hdmaLine_masks s).2 hne

/-! ### The flag `done` -/

/-- At a frame start `done` is set by a terminator of an enabled channel only (R182, R184). -/
theorem hdmaInit_done {s : State} {c : Channel} (hd : ((hdmaInit s).ch c).done = true) :
    terminated ((hdmaInit s).ch c) ∧ maskBit s.hdmaen c = true := by
  obtain ⟨e, hch⟩ := hdmaInit_ch s c
  rw [hch] at hd ⊢
  revert hd
  unfold startAfter
  split
  · next hm => exact fun hd => ⟨entryAfter_terminated rfl hd, hm⟩
  · exact fun hd => absurd hd Bool.false_ne_true

/-- On a scanline `done` is set by a terminator of an enabled channel only (R184, R185). -/
theorem hdmaLine_done {s : State} {c : Channel} (hs : (s.ch c).done = false) (hd : ((hdmaLine s).ch c).done = true) :
    terminated ((hdmaLine s).ch c) ∧ maskBit s.hdmaen c = true := by
  cases hc : active c s with
  | false =>
    rw [hdmaLine_inactive hc, hs] at hd
    exact absurd hd Bool.false_ne_true
  | true =>
    obtain ⟨h, lo, hi, hch⟩ := hdmaLine_active hc
    rw [hch] at hd ⊢
    exact ⟨lineAfter_terminated hs hd, by simpa [active, hs] using hc⟩

/-- An instruction that leaves `done` neither clears nor sets it. -/
theorem done_unchanged {r q : ChannelRegs} {P Q : Prop} (h : q.done = r.done) :
    (r.done = true → q.done = false → P) ∧ (r.done = false → q.done = true → Q) := by
  rw [h]
  exact ⟨fun h1 h2 => absurd (h2.symm.trans h1) Bool.false_ne_true,
    fun h1 h2 => absurd (h1.symm.trans h2) Bool.false_ne_true⟩

/-- Settles O51, by the cases of an instruction: the terminator and the two HDMA events set `done` at a terminator, the
frame start and Reset clear it, the rest leave it. -/
theorem doneIsSetAndClearedAsTold : Obligations.DoneIsSetAndClearedAsTold := by
  unfold Obligations.DoneIsSetAndClearedAsTold
  intro i s t c h
  cases exec_engineCase h with
  | moves hmoves => exact done_unchanged (hmoves.done c)
  | hdmaenStored => exact done_unchanged rfl
  | programmed c' v f hi hf =>
    refine done_unchanged ?_
    rw [ch_writeChannel]
    split
    · next hc => rw [hf, hc]
    · rfl
  | terminator c' =>
    obtain ⟨hrun, hch⟩ := takeTerminator_spec c' s
    rcases eq_or_ne c c' with rfl | hc
    · rw [hch]
      exact ⟨fun _ hd => absurd hd.symm Bool.false_ne_true, fun _ _ => ⟨rfl, rfl, .inl rfl⟩⟩
    · rw [hrun.others c hc]
      exact done_unchanged rfl
  | reset k =>
    obtain ⟨-, -, -, hclear⟩ := resetEngine_spec k s
    exact ⟨fun _ _ => .inr ⟨k, rfl⟩, fun _ hd => absurd ((hclear c).2.symm.trans hd) Bool.false_ne_true⟩
  | frameStart =>
    refine ⟨fun _ _ => .inl rfl, fun _ hd => ?_⟩
    obtain ⟨⟨hnltr, htransfer⟩, hm⟩ := hdmaInit_done hd
    exact ⟨hnltr, htransfer, .inr ⟨.inl rfl, hm⟩⟩
  | scanline =>
    refine ⟨fun hs hd => ?_, fun hs hd => ?_⟩
    · rw [hdmaLine_inactive (active_of_done hs), hs] at hd
      exact absurd hd.symm Bool.false_ne_true
    · obtain ⟨⟨hnltr, htransfer⟩, hm⟩ := hdmaLine_done hs hd
      exact ⟨hnltr, htransfer, .inr ⟨.inr rfl, hm⟩⟩

/-- A step that serves a scanline leaves the requests behind it and every done channel (R181, R185, R210). -/
theorem step_scanline {s : State} {rest : List Request} (ha : s.alone = none)
    (hp : s.pending = .event .hdmaLine :: rest) :
    ∃ t, step s = .next t ∧ t.alone = none ∧ t.pending = rest ∧ ∀ c, (s.ch c).done = true → t.ch c = s.ch c := by
  obtain ⟨l, hl⟩ := hdmaLine_run { s with pending := rest }
  exact ⟨_, step_event s .hdmaLine rest ha hp rfl, hl.alone.trans ha, hl.pending,
    fun c hd => hdmaLine_inactive (active_of_done (s := { s with pending := rest }) hd)⟩

theorem run_succ {M : Host.Core} {s t : M.State} (h : M.step s = .next t) (k : Nat) : M.run (k + 1) s = M.run k t := by
  rw [Host.Core.run, h]

/-- Settles O47, by induction on the number of scanlines: each leaves a done channel as it is, so done. -/
theorem doneChannelIsSkipped : Obligations.DoneChannelIsSkipped := by
  unfold Obligations.DoneChannelIsSkipped
  intro s c k rest
  induction k generalizing s with
  | zero => exact fun _ _ _ => ⟨s, rfl, rfl⟩
  | succ k ih =>
    intro ha hd hp
    obtain ⟨u, hstep, halone, hpending, hdone⟩ := step_scanline ha hp
    obtain ⟨t, hrun, ht⟩ := ih u halone (by rw [hdone c hd]; exact hd) hpending
    exact ⟨t, (run_succ (M := core) hstep k).trans hrun, ht.trans (hdone c hd)⟩

end Sys2Proof.Machine
end

section
/-! The register port reads back what was written, and a serialized engine is restored. -/

namespace Sys2Proof.Machine

/-! ### Halves of a 16-bit register (R94) -/

@[simp] theorem lowByte_joinBytes (hi lo : Byte) : lowByte (joinBytes hi lo) = lo :=
  BitVec.extractLsb'_append_eq_right

@[simp] theorem highByte_joinBytes (hi lo : Byte) : highByte (joinBytes hi lo) = hi :=
  BitVec.extractLsb'_append_eq_left

@[simp] theorem joinBytes_halves (x : Offset) : joinBytes (highByte x) (lowByte x) = x :=
  (BitVec.extractLsb'_append_extractLsb'_eq_extractLsb' (start₁ := 0) (len₁ := 8) rfl).trans BitVec.extractLsb'_eq_self

/-! ### Read-back through the port -/

/-- A register read right after a register write of the same channel answers from what the write stored. -/
theorem readChannel_writeChannel (c : Channel) (v : Byte) (f : ChannelRegs → ChannelRegs) (g : ChannelRegs → Byte)
    (s : State) : (readChannel c g (writeChannel c v f s)).reply = some (g (f (s.ch c))) := by
  simp [readChannel, writeChannel]

/-- Every register offset of a channel but the unmapped `0xC`, `0xD`, `0xE` stores the byte and reads it back (R22). -/
theorem exec_channelRead_channelWrite (s : State) (c : Channel) (r : BitVec 4) (v : Byte)
    (hr : r.toNat < 0xC ∨ r.toNat = 0xF) :
    ∃ t u, exec (decodeChannelWrite c v r) s = .next t ∧ exec (decodeChannelRead c r) t = .next u ∧
      u.reply = some v := by
  unfold decodeChannelWrite decodeChannelRead
  generalize r.toNat = n at hr
  rcases hr with hr | rfl
  · interval_cases n <;> exact ⟨_, _, rfl, rfl, (readChannel_writeChannel ..).trans (by simp [setLow, setHigh])⟩
  · exact ⟨_, _, rfl, rfl, readChannel_writeChannel ..⟩

/-- Settles O20: the decoder's two tables (R91), then the read-back of each register. -/
theorem readBackThroughThePort : Obligations.ReadBackThroughThePort := by
  unfold Obligations.ReadBackThroughThePort
  refine ⟨fun s c r v i j hr hi hj => ?_, fun s c v => ⟨?_, ?_⟩⟩
  · obtain rfl := Except.ok.inj ((decodeWrite_regOffset c r v).symm.trans hi)
    obtain rfl := Except.ok.inj ((decodeRead_regOffset c r).symm.trans hj)
    exact exec_channelRead_channelWrite s c r v hr
  · exact ⟨_, _, rfl, rfl, readChannel_writeChannel ..⟩
  · exact ⟨_, _, rfl, rfl, readChannel_writeChannel ..⟩

/-! ### One serialized channel -/

theorem flagByte_fields (t d : Bool) :
    (BitVec.ofBool t ++ BitVec.ofBool d ++ 0#6).extractLsb' 0 6 = 0 ∧
      (BitVec.ofBool t ++ BitVec.ofBool d ++ 0#6).getLsbD 7 = t ∧
      (BitVec.ofBool t ++ BitVec.ofBool d ++ 0#6).getLsbD 6 = d := by
  revert t d
  decide

/-- A flag byte with its low six bits clear is made of its two flags. -/
theorem flagByte_of_fields (f : Byte) (h : f.extractLsb' 0 6 = 0) :
    BitVec.ofBool (f.getLsbD 7) ++ BitVec.ofBool (f.getLsbD 6) ++ 0#6 = f := by
  revert f
  decide +kernel

theorem channelFromBlob_channelBlob (r : ChannelRegs) : channelFromBlob (channelBlob r) = some r := by
  obtain ⟨hlow, htransfer, hdone⟩ := flagByte_fields r.doTransfer r.done
  simp only [channelBlob, channelFromBlob, hlow, htransfer, hdone, joinBytes_halves, if_true]

/-- Bytes are taken for a channel only if they are that channel's. -/
theorem channelBlob_of_channelFromBlob {b : List Byte} {r : ChannelRegs} (h : channelFromBlob b = some r) :
    channelBlob r = b := by
  unfold channelFromBlob at h
  split at h
  · split at h
    · next hf =>
      obtain rfl := Option.some.inj h
      simp only [channelBlob, lowByte_joinBytes, highByte_joinBytes, flagByte_of_fields _ hf]
    · exact absurd h (by simp)
  · exact absurd h (by simp)

theorem channelBlob_length (r : ChannelRegs) : (channelBlob r).length = 13 := rfl

/-! ### The serialized engine -/

/-- The channels `cs` of `s` put into `u`. -/
def copyChannels (s : State) (cs : List Channel) (u : State) : State := cs.foldl (fun u c => u.setCh c (s.ch c)) u

theorem restoreChannels_blobs (s : State) (cs : List Channel) (u : State) :
    restoreChannels cs (cs.flatMap fun c => channelBlob (s.ch c)) u = some (copyChannels s cs u) := by
  induction cs generalizing u with
  | nil => rfl
  | cons c cs ih =>
    have htake := List.take_left' (l₂ := cs.flatMap fun c => channelBlob (s.ch c)) (channelBlob_length (s.ch c))
    have hdrop := List.drop_left' (l₂ := cs.flatMap fun c => channelBlob (s.ch c)) (channelBlob_length (s.ch c))
    simp only [restoreChannels, List.flatMap_cons, htake, hdrop, channelFromBlob_channelBlob, ih]
    rfl

theorem ch_copyChannels (s : State) (cs : List Channel) (u : State) (x : Channel) :
    (copyChannels s cs u).ch x = if x ∈ cs then s.ch x else u.ch x := by
  induction cs generalizing u with
  | nil => rfl
  | cons c cs ih =>
    refine (ih (u.setCh c (s.ch c))).trans ?_
    rcases eq_or_ne x c with rfl | hx
    · simp
    · simp [ch_setCh_other _ _ _ _ hx, hx]

/-- All channels copied make the register file of `s`. -/
theorem copyChannels_all (s u : State) : copyChannels s channels u = { u with chans := s.chans } := by
  have hframe : copyChannels s channels u = { u with chans := (copyChannels s channels u).chans } := rfl
  rw [hframe, chans_ext fun x => (ch_copyChannels s channels u x).trans (if_pos (mem_channels x))]

/-- What was taken from a blob is what its bytes serialize, and the masks were not touched. -/
theorem restoreChannels_some (cs : List Channel) (hcs : cs.Nodup) {b : List Byte} {s t : State}
    (h : restoreChannels cs b s = some t) :
    (cs.flatMap fun c => channelBlob (t.ch c)) = b ∧ (∀ x, x ∉ cs → t.ch x = s.ch x) ∧ t.mdmaen = s.mdmaen ∧
      t.hdmaen = s.hdmaen := by
  induction cs generalizing b s with
  | nil =>
    cases b with
    | nil => obtain rfl := Option.some.inj h; exact ⟨rfl, fun _ _ => rfl, rfl, rfl⟩
    | cons v b => exact absurd h (by simp [restoreChannels])
  | cons c cs ih =>
    obtain ⟨hc, hn⟩ := List.nodup_cons.mp hcs
    simp only [restoreChannels] at h
    split at h
    · next r hr =>
      obtain ⟨hbytes, hothers, hmdmaen, hhdmaen⟩ := ih hn h
      refine ⟨?_, fun x hx => ?_, hmdmaen, hhdmaen⟩
      · rw [List.flatMap_cons, hbytes, hothers c hc, ch_setCh_same, channelBlob_of_channelFromBlob hr,
          List.take_append_drop]
      · obtain ⟨hxc, hx⟩ := not_or.mp (List.mem_cons.not.mp hx)
        exact (hothers x hx).trans (ch_setCh_other _ _ _ _ hxc)
    · exact absurd h (by simp)

theorem restore_serialize (s u : State) :
    u.restore s.serialize = some { u with chans := s.chans, mdmaen := s.mdmaen, hdmaen := s.hdmaen } :=
  (restoreChannels_blobs s channels _).trans (congrArg some (copyChannels_all s _))

/-- Bytes are restored only if they serialize the engine they restore (R232 c). -/
theorem serialize_of_restore {s t : State} {b : List Byte} (h : s.restore b = some t) : t.serialize = b := by
  unfold State.restore at h
  split at h
  · next m hm rest =>
    obtain ⟨hbytes, -, hmdmaen, hhdmaen⟩ := restoreChannels_some channels channels_nodup h
    simp only [State.serialize, hbytes, hmdmaen, hhdmaen]
    rfl
  · exact absurd h (by simp)

theorem serialize_length (s : State) : s.serialize.length = 2 + nch * 13 := rfl

/-- A blob that serializes no engine is rejected. -/
theorem restore_none {s : State} {b : List Byte} (h : ∀ u : State, u.serialize ≠ b) : s.restore b = none := by
  cases hr : s.restore b with
  | none => rfl
  | some t => exact absurd (serialize_of_restore hr) (h t)

/-- Two engines with the same bytes are restored to the same engine. -/
theorem sameEngine_of_serialize {s u : State} (h : s.serialize = u.serialize) : State.sameEngine s u := by
  have hr := (restore_serialize s u).symm.trans ((congrArg u.restore h).trans (restore_serialize u u))
  simp only [Option.some.injEq, State.mk.injEq, and_true] at hr
  exact hr

/-- Settles O59: a blob is restored exactly if it serializes an engine, and then to that engine; all have one length. -/
theorem saveStateRoundTrip : Obligations.SaveStateRoundTrip := by
  unfold Obligations.SaveStateRoundTrip
  refine ⟨restore_serialize, fun s u => sameEngine_of_serialize, fun s u b hb => restore_none fun w hw => hb ?_,
    fun s b => restore_none⟩
  rw [← hw, serialize_length, serialize_length]

end Sys2Proof.Machine
end

section
/-! Addresses by bank and offset: the ports, the default blocked set, the platforms that may be built; the instruction a
step runs; the bytes a general DMA moves. -/

namespace Sys2Proof.Machine

/-! ### General DMA moves its bytes unchanged (R63, R152) -/

/-- A pattern row is `RunChannel` under its pattern (R156 to R163). -/
theorem exec_patternRow (p : BitVec 3) (c : Channel) (d : Dir) (n u z f : Bool) (s : State) :
    exec (patternRow p c d n u z f) s = .next (runChannel (pattern p) d z f c s) := by
  obtain ⟨⟨k, hk⟩⟩ := p
  interval_cases k <;> rfl

/-- Every bus access is a read or a write. -/
theorem accessesOf_length (l : List Action) : (accessesOf l).length = (readsOf l).length + (writesOf l).length := by
  induction l with
  | nil => rfl
  | cons x l ih =>
    rw [← List.singleton_append, accessesOf_append, readsOf_append, writesOf_append]
    simp only [List.length_append, ih]
    cases x with
    | read a v => simp [accessesOf, readsOf, writesOf]; omega
    | write a v => simp [accessesOf, readsOf, writesOf]; omega
    | charge k => simp [accessesOf, readsOf, writesOf]

/-- A byte transfer with nothing blocked is one read and one write (R152). -/
theorem byteAccesses_length {p : Platform} {a : Addr} (d : Dir) (port : Byte) (h : aSideBlocked p a = false) :
    (byteAccesses p d a port).length = 2 := by
  cases d <;> simp [byteAccesses, h]

theorem dmaAccesses_length {p : Platform} {f z : Bool} {r : ChannelRegs} (pat : List Byte) (d : Dir)
    (h : ∀ k < byteCount r.das, aSideBlocked p (byteAddr f z r k) = false) :
    (dmaAccesses p pat d f z r).length = 2 * byteCount r.das := by
  rw [dmaAccesses, List.length_flatMap, List.map_congr_left fun k hk =>
    byteAccesses_length d (portOf r.bbad pat k) (h k (List.mem_range.mp hk))]
  simp [Nat.mul_comm]

/-- Settles O32: the closed form of `RunChannel` gives the equality of the bytes; two accesses per byte, half of them
reads, give the count. -/
theorem generalDmaMovesBytesUnchanged : Obligations.GeneralDmaMovesBytesUnchanged := by
  unfold Obligations.GeneralDmaMovesBytesUnchanged
  intro p c d n u z f s hb
  obtain ⟨l, hrun, -, haccesses, hbytes, -⟩ := runChannel_spec (pattern p) d z f c s
  have hmoved := hbytes hb
  refine ⟨_, l, exec_patternRow p c d n u z f s, hrun.trace, hmoved, ?_, hrun.follows⟩
  have hpaired : (readsOf l).length = (writesOf l).length := by simpa using congrArg List.length hmoved
  have htotal := accessesOf_length l
  rw [haccesses, dmaAccesses_length (pattern p) d hb] at htotal
  omega

/-! ### Ports (R68, R69) -/

theorem portAddr_toNat (p : Byte) : (portAddr p).toNat = 0x002100 + p.toNat := by
  have hp := p.isLt
  have hbase : Config.portBase.toNat = 0x002100 := rfl
  rw [portAddr, BitVec.toNat_add, BitVec.toNat_setWidth, hbase, addrWidth]
  omega

theorem portOf_toNat (b : Byte) (pat : List Byte) (i : Nat) :
    (portOf b pat i).toNat = (b.toNat + (pat.getD (i % pat.length) 0).toNat) % 256 :=
  BitVec.toNat_add ..

/-- Settles O54: the two sums, the one of ports modulo 256. -/
theorem portsStayInTheirWindow : Obligations.PortsStayInTheirWindow := by
  unfold Obligations.PortsStayInTheirWindow
  refine ⟨portAddr_toNat, fun b p i => ?_⟩
  rw [portAddr_toNat, portOf_toNat]
  rfl

/-! ### The default blocked set (R70) -/

@[simp] theorem bankOf_append (b : Byte) (o : Offset) : bankOf (b ++ o) = b := BitVec.extractLsb'_append_eq_left

@[simp] theorem offsetOf_append (b : Byte) (o : Offset) : offsetOf (b ++ o) = o := BitVec.extractLsb'_append_eq_right

theorem windowHolds_iff (a : Addr) (w : Window) : windowHolds a w = true ↔
    (w.bankLo ≤ (bankOf a).toNat ∧ (bankOf a).toNat ≤ w.bankHi) ∧
      w.offLo ≤ (offsetOf a).toNat ∧ (offsetOf a).toNat ≤ w.offHi := by
  simp only [windowHolds, Bool.and_eq_true, decide_eq_true_eq, and_assoc]

theorem any_systemBanks (lo hi : Nat) (a : Addr) : (Config.systemBanks lo hi).any (windowHolds a) = true ↔
    ((bankOf a).toNat ≤ 0x3F ∨ (0x80 ≤ (bankOf a).toNat ∧ (bankOf a).toNat ≤ 0xBF)) ∧
      lo ≤ (offsetOf a).toNat ∧ (offsetOf a).toNat ≤ hi := by
  simp [Config.systemBanks, windowHolds_iff, or_and_right]

/-- Settles O55: the default set is four ranges of offsets in the system banks. -/
theorem defaultBlockedAddresses : Obligations.DefaultBlockedAddresses := by
  unfold Obligations.DefaultBlockedAddresses
  intro b o
  simp only [aSideBlocked, Config.defaultPlatform, Config.defaultBlocked, List.any_append, Bool.or_eq_true,
    any_systemBanks, bankOf_append, offsetOf_append, ← and_or_left, or_assoc]

/-! ### Platforms that may be built (R70, R82, R232 c) -/

theorem routedToEngine_iff (p : Platform) (a : Addr) :
    routedToEngine p a = true ↔ ∃ w ∈ p.enginePort, windowHolds a w = true := List.any_eq_true

theorem build_none (s : State) {p : Platform} (h : ¬ platformOk p) : s.build p = none := if_neg h

theorem build_ok (s : State) {p : Platform} (h : platformOk p) : s.build p = some { s with plat := p } := if_pos h

theorem build_some {s t : State} {p : Platform} (h : s.build p = some t) : t = { s with plat := p } := by
  by_cases hp : platformOk p
  · exact (Option.some.inj ((build_ok s hp).symm.trans h)).symm
  · simp [build_none s hp] at h

/-- No region holds an address routed to the engine (R82). -/
theorem platformOk_region {p : Platform} {r : Region} {a : Addr} (h : platformOk p) (hr : r ∈ p.regions)
    (ha : windowHolds a r.window = true) : routedToEngine p a = false := by
  obtain ⟨-, -, hregions, -⟩ := h
  rw [Bool.eq_false_iff, ne_eq, routedToEngine_iff]
  rintro ⟨w, hw, haw⟩
  exact Bool.false_ne_true ((hregions r hr w hw).symm.trans (windowsMeet_of_holds a ha haw))

/-- No two regions of the table hold one address (R82). -/
theorem platformOk_twoRegions {p : Platform} {l m n : List Region} {r q : Region} (h : platformOk p)
    (hp : p.regions = l ++ r :: m ++ q :: n) : windowsMeet r.window q.window = false := by
  obtain ⟨-, -, -, hpairs⟩ := h
  rw [hp] at hpairs
  obtain ⟨-, -, hcross⟩ := List.pairwise_append.mp hpairs
  exact hcross r (by simp) q (by simp)

theorem isChannelBlock_of_range {o : Offset} (hlo : 0x4300 ≤ o.toNat) (hhi : o.toNat ≤ 0x437F) :
    isChannelBlock o = true := by
  rw [isChannelBlock, beq_iff_eq, ← BitVec.toNat_inj, BitVec.extractLsb'_toNat, Nat.shiftRight_eq_div_pow]
  simp only [BitVec.toNat_ofNat]
  omega

/-- A write at an offset of the engine's own windows is decoded (R72, R102). -/
theorem decodeWrite_owned {w : Window} {o : Offset} (v : Byte) (hw : ownsOnlyItsOffsets w = true)
    (hlo : w.offLo ≤ o.toNat) (hhi : o.toNat ≤ w.offHi) : ∃ i, decodeWrite o v = .ok i := by
  simp only [ownsOnlyItsOffsets, Bool.or_eq_true, Bool.and_eq_true, decide_eq_true_eq] at hw
  unfold decodeWrite
  split_ifs with hm hh hb
  · exact ⟨_, rfl⟩
  · exact ⟨_, rfl⟩
  · exact ⟨_, rfl⟩
  · exfalso
    rcases hw with ⟨h1, h2⟩ | ⟨h1, h2⟩
    · rcases (by omega : o.toNat = 0x420B ∨ o.toNat = 0x420C) with h | h
      · exact hm (BitVec.eq_of_toNat_eq h)
      · exact hh (BitVec.eq_of_toNat_eq h)
    · exact hb (isChannelBlock_of_range (h1.trans hlo) (hhi.trans h2))

/-- Every address routed to the engine is one of its own (R72). -/
theorem platformOk_decodes {p : Platform} {a : Addr} (h : platformOk p) (v : Byte) (ha : routedToEngine p a = true) :
    ∃ i, decode (.regWrite (offsetOf a) v) = .ok i := by
  obtain ⟨-, howned, -, -⟩ := h
  obtain ⟨w, hw, haw⟩ := (routedToEngine_iff p a).mp ha
  obtain ⟨-, hlo, hhi⟩ := (windowHolds_iff a w).mp haw
  exact decodeWrite_owned v (howned w hw) hlo hhi

/-- Settles O60: a platform that may be built breaks none of the four rules, and `platformOk_default`. -/
theorem illFormedPlatformIsRejected : Obligations.IllFormedPlatformIsRejected := by
  unfold Obligations.IllFormedPlatformIsRejected
  refine ⟨fun s p r a hr ha he => build_none s fun hp => ?_, fun s p l m n r q a hl har haq => build_none s fun hp => ?_,
    fun s p a v e he hd => build_none s fun hp => ?_, fun s p a he hb => build_none s fun hp => ?_,
    fun s t p => build_some, fun s => build_ok s platformOk_default⟩
  · exact Bool.false_ne_true ((platformOk_region hp hr ha).symm.trans he)
  · exact Bool.false_ne_true ((platformOk_twoRegions hp hl).symm.trans (windowsMeet_of_holds a har haq))
  · obtain ⟨i, hi⟩ := platformOk_decodes hp v he
    simp [hi] at hd
  · exact Bool.false_ne_true (hb.symm.trans (platformOk_blocked hp a he))

/-! ### The instruction a step runs (R73, R120, R183) -/

/-- A step that runs a part alone is `exec` of what the part decodes to, after the part's fetch. -/
theorem step_part {s t : State} {p : Part} {o : Encoded} {i : Instr} (ha : s.alone = some p)
    (hf : fetchPart p { s with alone := none } = (o, t)) (hd : decode o = .ok i) : step s = exec i t := by
  rw [step_alone s p ha, hf]
  exact serve_ok t t hd

/-- A step that runs an entry alone fetches one table byte and runs the header it decodes to (R183). -/
theorem step_entry {s : State} {c : Channel} (ha : s.alone = some (.entry c)) : ∃ h t, t.alone = none ∧
    t.trace = .charge s.plat.unitCost :: .read (tableAddr (s.ch c)) h :: s.trace ∧
    t.ch c = { s.ch c with a2a := (s.ch c).a2a + 1 } ∧ State.sameOtherChannels c s t ∧ t.pending = s.pending ∧
    ∃ i, decode (.hdr c h) = .ok i ∧ step s = exec i t := by
  have hfetch := tableByte_channelRun c { s with alone := none }
  exact ⟨_, _, hfetch.run.alone, hfetch.run.trace, (tableByte_ch c _ c).trans (if_pos rfl), hfetch.others,
    hfetch.run.pending, decodeHeader c _, rfl, step_part ha rfl rfl⟩

/-- Settles O6, by the kinds of request and of part. -/
theorem stepRunsTheDecodedInstruction : Obligations.StepRunsTheDecodedInstruction := by
  unfold Obligations.StepRunsTheDecodedInstruction
  refine ⟨fun s rest a v i ha hp hr hd => ?_, fun s rest a i ha hp hr hd => ?_, fun s rest e i ha hp hd => ?_,
    fun s r m i ha hd => ?_, fun s c w i ha hd => ?_, fun s c ha => ?_⟩
  · exact step_engine s (.write a v) rest ha hp hr hd
  · exact step_engine s (.read a) rest ha hp hr hd
  · exact step_event s e rest ha hp hd
  · exact step_part ha rfl hd
  · exact step_part ha rfl hd
  · exact step_entry ha

end Sys2Proof.Machine
end

section
/-! The encodings: `decode` and `encode` are inverse to each other on every format of 30_encoding.md. -/

namespace Sys2Proof.Machine

/-- `i` is well-formed and `e` is its encoding. -/
def Encodes (i : Instr) (e : Encoded) : Prop := i.wellFormed = true ∧ encode i = e

/-! ### Register offsets (R91, R102) -/

/-- The offsets of the register port by their fields: the two masks and the channel block (R91). -/
def EngineOwns (o : Offset) : Prop := o = 0x420B ∨ o = 0x420C ∨ isChannelBlock o = true

theorem isChannelBlock_iff (o : Offset) : isChannelBlock o = true ↔ 0x4300 ≤ o.toNat ∧ o.toNat ≤ 0x437F := by
  refine ⟨fun h => ?_, fun ⟨hlo, hhi⟩ => isChannelBlock_of_range hlo hhi⟩
  rw [isChannelBlock, beq_iff_eq, ← BitVec.toNat_inj, BitVec.extractLsb'_toNat, Nat.shiftRight_eq_div_pow] at h
  simp only [BitVec.toNat_ofNat] at h
  omega

theorem engineOwns_iff (o : Offset) :
    EngineOwns o ↔ o.toNat = 0x420B ∨ o.toNat = 0x420C ∨ (0x4300 ≤ o.toNat ∧ o.toNat ≤ 0x437F) := by
  simp only [EngineOwns, isChannelBlock_iff, ← BitVec.toNat_inj]
  rfl

theorem decodeWrite_foreign {o : Offset} (v : Byte) (h : ¬ EngineOwns o) :
    decodeWrite o v = .error (.notEngineWrite o v) := by
  obtain ⟨hm, hh, hb⟩ := by simpa only [EngineOwns, not_or] using h
  rw [decodeWrite, if_neg hm, if_neg hh, if_neg hb]

theorem decodeRead_foreign {o : Offset} (h : ¬ EngineOwns o) : decodeRead o = .error (.notEngineRead o) := by
  obtain ⟨hm, hh, hb⟩ := by simpa only [EngineOwns, not_or] using h
  rw [decodeRead, if_neg hm, if_neg hh, if_neg hb]

/-- An offset of the channel block is made of its channel and its register index (R112). -/
theorem regOffset_fields {o : Offset} (h : isChannelBlock o = true) : regOffset (offsetChannel o) (offsetReg o) = o := by
  have hblock : 0b010000110#9 = o.extractLsb' 7 9 := (beq_iff_eq.mp h).symm
  have hchannel : BitVec.ofNat 3 (offsetChannel o).val = o.extractLsb' 4 3 :=
    BitVec.eq_of_toNat_eq (Nat.mod_eq_of_lt (BitVec.isLt _))
  rw [regOffset, offsetReg, hblock, hchannel,
    BitVec.extractLsb'_append_extractLsb'_eq_extractLsb' (start₁ := 4) (len₁ := 3) (start₂ := 7) rfl,
    BitVec.extractLsb'_append_extractLsb'_eq_extractLsb' (start₁ := 0) (len₁ := 4) (start₂ := 4) rfl]
  exact BitVec.extractLsb'_eq_self

theorem engineOwns_cases {o : Offset} (h : EngineOwns o) : o = 0x420B ∨ o = 0x420C ∨ ∃ c r, regOffset c r = o := by
  rcases h with h | h | h
  · exact .inl h
  · exact .inr (.inl h)
  · exact .inr (.inr ⟨_, _, regOffset_fields h⟩)

theorem decodeWrite_ok_iff (o : Offset) (v : Byte) : (∃ i, decodeWrite o v = .ok i) ↔ EngineOwns o := by
  refine ⟨fun ⟨i, hi⟩ => by_contra fun h => ?_, fun h => ?_⟩
  · simp [decodeWrite_foreign v h] at hi
  · obtain rfl | rfl | ⟨c, r, rfl⟩ := engineOwns_cases h
    · exact ⟨_, rfl⟩
    · exact ⟨_, rfl⟩
    · exact ⟨_, decodeWrite_regOffset c r v⟩

theorem decodeRead_ok_iff (o : Offset) : (∃ i, decodeRead o = .ok i) ↔ EngineOwns o := by
  refine ⟨fun ⟨i, hi⟩ => by_contra fun h => ?_, fun h => ?_⟩
  · simp [decodeRead_foreign h] at hi
  · obtain rfl | rfl | ⟨c, r, rfl⟩ := engineOwns_cases h
    · exact ⟨_, rfl⟩
    · exact ⟨_, rfl⟩
    · exact ⟨_, decodeRead_regOffset c r⟩

/-- The encoder's offset of register `r` of channel `c` is the table's (R91). -/
theorem regOffset_eq (c : Channel) (r : BitVec 4) :
    BitVec.ofNat 16 (0x4300 + 16 * c.val + r.toNat) = regOffset c r := by
  revert c r
  decide +kernel

theorem decode_write_tableOffset (c : Channel) (r : BitVec 4) (v : Byte) :
    decode (.regWrite (BitVec.ofNat 16 (0x4300 + 16 * c.val + r.toNat)) v) = .ok (decodeChannelWrite c v r) := by
  rw [regOffset_eq]
  exact decodeWrite_regOffset c r v

theorem decode_read_tableOffset (c : Channel) (r : BitVec 4) :
    decode (.regRead (BitVec.ofNat 16 (0x4300 + 16 * c.val + r.toNat))) = .ok (decodeChannelRead c r) := by
  rw [regOffset_eq]
  exact decodeRead_regOffset c r

theorem decodeChannelWrite_encodes (c : Channel) (v : Byte) (r : BitVec 4) :
    Encodes (decodeChannelWrite c v r) (.regWrite (regOffset c r) v) := by
  obtain ⟨⟨k, hk⟩⟩ := r
  interval_cases k <;> exact ⟨rfl, rfl⟩

theorem decodeChannelRead_encodes (c : Channel) (r : BitVec 4) :
    Encodes (decodeChannelRead c r) (.regRead (regOffset c r)) := by
  obtain ⟨⟨k, hk⟩⟩ := r
  interval_cases k <;> exact ⟨rfl, rfl⟩

/-! ### Control bytes (R93, R103) -/

theorem decodePattern_ctrlByte (c : Channel) (d : Dir) (n u z f : Bool) (p : BitVec 3) :
    decodePattern c (ctrlByte d n u z f p) = patternRow p c d n u z f := by
  simp only [decodePattern, ctrlDir_ctrlByte, ctrlInd_ctrlByte, ctrlUnused_ctrlByte, ctrlDec_ctrlByte,
    ctrlFix_ctrlByte, ctrlPat_ctrlByte]
  rfl

theorem decodeDirection_ctrlByte (c : Channel) (d : Dir) (n u z f : Bool) (p : BitVec 3) :
    decodeDirection c (ctrlByte d n u z f p) = directionRow d c n u z f p := by
  cases d <;> simp [decodeDirection, directionRow]

theorem decodeAddressing_ctrlByte (c : Channel) (d : Dir) (n u z f : Bool) (p : BitVec 3) :
    decodeAddressing c (ctrlByte d n u z f p) = addressingRow n c d u z f p := by
  simp [decodeAddressing, addressingRow]

theorem decodeAddressStep_fixed (c : Channel) (d : Dir) (n u z : Bool) (p : BitVec 3) :
    decodeAddressStep c (ctrlByte d n u z true p) = .stepFixed c d n u z p := by
  simp [decodeAddressStep]

theorem decodeAddressStep_dec (c : Channel) (d : Dir) (n u : Bool) (p : BitVec 3) :
    decodeAddressStep c (ctrlByte d n u true false p) = .stepDec c d n u p := by
  simp [decodeAddressStep]

theorem decodeAddressStep_inc (c : Channel) (d : Dir) (n u : Bool) (p : BitVec 3) :
    decodeAddressStep c (ctrlByte d n u false false p) = .stepInc c d n u p := by
  simp [decodeAddressStep]

theorem patternRow_encodes (c : Channel) (d : Dir) (n u z f : Bool) (p : BitVec 3) :
    Encodes (patternRow p c d n u z f) (.dmap .pattern c (ctrlByte d n u z f p)) := by
  obtain ⟨⟨k, hk⟩⟩ := p
  interval_cases k <;> exact ⟨rfl, rfl⟩

theorem directionRow_encodes (c : Channel) (d : Dir) (n u z f : Bool) (p : BitVec 3) :
    Encodes (directionRow d c n u z f p) (.dmap .direction c (ctrlByte d n u z f p)) := by
  cases d <;> exact ⟨rfl, rfl⟩

theorem addressingRow_encodes (c : Channel) (d : Dir) (n u z f : Bool) (p : BitVec 3) :
    Encodes (addressingRow n c d u z f p) (.dmap .addressing c (ctrlByte d n u z f p)) := by
  cases n <;> exact ⟨rfl, rfl⟩

/-- A control byte is the byte of its row in each of the four groups: no bit of it is dropped. -/
theorem decodeCtrl_encodes (w : CtrlView) (c : Channel) (b : Byte) : Encodes (decodeCtrl w c b) (.dmap w c b) := by
  obtain ⟨d, n, u, z, f, p, rfl⟩ : ∃ d n u z f p, ctrlByte d n u z f p = b := ⟨_, _, _, _, _, _, ctrlByte_fields b⟩
  cases w with
  | pattern => simpa only [decodeCtrl, decodePattern_ctrlByte] using patternRow_encodes c d n u z f p
  | direction => simpa only [decodeCtrl, decodeDirection_ctrlByte] using directionRow_encodes c d n u z f p
  | addressing => simpa only [decodeCtrl, decodeAddressing_ctrlByte] using addressingRow_encodes c d n u z f p
  | addressStep =>
    simp only [decodeCtrl]
    cases f with
    | true => rw [decodeAddressStep_fixed]; exact ⟨rfl, rfl⟩
    | false =>
      cases z with
      | true => rw [decodeAddressStep_dec]; exact ⟨rfl, rfl⟩
      | false => rw [decodeAddressStep_inc]; exact ⟨rfl, rfl⟩

/-! ### Masks and header bytes (R92, R95, R103) -/

theorem decodeMask_start {m : Byte} (h : m ≠ 0x00) : decodeMask .mdmaen m = .mdmaenStart m := if_neg h

theorem decodeMask_encodes (r : MaskReg) (m : Byte) : Encodes (decodeMask r m) (.mask r m) := by
  cases r with
  | hdmaen => exact ⟨rfl, rfl⟩
  | mdmaen =>
    by_cases h : m = 0x00
    · subst h
      exact ⟨rfl, rfl⟩
    · rw [decodeMask_start h]
      exact ⟨bne_iff_ne.mpr h, rfl⟩

/-- A header byte with a line count is neither of the two constants, so its bit 7 decides. -/
theorem decodeHeader_lines (c : Channel) (k : Bool) {lines : BitVec 7} (h : lines ≠ 0) :
    decodeHeader c (headerByte k lines) = if k then .hdrRepeat c lines else .hdrOnce c lines := by
  obtain ⟨hrepeat, hlines, hzero, h128⟩ := header_fields k lines
  rw [decodeHeader, if_neg fun e => h (hzero.mp e).2, if_neg fun e => h (h128.mp e).2, hrepeat, hlines]

theorem decodeHeader_once (c : Channel) {lines : BitVec 7} (h : lines ≠ 0) :
    decodeHeader c (headerByte false lines) = .hdrOnce c lines := decodeHeader_lines c false h

theorem decodeHeader_repeat (c : Channel) {lines : BitVec 7} (h : lines ≠ 0) :
    decodeHeader c (headerByte true lines) = .hdrRepeat c lines := decodeHeader_lines c true h

theorem decodeHeader_encodes (c : Channel) (h : Byte) : Encodes (decodeHeader c h) (.hdr c h) := by
  obtain ⟨k, lines, rfl⟩ : ∃ k lines, headerByte k lines = h := ⟨_, _, headerByte_fields h⟩
  by_cases hl : lines = 0
  · subst hl
    cases k <;> exact ⟨rfl, rfl⟩
  · cases k with
    | false => rw [decodeHeader_once c hl]; exact ⟨bne_iff_ne.mpr hl, rfl⟩
    | true => rw [decodeHeader_repeat c hl]; exact ⟨bne_iff_ne.mpr hl, rfl⟩

theorem headerByte_toNat (k : Bool) (lines : BitVec 7) :
    (headerByte k lines).toNat = k.toNat * 0x80 + lines.toNat := by
  revert k lines
  decide +kernel

/-- The header byte of value `n`, or `0x80 + n`, is the one with `n` lines. -/
theorem headerByte_of_toNat {h : Byte} {k : Bool} {n : Nat} (hn : n < 0x80) (hh : h.toNat = k.toNat * 0x80 + n) :
    headerByte k (BitVec.ofNat 7 n) = h := by
  apply BitVec.eq_of_toNat_eq
  rw [headerByte_toNat, BitVec.toNat_ofNat, Nat.mod_eq_of_lt hn, hh]

theorem lines_ne_zero {n : Nat} (hpos : 0 < n) (hn : n < 0x80) : BitVec.ofNat 7 n ≠ 0 := by
  rw [Ne, ← BitVec.toNat_inj, BitVec.toNat_ofNat, Nat.mod_eq_of_lt hn]
  exact hpos.ne'

theorem decodeEvent_encodes (e : Event) : Encodes (decodeEvent e) (.event e) := by
  cases e <;> exact ⟨rfl, rfl⟩

/-! ### The round trips and the tables -/

/-- Settles O9, format by format: the fields of the encoded object are the row's operands. -/
theorem decodeInvertsEncode : Obligations.DecodeInvertsEncode := by
  unfold Obligations.DecodeInvertsEncode
  intro i hi
  cases i with
  | wrMdmaen | rdMdmaen | wrHdmaen | rdHdmaen => rfl
  | wrDmap c v | wrBbad c v | wrA1tl c v | wrA1th c v | wrA1b c v | wrDasl c v | wrDash c v | wrDasb c v | wrA2al c v
  | wrA2ah c v | wrNltr c v | wrUnusedB c v | wrUnmappedC c v | wrUnmappedD c v | wrUnmappedE c v | wrUnusedF c v =>
    exact decodeWrite_regOffset c _ v
  | rdDmap c | rdBbad c | rdA1tl c | rdA1th c | rdA1b c | rdDasl c | rdDash c | rdDasb c | rdA2al c
  | rdA2ah c | rdNltr c | rdUnusedB c | rdUnmappedC c | rdUnmappedD c | rdUnmappedE c | rdUnusedF c =>
    exact decodeRead_regOffset c _
  | mdmaenNone | hdmaenSet => rfl
  | mdmaenStart m => exact congrArg _ (decodeMask_start (bne_iff_ne.mp hi))
  | pat0 c d n u z f | pat1 c d n u z f | pat2 c d n u z f | pat3 c d n u z f | pat4 c d n u z f | pat5 c d n u z f
  | pat6 c d n u z f | pat7 c d n u z f => exact congrArg _ (decodePattern_ctrlByte c d n u z f _)
  | dirBusToPort c n u z f p | dirPortToBus c n u z f p => exact congrArg _ (decodeDirection_ctrlByte c _ n u z f p)
  | hdmaDirect c d u z f p | hdmaIndirect c d u z f p => exact congrArg _ (decodeAddressing_ctrlByte c d _ u z f p)
  | stepFixed c d n u z p => exact congrArg _ (decodeAddressStep_fixed c d n u z p)
  | stepInc c d n u p => exact congrArg _ (decodeAddressStep_inc c d n u p)
  | stepDec c d n u p => exact congrArg _ (decodeAddressStep_dec c d n u p)
  | hdrTerminate | hdrOnce128 => rfl
  | hdrOnce c lines => exact congrArg _ (decodeHeader_once c (bne_iff_ne.mp hi))
  | hdrRepeat c lines => exact congrArg _ (decodeHeader_repeat c (bne_iff_ne.mp hi))
  | evReset | evHdmainit | evHdmaline => rfl

/-- Settles O10, by the formats of an object: each decoder of a format keeps every bit of it. -/
theorem encodeInvertsDecode : Obligations.EncodeInvertsDecode := by
  unfold Obligations.EncodeInvertsDecode
  intro e i h
  cases e with
  | regWrite o v =>
    obtain rfl | rfl | ⟨c, r, rfl⟩ := engineOwns_cases ((decodeWrite_ok_iff o v).mp ⟨i, h⟩)
    · obtain rfl := Except.ok.inj h
      exact ⟨rfl, rfl⟩
    · obtain rfl := Except.ok.inj h
      exact ⟨rfl, rfl⟩
    · obtain rfl := Except.ok.inj ((decodeWrite_regOffset c r v).symm.trans h)
      exact decodeChannelWrite_encodes c v r
  | regRead o =>
    obtain rfl | rfl | ⟨c, r, rfl⟩ := engineOwns_cases ((decodeRead_ok_iff o).mp ⟨i, h⟩)
    · obtain rfl := Except.ok.inj h
      exact ⟨rfl, rfl⟩
    · obtain rfl := Except.ok.inj h
      exact ⟨rfl, rfl⟩
    · obtain rfl := Except.ok.inj ((decodeRead_regOffset c r).symm.trans h)
      exact decodeChannelRead_encodes c r
  | mask r m =>
    obtain rfl := Except.ok.inj h
    exact decodeMask_encodes r m
  | dmap w c b =>
    obtain rfl := Except.ok.inj h
    exact decodeCtrl_encodes w c b
  | hdr c b =>
    obtain rfl := Except.ok.inj h
    exact decodeHeader_encodes c b
  | event e =>
    obtain rfl := Except.ok.inj h
    exact decodeEvent_encodes e

/-- Settles O11: both strobes decode exactly what `EngineOwns` holds of. -/
theorem decoderOwnsExactlyItsOffsets : Obligations.DecoderOwnsExactlyItsOffsets := by
  unfold Obligations.DecoderOwnsExactlyItsOffsets
  exact fun o v => ⟨(decodeWrite_ok_iff o v).trans (engineOwns_iff o), (decodeRead_ok_iff o).trans (engineOwns_iff o)⟩

/-- Settles O12: the sixteen registers by `regOffset_eq`, and the block above is not the engine's. -/
theorem registerOffsetsFollowTheTable : Obligations.RegisterOffsetsFollowTheTable := by
  unfold Obligations.RegisterOffsetsFollowTheTable
  refine ⟨fun v => ⟨rfl, rfl⟩, rfl, rfl, fun c v => ?_, fun c => ?_, fun o v hlo hhi => ?_⟩
  · have hw := fun r => decode_write_tableOffset c r v
    exact ⟨hw 0x0, hw 0x1, hw 0x2, hw 0x3, hw 0x4, hw 0x5, hw 0x6, hw 0x7, hw 0x8, hw 0x9, hw 0xA, hw 0xB, hw 0xC,
      hw 0xD, hw 0xE, hw 0xF⟩
  · have hr := decode_read_tableOffset c
    exact ⟨hr 0x0, hr 0x1, hr 0x2, hr 0x3, hr 0x4, hr 0x5, hr 0x6, hr 0x7, hr 0x8, hr 0x9, hr 0xA, hr 0xB, hr 0xC,
      hr 0xD, hr 0xE, hr 0xF⟩
  · have hforeign : ¬ EngineOwns o := by
      rw [engineOwns_iff]
      omega
    exact ⟨decodeWrite_foreign v hforeign, decodeRead_foreign hforeign⟩

/-- Settles O13: the byte written out is `ctrlByte`, which each group reads field by field. -/
theorem controlByteMatchesItsRows : Obligations.ControlByteMatchesItsRows := by
  unfold Obligations.ControlByteMatchesItsRows
  intro c d n u z f p
  refine ⟨congrArg _ (decodePattern_ctrlByte c d n u z f p), congrArg _ (decodeDirection_ctrlByte c d n u z f p),
    congrArg _ (decodeAddressing_ctrlByte c d n u z f p), ?_⟩
  cases f with
  | true => exact congrArg _ (decodeAddressStep_fixed c d n u z p)
  | false =>
    cases z with
    | true => exact congrArg _ (decodeAddressStep_dec c d n u p)
    | false => exact congrArg _ (decodeAddressStep_inc c d n u p)

/-- Settles O14: a header byte by its value is `headerByte` of its bit 7 and its line count. -/
theorem headerAndMaskRowsFollowTheirOrder : Obligations.HeaderAndMaskRowsFollowTheirOrder := by
  unfold Obligations.HeaderAndMaskRowsFollowTheirOrder
  refine ⟨fun c h => ⟨fun hz => ?_, fun hlo hhi => ?_, fun h128 => ?_, fun hlo => ?_⟩, rfl,
    fun m hm => congrArg _ (decodeMask_start hm), fun m => rfl⟩
  · obtain rfl : h = 0x00 := BitVec.eq_of_toNat_eq hz
    rfl
  · have hn : h.toNat < 0x80 := by omega
    have hdecode := decodeHeader_once c (lines_ne_zero hlo hn)
    rw [headerByte_of_toNat (h := h) hn (by simp)] at hdecode
    exact congrArg _ hdecode
  · obtain rfl : h = 0x80 := BitVec.eq_of_toNat_eq h128
    rfl
  · have hmax := h.isLt
    have hn : h.toNat - 0x80 < 0x80 := by omega
    have hdecode := decodeHeader_repeat c (lines_ne_zero (by omega) hn)
    rw [headerByte_of_toNat (h := h) hn (by rw [Bool.toNat_true]; omega)] at hdecode
    exact congrArg _ hdecode

/-- Settles O15: the decoder evaluated on the eleven objects. -/
theorem wordsOfTheSpecDecode : Obligations.WordsOfTheSpecDecode := by
  unfold Obligations.WordsOfTheSpecDecode
  decide

end Sys2Proof.Machine
end

section
/-! No write of the engine reaches an address the Bus routes to its register port. -/

namespace Sys2Proof.Machine

/-! ### Accesses that write no address of the engine (R70, R137) -/

/-- None of the accesses writes an address the Bus routes to the engine. -/
def WritesOutside (p : Platform) (as : List Access) : Prop := ∀ a, .write a ∈ as → routedToEngine p a = false

theorem writesOutside_append {p : Platform} {as bs : List Access} (ha : WritesOutside p as)
    (hb : WritesOutside p bs) : WritesOutside p (as ++ bs) := fun a h =>
  (List.mem_append.mp h).elim (ha a) (hb a)

theorem writesOutside_flatMap {α : Type} {p : Platform} {f : α → List Access} (xs : List α)
    (h : ∀ x, WritesOutside p (f x)) : WritesOutside p (xs.flatMap f) := fun a ha =>
  let ⟨x, _, hx⟩ := List.mem_flatMap.mp ha
  h x a hx

theorem write_mem_accessesOf {l : List Action} {a : Addr} (h : Access.write a ∈ accessesOf l) :
    ∃ v, (a, v) ∈ writesOf l := by
  obtain ⟨x, hx, hax⟩ := List.mem_filterMap.mp h
  cases x with
  | read b v => simp at hax
  | charge n => simp at hax
  | write b v =>
    obtain rfl : b = a := by simpa using hax
    exact ⟨v, List.mem_filterMap.mpr ⟨_, hx, rfl⟩⟩

theorem writesOutside_of_noWrites {l : List Action} (p : Platform) (h : writesOf l = []) :
    WritesOutside p (accessesOf l) := fun a ha => by
  obtain ⟨v, hv⟩ := write_mem_accessesOf ha
  simp [h] at hv

/-- A byte transfer writes a port, or an address of the A side that is not blocked: neither is the engine's. -/
theorem byteAccesses_writesOutside {p : Platform} (hp : platformOk p) (d : Dir) (a : Addr) (port : Byte) :
    WritesOutside p (byteAccesses p d a port) := by
  intro x hx
  cases d with
  | busToPort =>
    obtain rfl : x = portAddr port := by
      cases hb : aSideBlocked p a <;> simpa [byteAccesses, hb] using hx
    exact platformOk_port hp port
  | portToBus =>
    obtain ⟨hopen, rfl⟩ : aSideBlocked p a = false ∧ x = a := by simpa [byteAccesses] using hx
    exact Bool.eq_false_iff.mpr fun hr => Bool.false_ne_true (hopen.symm.trans (platformOk_blocked hp x hr))

theorem dmaAccesses_writesOutside {p : Platform} (hp : platformOk p) (pat : List Byte) (d : Dir) (f z : Bool)
    (r : ChannelRegs) : WritesOutside p (dmaAccesses p pat d f z r) :=
  writesOutside_flatMap _ fun _ => byteAccesses_writesOutside hp _ _ _

theorem unitAccesses_writesOutside {p : Platform} (hp : platformOk p) (d : Dir) (ind : Bool) (k : BitVec 3)
    (r : ChannelRegs) : WritesOutside p (unitAccesses p d ind k r) :=
  writesOutside_flatMap _ fun _ => byteAccesses_writesOutside hp _ _ _

theorem passAccesses_writesOutside {p : Platform} (hp : platformOk p) (m : Byte) (c : Channel) (r : ChannelRegs) :
    WritesOutside p (passAccesses p m c r) := by
  unfold passAccesses
  split
  · exact unitAccesses_writesOutside hp _ _ _ _
  · exact writesOutside_of_noWrites (l := []) p rfl

/-! ### Operations and instructions that write no address of the engine -/

/-- From `s` to `t` the engine acted, and wrote no address the Bus routes to it. -/
def ActsOutside (s t : State) : Prop := ∃ l, t.trace = l ++ s.trace ∧ WritesOutside s.plat (accessesOf l)

theorem actsOutside_quiet {s t : State} (h : t.trace = s.trace) : ActsOutside s t :=
  ⟨[], h, writesOutside_of_noWrites s.plat rfl⟩

theorem actsOutside_trans {s t u : State} (h : ActsOutside s t) (k : ActsOutside t u) (hp : t.plat = s.plat) :
    ActsOutside s u := by
  obtain ⟨l, htrace, hwrites⟩ := h
  obtain ⟨m, ktrace, kwrites⟩ := k
  refine ⟨m ++ l, by rw [ktrace, htrace, List.append_assoc], ?_⟩
  rw [accessesOf_append]
  exact writesOutside_append hwrites (hp ▸ kwrites)

theorem tableByte_actsOutside (c : Channel) (s : State) : ActsOutside s (tableByte c s).2 :=
  ⟨_, (tableByte_run c s).trace, writesOutside_of_noWrites s.plat (tableByte_tableRun c s).writes⟩

theorem takeLines_actsOutside (c : Channel) (h : Byte) (s : State) : ActsOutside s (takeLines c h s) := by
  obtain ⟨_, _, l, hl, htable, -⟩ := takeLines_spec c h s
  exact ⟨l, hl.run.trace, writesOutside_of_noWrites s.plat htable.writes⟩

theorem xferByte_actsOutside {s : State} (hp : platformOk s.plat) (d : Dir) (a : Addr) (port : Byte) :
    ActsOutside s (xferByte d a port s) := by
  obtain ⟨l, hl, -, haccesses, -⟩ := xferByte_moves d a port s
  exact ⟨l, hl.trace, haccesses ▸ byteAccesses_writesOutside hp d a port⟩

theorem runChannel_actsOutside {s : State} (hp : platformOk s.plat) (pat : List Byte) (d : Dir) (z f : Bool)
    (c : Channel) : ActsOutside s (runChannel pat d z f c s) := by
  obtain ⟨l, hl, -, haccesses, -⟩ := runChannel_spec pat d z f c s
  exact ⟨l, hl.trace, haccesses ▸ dmaAccesses_writesOutside hp _ _ _ _ _⟩

theorem runDma_actsOutside {s : State} (hp : platformOk s.plat) (v : Byte) :
    ActsOutside s (runDma (storeMdmaen v s)) := by
  obtain ⟨l, hl, -, haccesses, -⟩ := runDma_spec (storeMdmaen v s)
  refine ⟨l, hl.trace, ?_⟩
  rw [haccesses]
  exact writesOutside_flatMap _ fun _ => dmaAccesses_writesOutside hp _ _ _ _ _

theorem hdmaUnit_actsOutside {s : State} (hp : platformOk s.plat) (d : Dir) (ind : Bool) (k : BitVec 3) (c : Channel) :
    ActsOutside s (hdmaUnit d ind k c s) := by
  obtain ⟨l, hl, -, haccesses, -⟩ := hdmaUnit_spec d ind k c s
  exact ⟨l, hl.run.trace, haccesses ▸ unitAccesses_writesOutside hp _ _ _ _⟩

theorem hdmaInit_actsOutside (s : State) : ActsOutside s (hdmaInit s) := by
  obtain ⟨_, l, hl, htable, -⟩ := hdmaInit_spec s
  refine ⟨_, hl.trace, writesOutside_of_noWrites s.plat ?_⟩
  rw [writesOf_append, htable.writes]
  split <;> rfl

theorem hdmaLine_actsOutside {s : State} (hp : platformOk s.plat) : ActsOutside s (hdmaLine s) := by
  cases h : anyActive s with
  | false => exact actsOutside_quiet (congrArg State.trace (hdmaLine_idle h))
  | true =>
    obtain ⟨_, l, m, hl, -, haccesses, -, htable, -⟩ := hdmaLine_spec s h
    refine ⟨_, hl.trace, ?_⟩
    rw [accessesOf_append, accessesOf_append, haccesses]
    exact writesOutside_append
      (writesOutside_append (writesOutside_of_noWrites s.plat rfl)
        (writesOutside_flatMap _ fun _ => passAccesses_writesOutside hp _ _ _))
      (writesOutside_of_noWrites s.plat htable)

/-- No instruction writes an address of the engine on a platform that may be built. -/
theorem exec_actsOutside (i : Instr) {s : State} (hp : platformOk s.plat) :
    ∃ t, exec i s = .next t ∧ ActsOutside s t := by
  cases i with
  | wrMdmaen v =>
    rcases eq_or_ne v 0x00 with rfl | hv
    · exact ⟨storeMdmaen 0x00 s, rfl, actsOutside_quiet rfl⟩
    · exact ⟨_, congrArg Host.Outcome.next (writeMdmaen_start s hv), runDma_actsOutside hp v⟩
  | mdmaenStart m => exact ⟨_, rfl, runDma_actsOutside hp m⟩
  | rdMdmaen | wrHdmaen | rdHdmaen | mdmaenNone | hdmaenSet
  | wrDmap | rdDmap | wrBbad | rdBbad | wrA1tl | rdA1tl | wrA1th | rdA1th | wrA1b | rdA1b | wrDasl | rdDasl
  | wrDash | rdDash | wrDasb | rdDasb | wrA2al | rdA2al | wrA2ah | rdA2ah | wrNltr | rdNltr
  | wrUnusedB | rdUnusedB | wrUnusedF | rdUnusedF | wrUnmappedC | rdUnmappedC | wrUnmappedD | rdUnmappedD
  | wrUnmappedE | rdUnmappedE
  | stepFixed | stepInc | stepDec | hdrTerminate => exact ⟨_, rfl, actsOutside_quiet rfl⟩
  | pat0 | pat1 | pat2 | pat3 | pat4 | pat5 | pat6 | pat7 => exact ⟨_, rfl, runChannel_actsOutside hp ..⟩
  | dirBusToPort | dirPortToBus => exact ⟨_, rfl, xferByte_actsOutside hp ..⟩
  | hdmaDirect | hdmaIndirect => exact ⟨_, rfl, hdmaUnit_actsOutside hp ..⟩
  | hdrOnce128 | hdrOnce | hdrRepeat => exact ⟨_, rfl, takeLines_actsOutside ..⟩
  | evReset kind => exact ⟨_, rfl, actsOutside_quiet (resetEngine_spec kind s).1.trace⟩
  | evHdmainit => exact ⟨_, rfl, hdmaInit_actsOutside s⟩
  | evHdmaline => exact ⟨_, rfl, hdmaLine_actsOutside hp⟩

theorem actsOutside_of_exec {i : Instr} {s t : State} (hp : platformOk s.plat) (h : exec i s = .next t) :
    ActsOutside s t := by
  obtain ⟨u, hu, hacts⟩ := exec_actsOutside i hp
  obtain rfl := Host.Outcome.next.inj (hu.symm.trans h)
  exact hacts

theorem fetchPart_actsOutside (p : Part) (s : State) : ActsOutside s (fetchPart p s).2 := by
  cases p with
  | mask r m => exact actsOutside_quiet rfl
  | control c w => exact actsOutside_quiet rfl
  | entry c => exact tableByte_actsOutside c s

/-- Settles O53, by the cases of a step: an access of the Bus is no action of the engine, a part's fetch only reads, and
an instruction writes ports and addresses that are not blocked. -/
theorem noStepWritesTheEnginesRegisters : Obligations.NoStepWritesTheEnginesRegisters := by
  unfold Obligations.NoStepWritesTheEnginesRegisters
  intro s t hp h
  cases step_case s with
  | idle ha hq hs =>
    obtain rfl := Host.Outcome.next.inj (hs.symm.trans h)
    exact actsOutside_quiet rfl
  | bus a rest ha hq hs =>
    obtain rfl := Host.Outcome.next.inj (hs.symm.trans h)
    refine actsOutside_quiet ?_
    rw [busAccess_same]
  | engine a rest i ha hq hr hd hs =>
    exact actsOutside_of_exec (s := { s with pending := rest }) hp (hs.symm.trans h)
  | event e rest ha hq hs =>
    exact actsOutside_of_exec (s := { s with pending := rest }) hp (hs.symm.trans h)
  | part p i ha hd hs =>
    obtain ⟨l, hl⟩ := fetchPart_run p { s with alone := none }
    exact actsOutside_trans (s := { s with alone := none }) (fetchPart_actsOutside p _)
      (actsOutside_of_exec (by rw [hl.plat]; exact hp) (hs.symm.trans h)) hl.plat

end Sys2Proof.Machine
end

section
/-! The register port: what a register access stores, answers and drives, and the accesses that are the Bus's. -/

namespace Sys2Proof.Machine

/-! ### The shapes of a register access -/

/-- Open bus is an answer of the byte on the bus (R139). -/
theorem answerOpenBus_eq (s : State) : answerOpenBus s = answerRead s.mdr s := rfl

theorem storesInChannel_of_writeChannel {i : Instr} {c : Channel} {v : Byte} {f : ChannelRegs → ChannelRegs}
    (h : ∀ s, exec i s = .next (writeChannel c v f s)) : StoresInChannel i c v f := fun s =>
  ⟨writeChannel c v f s, h s, (ch_writeChannel c v f s c).trans (if_pos rfl),
    fun x hx => (ch_writeChannel c v f s x).trans (if_neg hx), rfl, rfl, rfl, rfl, sameOutside_refl s⟩

theorem answersWith_of_answerRead {i : Instr} {x : State → Byte}
    (h : ∀ s, exec i s = .next (answerRead (x s) s)) : AnswersWith i x := fun s =>
  ⟨answerRead (x s) s, h s, rfl, rfl, ⟨rfl, rfl, rfl⟩, sameOutside_refl s⟩

theorem answersWith_of_answerOpenBus {i : Instr} (h : ∀ s, exec i s = .next (answerOpenBus s)) :
    AnswersWith i State.mdr := answersWith_of_answerRead fun s => (h s).trans (by rw [answerOpenBus_eq])

/-! ### The rows of the register port -/

/-- Settles O16: each of the seven writes is `writeChannel`. -/
theorem byteRegisterWrites : Obligations.ByteRegisterWrites := by
  unfold Obligations.ByteRegisterWrites
  intro c v
  and_intros <;> exact storesInChannel_of_writeChannel fun _ => rfl

/-- Settles O17: each of the six writes is `writeChannel` of `setLow` or `setHigh`. -/
theorem halfRegisterWrites : Obligations.HalfRegisterWrites := by
  unfold Obligations.HalfRegisterWrites
  intro c v
  and_intros <;> exact storesInChannel_of_writeChannel fun _ => rfl

/-- Settles O18: each of the thirteen reads is `readChannel`, the answer of a byte of the channel's registers. -/
theorem registerReadsAnswer : Obligations.RegisterReadsAnswer := by
  unfold Obligations.RegisterReadsAnswer
  intro c
  and_intros <;> exact answersWith_of_answerRead fun _ => rfl

theorem rdUnmapped_answersOpenBus (c : Channel) :
    AnswersWith (.rdUnmappedC c) State.mdr ∧ AnswersWith (.rdUnmappedD c) State.mdr ∧
      AnswersWith (.rdUnmappedE c) State.mdr :=
  ⟨answersWith_of_answerOpenBus fun _ => rfl, answersWith_of_answerOpenBus fun _ => rfl,
    answersWith_of_answerOpenBus fun _ => rfl⟩

theorem rdHdmaen_answersOpenBus : AnswersWith .rdHdmaen State.mdr := answersWith_of_answerOpenBus fun _ => rfl

theorem rdMdmaen_answersOpenBus : AnswersWith .rdMdmaen State.mdr := answersWith_of_answerOpenBus fun _ => rfl

/-- Settles O19: the writes only drive their byte, the reads are open bus. -/
theorem unmappedOffsets : Obligations.UnmappedOffsets := by
  unfold Obligations.UnmappedOffsets
  refine fun c v => ⟨fun i hi s => ?_, rdUnmapped_answersOpenBus c⟩
  have hexec : exec i s = .next (driveWrite v s) := by
    simp only [List.mem_cons, List.not_mem_nil, or_false] at hi
    rcases hi with rfl | rfl | rfl <;> rfl
  exact ⟨_, hexec, rfl, rfl, ⟨rfl, rfl, rfl⟩, sameOutside_refl s⟩

/-- Settles O22: both rows are `storeHdmaen`. -/
theorem hdmaenWriteAndRead : Obligations.HdmaenWriteAndRead := by
  unfold Obligations.HdmaenWriteAndRead
  refine ⟨fun s v i hi => ?_, rdHdmaen_answersOpenBus⟩
  have hexec : exec i s = .next (storeHdmaen v s) := by
    rcases List.mem_pair.mp hi with rfl | rfl <;> rfl
  exact ⟨_, hexec, rfl, rfl, rfl, rfl, rfl, sameOutside_refl s⟩

/-- Settles O23: both rows are `storeMdmaen` of zero, with no `RunDMA` after it. -/
theorem mdmaenZeroAndRead : Obligations.MdmaenZeroAndRead := by
  unfold Obligations.MdmaenZeroAndRead
  refine ⟨fun s i hi => ?_, rdMdmaen_answersOpenBus⟩
  have hexec : exec i s = .next (storeMdmaen 0x00 s) := by
    rcases List.mem_pair.mp hi with rfl | rfl <;> rfl
  exact ⟨_, hexec, rfl, rfl, rfl, rfl, rfl, sameOutside_refl s⟩

/-! ### Any decoded access -/

theorem decodeChannelRead_answers (c : Channel) (r : BitVec 4) : ∃ x, AnswersWith (decodeChannelRead c r) x := by
  unfold decodeChannelRead
  split <;> exact ⟨_, answersWith_of_answerRead fun _ => rfl⟩

/-- Every register read answers a byte and drives it, and changes nothing else. -/
theorem regRead_answers {o : Offset} {i : Instr} (h : decode (.regRead o) = .ok i) : ∃ x, AnswersWith i x := by
  rcases decode_regRead h with ⟨-, rfl⟩ | ⟨-, rfl⟩ | rfl
  · exact ⟨_, rdMdmaen_answersOpenBus⟩
  · exact ⟨_, rdHdmaen_answersOpenBus⟩
  · exact decodeChannelRead_answers ..

/-- Settles O24: a write by `exec_regWrite_sameOutside`; a read only answers. -/
theorem registerAccessesMakeNoBusAccess : Obligations.RegisterAccessesMakeNoBusAccess := by
  unfold Obligations.RegisterAccessesMakeNoBusAccess
  refine ⟨fun s o v i => exec_regWrite_sameOutside s, fun s o i h => ?_⟩
  obtain ⟨x, hx⟩ := regRead_answers h
  obtain ⟨t, hexec, -, -, hengine, houtside⟩ := hx s
  exact ⟨t, hexec, hengine, houtside⟩

theorem exec_channelWrite_drives (c : Channel) (v : Byte) (r : BitVec 4) (s : State) :
    ∃ t, exec (decodeChannelWrite c v r) s = .next t ∧ t.mdr = v := by
  unfold decodeChannelWrite
  split <;> exact ⟨_, rfl, rfl⟩

/-- A register write that starts no general DMA leaves its byte on the bus. -/
theorem exec_regWrite_drives {o : Offset} {v : Byte} {i : Instr} (s : State) (h : decode (.regWrite o v) = .ok i)
    (hv : o = 0x420B → v = 0x00) : ∃ t, exec i s = .next t ∧ t.mdr = v := by
  rcases decode_regWrite h with ⟨ho, rfl⟩ | ⟨-, rfl⟩ | rfl
  · obtain rfl := hv ho
    exact ⟨storeMdmaen 0x00 s, rfl, rfl⟩
  · exact ⟨storeHdmaen v s, rfl, rfl⟩
  · exact exec_channelWrite_drives _ v _ s

/-! ### Accesses the Bus serves (R136) -/

/-- An access of the Bus is no action of the engine and leaves its registers, the platform and the queue. -/
theorem busAccess_frame (a : CpuAccess) (s : State) : State.sameEngine s (busAccess a s) ∧
    (busAccess a s).trace = s.trace ∧ (busAccess a s).cycles = s.cycles ∧ (busAccess a s).pending = s.pending ∧
    (busAccess a s).plat = s.plat := by
  rw [busAccess_same]
  exact ⟨⟨rfl, rfl, rfl⟩, rfl, rfl, rfl, rfl⟩

/-- Settles O7: a write is `resolveWrite` with its byte driven, a read the answer of `resolveRead`. -/
theorem foreignOffsetLeavesTheEngine : Obligations.ForeignOffsetLeavesTheEngine := by
  unfold Obligations.ForeignOffsetLeavesTheEngine
  refine ⟨fun s a v rest ha hp hforeign => ?_, fun s a rest ha hp hforeign => ?_⟩
  · obtain ⟨hengine, htrace, hcycles, hpending, hplat⟩ := busAccess_frame (.write a v) { s with pending := rest }
    obtain ⟨-, hbytes, -, -⟩ := resolveWrite_spec a v { s with pending := rest }
    exact ⟨_, step_bus s (.write a v) rest ha hp hforeign, hengine, htrace, hcycles, rfl, rfl, hpending, hplat, hbytes⟩
  · obtain ⟨hengine, htrace, hcycles, hpending, hplat⟩ := busAccess_frame (.read a) { s with pending := rest }
    refine ⟨_, _, step_bus s (.read a) rest ha hp hforeign, hengine, htrace, hcycles, rfl, rfl, hpending, hplat,
      (resolveRead_keeps a { s with pending := rest }).other, fun hs => ?_, fun hk => ?_⟩
    · exact congrArg Prod.fst (resolveRead_storage a { s with pending := rest } hs)
    · have hopen := congrArg Prod.fst (resolveRead_unmapped a { s with pending := rest } hk)
      exact ⟨hopen, hopen⟩

/-! ### The byte on the bus after a step that serves a CPU access (R139) -/

/-- A CPU access is the Bus's, or the engine's and then the instruction it decodes to (R73, R136). -/
theorem step_cpu {s : State} {a : CpuAccess} {rest : List Request} (ha : s.alone = none)
    (hp : s.pending = .cpu a :: rest) :
    step s = .next (busAccess a { s with pending := rest }) ∨
      routedToEngine s.plat a.addr = true ∧
        ∃ i, decode a.object = .ok i ∧ step s = exec i { s with pending := rest } := by
  cases hr : routedToEngine s.plat a.addr with
  | false => exact .inl (step_bus s a rest ha hp (.inl hr))
  | true =>
    cases hd : decode a.object with
    | error e => exact .inl (step_bus s a rest ha hp (.inr ⟨e, hd⟩))
    | ok i => exact .inr ⟨rfl, i, rfl, step_engine s a rest ha hp hr hd⟩

/-- A write that starts no general DMA leaves its byte on the bus. -/
theorem step_write_drives {s : State} {a : Addr} {v : Byte} {rest : List Request} (ha : s.alone = none)
    (hp : s.pending = .cpu (.write a v) :: rest)
    (hv : routedToEngine s.plat a = true → offsetOf a = 0x420B → v = 0x00) : ∃ t, step s = .next t ∧ t.mdr = v := by
  rcases step_cpu ha hp with hs | ⟨hr, i, hd, hs⟩
  · exact ⟨_, hs, rfl⟩
  · obtain ⟨t, hexec, hmdr⟩ := exec_regWrite_drives { s with pending := rest } hd (hv hr)
    exact ⟨t, hs.trans hexec, hmdr⟩

/-- The write that starts a general DMA leaves on the bus the last byte the DMA moved, whatever was there before. -/
theorem step_start_drives {s : State} {a : Addr} {v : Byte} {rest : List Request} (ha : s.alone = none)
    (hp : s.pending = .cpu (.write a v) :: rest) (hr : routedToEngine s.plat a = true) (ho : offsetOf a = 0x420B)
    (hv : v ≠ 0x00) : ∃ t l, step s = .next t ∧ t.trace = l ++ s.trace ∧ ∀ m, t.mdr = lastDriven m l := by
  have hd : decode (.regWrite (offsetOf a) v) = .ok (.wrMdmaen v) := by rw [ho]; rfl
  obtain ⟨l, hl, -, -, hdriven, -⟩ := runDma_spec (storeMdmaen v { s with pending := rest })
  exact ⟨_, l, (step_engine s (.write a v) rest ha hp hr hd).trans (congrArg Host.Outcome.next (writeMdmaen_start _ hv)),
    hl.trace, hdriven hv⟩

/-- A read returns a byte and leaves it on the bus. -/
theorem step_read_drives {s : State} {a : Addr} {rest : List Request} (ha : s.alone = none)
    (hp : s.pending = .cpu (.read a) :: rest) : ∃ t x, step s = .next t ∧ t.reply = some x ∧ t.mdr = x := by
  rcases step_cpu ha hp with hs | ⟨-, i, hd, hs⟩
  · exact ⟨_, _, hs, rfl, rfl⟩
  · obtain ⟨x, hx⟩ := regRead_answers hd
    obtain ⟨t, hexec, hreply, hmdr, -⟩ := hx { s with pending := rest }
    exact ⟨t, _, hs.trans hexec, hreply, hmdr⟩

/-- An offset of the engine without a readable register answers open bus (R121, R122, R135). -/
theorem readsOpenBus_answers {p : Platform} {a : Addr} (h : readsOpenBus p a) (hr : routedToEngine p a = true) :
    ∃ i, decode (.regRead (offsetOf a)) = .ok i ∧ AnswersWith i State.mdr := by
  rw [readsOpenBus, if_pos hr] at h
  rcases h with h | h | ⟨c, h⟩
  · exact ⟨_, h, rdMdmaen_answersOpenBus⟩
  · exact ⟨_, h, rdHdmaen_answersOpenBus⟩
  · obtain ⟨hC, hD, hE⟩ := rdUnmapped_answersOpenBus c
    rcases h with h | h | h
    · exact ⟨_, h, hC⟩
    · exact ⟨_, h, hD⟩
    · exact ⟨_, h, hE⟩

/-- An open-bus read returns the byte on the bus and leaves it (R67, R139). -/
theorem step_read_openBus {s : State} {a : Addr} {rest : List Request} (ha : s.alone = none)
    (hp : s.pending = .cpu (.read a) :: rest) (h : readsOpenBus s.plat a) :
    ∃ t, step s = .next t ∧ t.reply = some s.mdr ∧ t.mdr = s.mdr := by
  cases hr : routedToEngine s.plat a with
  | true =>
    obtain ⟨i, hd, hanswers⟩ := readsOpenBus_answers h hr
    obtain ⟨t, hexec, hreply, hmdr, -⟩ := hanswers { s with pending := rest }
    exact ⟨t, (step_engine s (.read a) rest ha hp hr hd).trans hexec, hreply, hmdr⟩
  | false =>
    have hk : regionKind s.plat a = .unmapped := by simpa [readsOpenBus, hr] using h
    have hopen := congrArg Prod.fst (resolveRead_unmapped a { s with pending := rest } hk)
    exact ⟨_, step_bus s (.read a) rest ha hp (.inl hr), congrArg some hopen, hopen⟩

/-- Settles O21, by whether a write starts a general DMA and whether a read is open bus; after the DMA the open-bus read
is the second step. -/
theorem mdrAfterRegisterAccess : Obligations.MdrAfterRegisterAccess := by
  unfold Obligations.MdrAfterRegisterAccess
  refine ⟨fun s a v rest ha hp => ?_, fun s a rest ha hp => ?_, fun s a b v rest ha hp hr ho hv hopen => ?_⟩
  · by_cases hstart : routedToEngine s.plat a = true ∧ offsetOf a = 0x420B ∧ v ≠ 0x00
    · obtain ⟨hr, ho, hv⟩ := hstart
      obtain ⟨t, l, hs, htrace, hmdr⟩ := step_start_drives ha hp hr ho hv
      exact ⟨t, hs, fun h => absurd (by simpa [hr, ho] using h) hv, fun _ _ _ => ⟨l, htrace, hmdr⟩⟩
    · obtain ⟨t, hs, hmdr⟩ := step_write_drives ha hp fun hr ho => by_contra fun hv => hstart ⟨hr, ho, hv⟩
      exact ⟨t, hs, fun _ => hmdr, fun hr ho hv => absurd ⟨hr, ho, hv⟩ hstart⟩
  · by_cases hopen : readsOpenBus s.plat a
    · obtain ⟨t, hs, hreply, hmdr⟩ := step_read_openBus ha hp hopen
      exact ⟨t, s.mdr, hs, hreply, hmdr, fun _ => ⟨rfl, hmdr⟩⟩
    · obtain ⟨t, x, hs, hreply, hmdr⟩ := step_read_drives ha hp
      exact ⟨t, x, hs, hreply, hmdr, fun h => absurd h hopen⟩
  · obtain ⟨t, l, hs, htrace, hmdr⟩ := step_start_drives ha hp hr ho hv
    obtain ⟨hplat, halone, hpending, -⟩ := step_spends hs
    have hnext : t.pending = .cpu (.read b) :: rest := by rw [hpending ha, hp]; rfl
    obtain ⟨u, hu, hreply, hdriven⟩ := step_read_openBus halone hnext (hplat ▸ hopen)
    exact ⟨t, u, l, hs, hu, htrace, fun m => hmdr m ▸ ⟨hreply, hdriven⟩⟩

end Sys2Proof.Machine
end

section
/-! General DMA: its address step and ports, one byte of it, a pattern row and the start mask. -/

namespace Sys2Proof.Machine

/-! ### The address step (R153) -/

theorem stepOffset_fixed (z : Bool) (x : Offset) : stepOffset true z x = x := rfl

theorem stepOffset_inc (x : Offset) : stepOffset false false x = BitVec.ofNat 16 ((x.toNat + 1) % 65536) := by
  apply BitVec.eq_of_toNat_eq
  simp [stepOffset]

theorem stepOffset_dec (x : Offset) : stepOffset false true x = BitVec.ofNat 16 ((x.toNat + 65535) % 65536) := by
  apply BitVec.eq_of_toNat_eq
  simp [stepOffset, BitVec.toNat_sub, Nat.add_comm]

/-- A row that puts `x` into `A1T[c]` changes nothing else. -/
theorem a1tRow_frame {i : Instr} {c : Channel} {s : State} {g : Offset → Offset} {x : Offset}
    (he : exec i s = .next (s.updCh c fun r => { r with a1t := g r.a1t })) (hx : g (s.ch c).a1t = x) :
    ∃ t, exec i s = .next t ∧ t.ch c = { s.ch c with a1t := x } ∧ State.sameOtherChannels c s t ∧
      t.mdmaen = s.mdmaen ∧ t.hdmaen = s.hdmaen ∧ t.mdr = s.mdr ∧ t.reply = s.reply ∧ State.sameOutside s t :=
  ⟨_, he, by rw [ch_updCh_same, hx], fun y hy => ch_updCh_other s c y _ hy, rfl, rfl, rfl, rfl, sameOutside_refl s⟩

/-- Settles O34: each row is `stepOffset` of the channel's address. -/
theorem addressStepRows : Obligations.AddressStepRows := by
  unfold Obligations.AddressStepRows
  exact fun c d n u p s => ⟨fun z => a1tRow_frame rfl (stepOffset_fixed z _), a1tRow_frame rfl (stepOffset_inc _),
    a1tRow_frame rfl (stepOffset_dec _)⟩

/-! ### The port of byte `i` (R156 to R163) -/

/-- The port of a byte is given by the entries of one unit. -/
theorem portOf_eq {pat : List Byte} {g : Nat → Byte} (b : Byte) (i : Nat) (hpos : 0 < pat.length)
    (hg : ∀ k < pat.length, pat.getD k 0 = g k) : portOf b pat i = b + g (i % pat.length) := by
  rw [portOf, hg _ (Nat.mod_lt i hpos)]

/-- A unit of zeros stays at the first port. -/
theorem portOf_zeros {pat : List Byte} (b : Byte) (i : Nat) (hpos : 0 < pat.length)
    (hzero : ∀ k < pat.length, pat.getD k 0 = 0) : portOf b pat i = b :=
  (portOf_eq b i hpos hzero).trans (BitVec.add_zero b)

theorem portOf_pattern3 (b : Byte) (i : Nat) : portOf b (pattern 3) i = b + BitVec.ofNat 8 (i / 2 % 2) := by
  have hunit : i % 4 / 2 = i / 2 % 2 := by omega
  rw [← hunit]
  exact portOf_eq (g := fun k => BitVec.ofNat 8 (k / 2)) b i (by decide) (by decide)

theorem portOf_pattern5 (b : Byte) (i : Nat) : portOf b (pattern 5) i = b + BitVec.ofNat 8 (i % 2) := by
  have hunit : i % 4 % 2 = i % 2 := by omega
  rw [← hunit]
  exact portOf_eq (g := fun k => BitVec.ofNat 8 (k % 2)) b i (by decide) (by decide)

/-- Settles O31, code by code; codes 6 and 7 have the entries of codes 2 and 3. -/
theorem patternPortOrder : Obligations.PatternPortOrder := by
  unfold Obligations.PatternPortOrder
  refine ⟨fun b i => ⟨portOf_zeros b i (by decide) (by decide),
    portOf_eq (g := BitVec.ofNat 8) b i (by decide) (by decide), portOf_zeros b i (by decide) (by decide),
    portOf_pattern3 b i, portOf_eq (g := BitVec.ofNat 8) b i (by decide) (by decide),
    portOf_pattern5 b i, rfl, rfl⟩, ?_⟩
  decide

/-! ### One byte (R152) -/

theorem portOf_zero (b : Byte) (pat : List Byte) : portOf b pat 0 = b + pat.getD 0 0 := by
  rw [portOf, Nat.zero_mod]

theorem exec_directionRow (d : Dir) (c : Channel) (n u z f : Bool) (p : BitVec 3) (s : State) :
    exec (directionRow d c n u z f p) s =
      .next (xferByte d (dmaAddr (s.ch c)) ((s.ch c).bbad + (pattern p).getD 0 0) s) := by
  rw [← portOf_zero]
  cases d <;> rfl

/-- The actions of one byte transfer that moves `v` between address `a` and port address `q`, the newest first. -/
def transferActions (p : Platform) (d : Dir) (a q : Addr) (v : Byte) : List Action :=
  match d, aSideBlocked p a with
  | .busToPort, false => [.charge p.unitCost, .write q v, .read a v]
  | .busToPort, true => [.charge p.unitCost, .write q v]
  | .portToBus, false => [.charge p.unitCost, .write a v, .read q v]
  | .portToBus, true => [.charge p.unitCost, .read q v]

/-- The address `x` is the one a byte transfer writes: the port, or the A side unless it is blocked (R70). -/
def transferWrites (p : Platform) (d : Dir) (a q x : Addr) : Prop :=
  match d with
  | .busToPort => x = q
  | .portToBus => x = a ∧ aSideBlocked p a = false

/-- The last byte on the bus is the byte moved, whatever was there before. -/
theorem lastDriven_transferActions (p : Platform) (d : Dir) (a q : Addr) (v m : Byte) :
    lastDriven m (transferActions p d a q v) = v := by
  unfold transferActions
  cases d <;> cases aSideBlocked p a <;> rfl

theorem charged_transferActions (p : Platform) (d : Dir) (a q : Addr) (v : Byte) :
    charged (transferActions p d a q v) = p.unitCost := by
  unfold transferActions
  cases d <;> cases aSideBlocked p a <;> rfl

theorem transferWrites_of_mem {p : Platform} {d : Dir} {a q x : Addr} {v w : Byte}
    (h : Action.write x w ∈ transferActions p d a q v) : transferWrites p d a q x := by
  unfold transferActions at h
  cases d with
  | busToPort =>
    have hport : x = q ∧ w = v := by cases hb : aSideBlocked p a <;> simpa [hb] using h
    exact hport.1
  | portToBus =>
    cases hb : aSideBlocked p a with
    | true => simp [hb] at h
    | false =>
      have hopen : x = a ∧ w = v := by simpa [hb] using h
      exact ⟨hopen.1, hb⟩

theorem memAfter_transferActions {p : Platform} {d : Dir} {a q x : Addr} (f : Addr → Byte) (v : Byte)
    (h : transferWrites p d a q x) :
    memAfter p f (transferActions p d a q v) x = if regionKind p x = .ram then v else f x := by
  unfold transferActions
  cases d with
  | busToPort =>
    obtain rfl : x = q := h
    cases aSideBlocked p a <;> simp [memAfter]
  | portToBus =>
    obtain ⟨rfl, hb⟩ : x = a ∧ aSideBlocked p a = false := h
    simp [hb, memAfter]

/-- A byte transfer by its actions; the byte it moves is the byte it leaves on the bus. -/
theorem xferByte_run_actions (d : Dir) (a : Addr) (p : Byte) (s : State) :
    EngineRun s (xferByte d a p s) (transferActions s.plat d a (portAddr p) (xferByte d a p s).mdr) := by
  obtain ⟨v, hrun, -⟩ := xferByte_spec d a p s
  have hactions : EngineRun s (xferByte d a p s) (transferActions s.plat d a (portAddr p) v) := by
    unfold transferActions
    cases d <;> cases hb : aSideBlocked s.plat a <;> simpa only [hb] using hrun
  have hmdr : (xferByte d a p s).mdr = v := hactions.mdr.trans (lastDriven_transferActions ..)
  rwa [hmdr]

/-- From bus to port the byte is the A side's: the bus's own where the address is blocked (R70). -/
theorem xferByte_busToPort_mdr (a : Addr) (p : Byte) (s : State) :
    (xferByte .busToPort a p s).mdr = if aSideBlocked s.plat a then s.mdr else (resolveRead a s).1 := by
  simp only [xferByte, moveByte, aSideRead, charge_mdr, memWrite_mdr]
  split <;> rfl

/-- From port to bus the byte is the port's, whether the A side takes it or not. -/
theorem xferByte_portToBus_mdr (a : Addr) (p : Byte) (s : State) :
    (xferByte .portToBus a p s).mdr = (resolveRead (portAddr p) s).1 := by
  simp only [xferByte, moveByte, aSideWrite, charge_mdr]
  split <;> rfl

/-- Settles O33: a row is one byte transfer, whose actions are `transferActions` of the byte it leaves on the bus. -/
theorem directionRowsMoveOneByte : Obligations.DirectionRowsMoveOneByte := by
  unfold Obligations.DirectionRowsMoveOneByte
  intro d c n u z f p s a q
  have hrun := xferByte_run_actions d a ((s.ch c).bbad + (pattern p).getD 0 0) s
  obtain ⟨hchans, hmdmaen, hhdmaen⟩ := xferByte_regs d a ((s.ch c).bbad + (pattern p).getD 0 0) s
  refine ⟨_, _, exec_directionRow d c n u z f p s, ?_, ?_, ?_, ?_, rfl, ?_, ⟨hchans.symm, hmdmaen.symm,
    hhdmaen.symm⟩, fun x hx hne => ?_, fun x hx hat hw => ?_, hrun.plat, hrun.pending, hrun.alone, hrun.reply⟩
  · refine hrun.trace.trans (congrArg (· ++ s.trace) ?_)
    unfold transferActions
    cases d <;> cases aSideBlocked s.plat a <;> rfl
  · rintro rfl hb
    exact (xferByte_busToPort_mdr ..).trans (if_pos hb)
  · rintro rfl hb
    exact (xferByte_busToPort_mdr ..).trans (if_neg (Bool.eq_false_iff.mp hb))
  · rintro rfl
    exact xferByte_portToBus_mdr ..
  · exact hrun.cycles.trans (congrArg _ (charged_transferActions ..))
  · refine hrun.mem x hx fun w hw => ?_
    have hwrites := transferWrites_of_mem hw
    cases d with
    | busToPort => exact hne hwrites
    | portToBus =>
      obtain ⟨hxa, hopen⟩ := hwrites
      exact hne.elim (fun h => h hxa) fun h => Bool.false_ne_true (hopen.symm.trans h)
  · have hwrites : transferWrites s.plat d a q x := by cases d <;> exact hat
    exact ((hrun.follows hw).1 x hx).trans (memAfter_transferActions _ _ hwrites)

/-! ### A pattern row (R151) -/

/-- Settles O30: the row is `RunChannel` under its pattern, in the closed form of `runChannel_spec`. -/
theorem patternRowsRunTheChannel : Obligations.PatternRowsRunTheChannel := by
  unfold Obligations.PatternRowsRunTheChannel
  intro p c d n u z f s
  obtain ⟨l, hrun, hcost, haccesses, -, -, hch, hmdmaen, hhdmaen⟩ := runChannel_spec (pattern p) d z f c s
  refine ⟨_, l, exec_patternRow p c d n u z f s, hrun.trace, (hch c).trans (if_pos rfl),
    fun x hx => (hch x).trans (if_neg hx), hmdmaen, hhdmaen, ?_, haccesses, hrun.mdr, hrun.carries, hrun.follows,
    fun a hs ha => hrun.mem a hs (not_written ha), hrun.plat, hrun.pending, hrun.alone, hrun.reply⟩
  rw [hrun.cycles, hcost, dmaCost, Nat.add_assoc]

/-! ### The start mask (R150) -/

/-- Both forms of the start store the mask and run the general DMA (R121, R150). -/
theorem exec_start {m : Byte} (s : State) (hm : m ≠ 0x00) {i : Instr}
    (hi : i ∈ [Instr.wrMdmaen m, Instr.mdmaenStart m]) : exec i s = .next (runDma (storeMdmaen m s)) := by
  rcases List.mem_pair.mp hi with rfl | rfl
  · exact congrArg Host.Outcome.next (writeMdmaen_start s hm)
  · rfl

theorem ownAfter_eq (r : ChannelRegs) :
    ownAfter r = { r with a1t := (ownAfter r).a1t, das := (ownAfter r).das } := rfl

/-- Where the step direction of the control byte puts the address (R164). -/
theorem ownAfter_a1t (r : ChannelRegs) :
    (ctrlFix r.dmap = false → ctrlDec r.dmap = false →
      (ownAfter r).a1t = r.a1t + BitVec.ofNat 16 (byteCount r.das)) ∧
    (ctrlFix r.dmap = false → ctrlDec r.dmap = true →
      (ownAfter r).a1t = r.a1t - BitVec.ofNat 16 (byteCount r.das)) ∧
    (ctrlFix r.dmap = true → (ownAfter r).a1t = r.a1t) := by
  refine ⟨fun hf hz => ?_, fun hf hz => ?_, fun hf => ?_⟩
  · simp [ownAfter, dmaAfter, offsetAfter, hf, hz]
  · simp [ownAfter, dmaAfter, offsetAfter, hf, hz]
  · simp [ownAfter, dmaAfter, offsetAfter, hf]

/-- Settles O25: the closed form of `RunDMA`, where a started channel ends as `ownAfter`. -/
theorem startMaskCompletesItsChannels : Obligations.StartMaskCompletesItsChannels := by
  unfold Obligations.StartMaskCompletesItsChannels
  intro m s hm i hi
  obtain ⟨l, hrun, -, -, -, hch, hmdmaen, hhdmaen⟩ := runDma_spec (storeMdmaen m s)
  refine ⟨_, exec_start s hm hi, hmdmaen, fun c hc => ?_, fun c hc => ?_, hhdmaen, hrun.plat, hrun.pending,
    hrun.alone, hrun.reply⟩
  · have hown : (runDma (storeMdmaen m s)).ch c = ownAfter (s.ch c) := (hch c).trans (if_pos hc)
    obtain ⟨hinc, hdec, hfix⟩ := ownAfter_a1t (s.ch c)
    rw [hown]
    exact ⟨rfl, rfl, hinc, hdec, hfix, ownAfter_eq _⟩
  · exact (hch c).trans (if_neg (Bool.eq_false_iff.mp hc))

/-- Settles O27: the accesses of `RunDMA` in closed form, and what its run makes of storage. -/
theorem startMaskServesChannelsInOrder : Obligations.StartMaskServesChannelsInOrder := by
  unfold Obligations.StartMaskServesChannelsInOrder
  intro m s hm i hi
  obtain ⟨l, hrun, -, haccesses, -⟩ := runDma_spec (storeMdmaen m s)
  exact ⟨_, l, exec_start s hm hi, hrun.trace, haccesses, hrun.carries, hrun.follows,
    fun a hs ha => hrun.mem a hs (not_written ha)⟩

/-! ### A start of one channel (R150) -/

/-- A channel without its bit has no turn. -/
theorem serveDma_idle {s : State} {c : Channel} (h : maskBit s.mdmaen c = false) : serveDma s c = s := by
  simp [serveDma, h]

/-- A channel with its bit runs, and the bit clears. -/
theorem serveDma_started {s : State} {c : Channel} (h : maskBit s.mdmaen c = true) :
    serveDma s c = { runChannelRegs c s with mdmaen := clearMaskBit (runChannelRegs c s).mdmaen c } := if_pos h

theorem foldl_serveDma_idle (cs : List Channel) {s : State} (h : ∀ x, maskBit s.mdmaen x = false) :
    cs.foldl serveDma s = s := by
  induction cs with
  | nil => rfl
  | cons c cs ih => rw [List.foldl_cons, serveDma_idle (h c), ih]

theorem maskBit_single (c x : Channel) : maskBit (1#8 <<< c.val) x = decide (x = c) := by
  revert c x
  decide

theorem clearMaskBit_single (c : Channel) : clearMaskBit (1#8 <<< c.val) c = 0x00 :=
  mask_zero _ fun x => by rw [maskBit_clear, maskBit_single]; simp

/-- Where only the bit of `c` is set, only `c` has a turn. -/
theorem foldl_serveDma_single {cs : List Channel} {c : Channel} (hc : c ∈ cs) {s : State}
    (h : s.mdmaen = 1#8 <<< c.val) : cs.foldl serveDma s = serveDma s c := by
  induction cs with
  | nil => exact absurd hc List.not_mem_nil
  | cons x cs ih =>
    rw [List.foldl_cons]
    rcases eq_or_ne x c with rfl | hx
    · obtain ⟨-, -, -, -, -, -, hmask, -⟩ := serveDma_spec s x
      refine foldl_serveDma_idle cs fun y => ?_
      rw [hmask, h, maskBit_single]
      simp
    · have hidle : maskBit s.mdmaen x = false := by rw [h, maskBit_single]; simpa using hx
      rw [serveDma_idle hidle]
      exact ih ((List.mem_cons.mp hc).resolve_left hx.symm)

/-- `RunDMA` of one channel is that channel's run, with `MDMAEN` zero after it. -/
theorem runDma_single {s : State} {c : Channel} (h : s.mdmaen = 1#8 <<< c.val) :
    runDma s = { runChannelRegs c s with mdmaen := 0x00 } := by
  have hkept : (runChannelRegs c s).mdmaen = 1#8 <<< c.val := by
    obtain ⟨-, -, -, -, -, -, -, hmdmaen, -⟩ := runChannel_spec (pattern (ctrlPat (s.ch c).dmap))
      (ctrlDir (s.ch c).dmap) (ctrlDec (s.ch c).dmap) (ctrlFix (s.ch c).dmap) c s
    exact hmdmaen.trans h
  have hstarted : maskBit s.mdmaen c = true := by rw [h, maskBit_single]; simp
  rw [runDma, foldl_serveDma_single (mem_channels c) h, serveDma_started hstarted, hkept, clearMaskBit_single]

theorem single_ne_zero (c : Channel) : (1#8 <<< c.val) ≠ 0x00 := by
  revert c
  decide

/-- The row a control byte matches is the pattern row of its fields (R93, R103). -/
theorem decodePattern_eq (c : Channel) (b : Byte) :
    decodePattern c b = patternRow (ctrlPat b) c (ctrlDir b) (ctrlInd b) (ctrlUnused b) (ctrlDec b) (ctrlFix b) := by
  rw [← decodePattern_ctrlByte, ctrlByte_fields]

/-- Settles O28: the row of the control byte is the channel's own run, and the run of the mask is no other. -/
theorem enabledChannelRunsItsPatternRow : Obligations.EnabledChannelRunsItsPatternRow := by
  unfold Obligations.EnabledChannelRunsItsPatternRow
  intro c s i hi
  obtain rfl := Except.ok.inj hi
  refine ⟨runChannelRegs c (storeMdmaen (1#8 <<< c.val) s), ?_, ?_⟩
  · rw [decodeCtrl, decodePattern_eq, exec_patternRow]
    rfl
  · rw [exec_start s (single_ne_zero c) (by simp), runDma_single rfl]

end Sys2Proof.Machine
end

section
/-! What a general DMA depends on (R169): two runs side by side, from states that agree in what it reads. -/

namespace Sys2Proof.Machine

/-! ### The Bus's side of two states -/

/-- Everything but the engine's own registers and the bus master's answer agrees: all that the Bus works on. -/
abbrev SameBus (s s' : State) : Prop := State.sameOutside s s' ∧ s.mdr = s'.mdr

/-- `s` with the engine's registers and the bus master's answer of `e`. -/
def State.withEngine (s e : State) : State :=
  { s with chans := e.chans, mdmaen := e.mdmaen, hdmaen := e.hdmaen, reply := e.reply }

@[simp] theorem withEngine_plat (s e : State) : (s.withEngine e).plat = s.plat := rfl
@[simp] theorem withEngine_mdr (s e : State) : (s.withEngine e).mdr = s.mdr := rfl

theorem sameBus_withEngine (s e : State) : SameBus s (s.withEngine e) := ⟨sameOutside_refl s, rfl⟩

theorem eq_withEngine {s s' : State} (h : SameBus s s') : s' = s.withEngine s' := by
  obtain ⟨⟨hmem, hcycles, htrace, hdeviceIn, hdraws, hplat, hpending, halone⟩, hmdr⟩ := h
  simp only [State.withEngine, hmem, hcycles, htrace, hdeviceIn, hdraws, hplat, hpending, halone, hmdr]

theorem sameBus_plat {s s' : State} (h : SameBus s s') : s.plat = s'.plat :=
  (congrArg State.plat (eq_withEngine h)).symm

theorem resolveRead_withEngine (a : Addr) (s e : State) :
    resolveRead a (s.withEngine e) = ((resolveRead a s).1, (resolveRead a s).2.withEngine e) := by
  simp only [resolveRead, deviceRead, actAnswer, State.withEngine]
  split
  · rfl
  · rfl
  · split
    · split <;> rfl
    · rfl
  · rfl

theorem memRead_withEngine (a : Addr) (s e : State) :
    memRead a (s.withEngine e) = ((memRead a s).1, (memRead a s).2.withEngine e) := by
  simp only [memRead, resolveRead_withEngine]
  rfl

theorem memWrite_withEngine (a : Addr) (v : Byte) (s e : State) :
    memWrite a v (s.withEngine e) = (memWrite a v s).withEngine e := by
  have hresolve : resolveWrite a v (s.withEngine e) = (resolveWrite a v s).withEngine e := by
    simp only [resolveWrite, deviceWrite, State.withEngine]
    split
    · rfl
    · rfl
    · split <;> rfl
    · rfl
  simp only [memWrite, hresolve]
  rfl

theorem aSideRead_withEngine (a : Addr) (s e : State) :
    aSideRead a (s.withEngine e) = ((aSideRead a s).1, (aSideRead a s).2.withEngine e) := by
  cases hb : aSideBlocked s.plat a with
  | true => simp [aSideRead, hb]
  | false => simp [aSideRead, hb, memRead_withEngine]

theorem aSideWrite_withEngine (a : Addr) (v : Byte) (s e : State) :
    aSideWrite a v (s.withEngine e) = (aSideWrite a v s).withEngine e := by
  cases hb : aSideBlocked s.plat a with
  | true => simp [aSideWrite, hb]
  | false => simp [aSideWrite, hb, memWrite_withEngine]

/-- A byte transfer neither reads nor writes the engine's registers. -/
theorem xferByte_withEngine (d : Dir) (a : Addr) (p : Byte) (s e : State) :
    xferByte d a p (s.withEngine e) = (xferByte d a p s).withEngine e := by
  have hmove : moveByte d a p (s.withEngine e) = (moveByte d a p s).withEngine e := by
    cases d with
    | busToPort => simp only [moveByte, aSideRead_withEngine, memWrite_withEngine]
    | portToBus => simp only [moveByte, memRead_withEngine, aSideWrite_withEngine]
  simp only [xferByte, hmove]
  rfl

theorem xferByte_sameBus (d : Dir) (a : Addr) (p : Byte) {s s' : State} (h : SameBus s s') :
    SameBus (xferByte d a p s) (xferByte d a p s') := by
  rw [eq_withEngine h, xferByte_withEngine]
  exact sameBus_withEngine ..

/-! ### The registers a general DMA reads -/

/-- The registers that the transfers of a channel read, beside its control byte. -/
structure SameTransfer (r q : ChannelRegs) : Prop where
  bbad : r.bbad = q.bbad
  a1t : r.a1t = q.a1t
  a1b : r.a1b = q.a1b
  das : r.das = q.das

/-- One pass of the loop on two states that agree in what it reads. -/
theorem transferByte_agrees (pat : List Byte) (d : Dir) (z f : Bool) {c : Channel} (i : Nat) {s s' : State}
    (h : SameBus s s') (hr : SameTransfer (s.ch c) (s'.ch c)) :
    SameBus (transferByte pat d z f c i s) (transferByte pat d z f c i s') ∧
      SameTransfer ((transferByte pat d z f c i s).ch c) ((transferByte pat d z f c i s').ch c) := by
  obtain ⟨hbbad, ha1t, ha1b, hdas⟩ := hr
  refine ⟨?_, ?_⟩
  · simp only [transferByte, dmaAddr, hbbad, ha1t, ha1b]
    exact xferByte_sameBus d _ _ h
  · simp only [transferByte_ch, if_true]
    exact ⟨hbbad, congrArg (stepOffset f z) ha1t, ha1b, congrArg (· - 1) hdas⟩

theorem transferLoop_sameBus (pat : List Byte) (d : Dir) (z f : Bool) {c : Channel} (fuel i : Nat) {s s' : State}
    (h : SameBus s s') (hr : SameTransfer (s.ch c) (s'.ch c)) :
    SameBus (transferLoop pat d z f c fuel i s) (transferLoop pat d z f c fuel i s') := by
  induction fuel generalizing i s s' with
  | zero => exact h
  | succ fuel ih =>
    obtain ⟨hbus, hregs⟩ := transferByte_agrees pat d z f i h hr
    simp only [transferLoop, hregs.das]
    split
    · exact hbus
    · exact ih (i + 1) hbus hregs

theorem charge_sameBus {s s' : State} (n : Nat) (h : SameBus s s') : SameBus (charge n s) (charge n s') := by
  rw [eq_withEngine h]
  exact sameBus_withEngine (charge n s) s'

theorem runChannel_sameBus (pat : List Byte) (d : Dir) (z f : Bool) {c : Channel} {s s' : State} (h : SameBus s s')
    (hr : SameTransfer (s.ch c) (s'.ch c)) : SameBus (runChannel pat d z f c s) (runChannel pat d z f c s') := by
  unfold runChannel
  rw [sameBus_plat h]
  exact transferLoop_sameBus pat d z f _ _ (charge_sameBus _ h) hr

/-- All that a general DMA reads of a channel: the fields of its control byte without `ind` and `u`, and the registers
of its transfers (R169). -/
structure SameDma (r q : ChannelRegs) : Prop where
  transfer : SameTransfer r q
  dir : ctrlDir r.dmap = ctrlDir q.dmap
  dec : ctrlDec r.dmap = ctrlDec q.dmap
  fix : ctrlFix r.dmap = ctrlFix q.dmap
  pat : ctrlPat r.dmap = ctrlPat q.dmap

theorem ownAfter_agrees {r q : ChannelRegs} (h : SameDma r q) :
    (ownAfter r).a1t = (ownAfter q).a1t ∧ (ownAfter r).das = (ownAfter q).das := by
  refine ⟨?_, rfl⟩
  simp only [ownAfter, dmaAfter, h.dec, h.fix, h.transfer.a1t, h.transfer.das]

/-- Two states that agree in all that `RunDMA` reads: the Bus's side, the mask, and the channels of the mask. -/
structure DmaAgrees (s s' : State) : Prop where
  bus : SameBus s s'
  mask : ∀ x, maskBit s.mdmaen x = maskBit s'.mdmaen x
  regs : ∀ x, maskBit s.mdmaen x = true → SameDma (s.ch x) (s'.ch x)

theorem serveDma_sameBus {s s' : State} (c : Channel) (h : DmaAgrees s s') :
    SameBus (serveDma s c) (serveDma s' c) := by
  cases hc : maskBit s.mdmaen c with
  | false =>
    rw [serveDma_idle hc, serveDma_idle ((h.mask c).symm.trans hc)]
    exact h.bus
  | true =>
    obtain ⟨htransfer, hdir, hdec, hfix, hpat⟩ := h.regs c hc
    rw [serveDma_started hc, serveDma_started ((h.mask c).symm.trans hc), runChannelRegs, runChannelRegs]
    simp only [hdir, hdec, hfix, hpat]
    exact runChannel_sameBus _ _ _ _ h.bus htransfer

/-- A turn keeps the agreement: the channels still to come are not touched. -/
theorem serveDma_agrees {s s' : State} (c : Channel) (h : DmaAgrees s s') :
    DmaAgrees (serveDma s c) (serveDma s' c) := by
  obtain ⟨-, -, -, -, -, hch, hmask, -⟩ := serveDma_spec s c
  obtain ⟨-, -, -, -, -, hch', hmask', -⟩ := serveDma_spec s' c
  refine ⟨serveDma_sameBus c h, fun x => ?_, fun x hx => ?_⟩
  · rw [hmask, hmask', h.mask]
  · rw [hmask, Bool.and_eq_true, decide_eq_true_eq] at hx
    obtain ⟨hx, hne⟩ := hx
    rw [hch, hch', if_neg fun e => hne e.1, if_neg fun e => hne e.1]
    exact h.regs x hx

theorem foldl_serveDma_agrees (cs : List Channel) {s s' : State} (h : DmaAgrees s s') :
    DmaAgrees (cs.foldl serveDma s) (cs.foldl serveDma s') := by
  induction cs generalizing s s' with
  | nil => exact h
  | cons c cs ih => exact ih (serveDma_agrees c h)

/-- A general DMA on two states that agree in what it reads: everything outside the engine agrees afterwards, and the
started channels agree in what it writes. -/
theorem runDma_agrees {s s' : State} (h : DmaAgrees s s') : SameBus (runDma s) (runDma s') ∧
    ∀ c, maskBit s.mdmaen c = true →
      ((runDma s).ch c).a1t = ((runDma s').ch c).a1t ∧ ((runDma s).ch c).das = ((runDma s').ch c).das := by
  obtain ⟨-, -, -, -, -, hch, -⟩ := runDma_spec s
  obtain ⟨-, -, -, -, -, hch', -⟩ := runDma_spec s'
  refine ⟨(foldl_serveDma_agrees channels h).bus, fun c hc => ?_⟩
  rw [hch, hch', if_pos hc, if_pos ((h.mask c).symm.trans hc)]
  exact ownAfter_agrees (h.regs c hc)

/-- A write to `MDMAEN` writes `A1T` and `DAS` of the channels it starts and no other register of a channel, nor
`HDMAEN` (R169). -/
theorem writeMdmaen_frame (m : Byte) (s : State) : (writeMdmaen m s).hdmaen = s.hdmaen ∧
    ∀ c, (writeMdmaen m s).ch c = if maskBit m c then ownAfter (s.ch c) else s.ch c := by
  rcases eq_or_ne m 0x00 with rfl | hm
  · exact ⟨rfl, fun c => by simp [writeMdmaen, maskBit]⟩
  · rw [writeMdmaen_start s hm]
    obtain ⟨-, -, -, -, -, hch, -, hhdmaen⟩ := runDma_spec (storeMdmaen m s)
    exact ⟨hhdmaen, hch⟩

/-- Settles O29: `runDma_agrees` after the mask byte is stored, and `writeMdmaen_frame`. -/
theorem generalDmaIgnoresHdmaState : Obligations.GeneralDmaIgnoresHdmaState := by
  unfold Obligations.GeneralDmaIgnoresHdmaState
  refine ⟨fun m s s' hm hout hregs => ?_, fun m s t h => ?_⟩
  · have hagree : DmaAgrees (storeMdmaen m s) (storeMdmaen m s') := by
      refine ⟨⟨hout, rfl⟩, fun _ => rfl, fun c hc => ?_⟩
      obtain ⟨hbbad, ha1t, ha1b, hdas, hdir, hdec, hfix, hpat⟩ := hregs c hc
      exact ⟨⟨hbbad, ha1t, ha1b, hdas⟩, hdir, hdec, hfix, hpat⟩
    obtain ⟨⟨houtside, hmdr⟩, hwritten⟩ := runDma_agrees hagree
    exact ⟨_, _, exec_start s hm (by simp), exec_start s' hm (by simp), houtside, hmdr, hwritten⟩
  · obtain rfl : writeMdmaen m s = t := Host.Outcome.next.inj h
    obtain ⟨hhdmaen, hch⟩ := writeMdmaen_frame m s
    refine ⟨hhdmaen, fun c hc => (hch c).trans (if_neg (Bool.eq_false_iff.mp hc)), fun c => ?_⟩
    rw [hch]
    split <;> rfl

end Sys2Proof.Machine
end

section
/-! HDMA: the header rows, a table entry, one unit, and the two events in closed form. -/

namespace Sys2Proof.Machine

/-! ### Header rows (R183, R184, R186, R187) -/

/-- Settles O36: `takeTerminator` changes the channel as `loadTerminator` says and nothing else. -/
theorem terminatorDisablesTheChannel : Obligations.TerminatorDisablesTheChannel := by
  unfold Obligations.TerminatorDisablesTheChannel
  intro c s
  obtain ⟨hrun, hch⟩ := takeTerminator_spec c s
  have hdone : ((takeTerminator c s).ch c).done = true := by rw [hch]; rfl
  exact ⟨_, rfl, hch, hrun.others, rfl, rfl, rfl, rfl, sameOutside_refl s, active_of_done hdone⟩

theorem exec_linesRow (h : Byte) (c : Channel) (s : State) : exec (linesRow h c) s = .next (takeLines c h s) := by
  have hfields := headerByte_fields h
  unfold linesRow
  split_ifs with h128 hrepeat
  · rw [h128]; rfl
  · rw [hrepeat] at hfields
    exact congrArg (fun b => Host.Outcome.next (takeLines c b s)) hfields
  · rw [Bool.eq_false_iff.mpr hrepeat] at hfields
    exact congrArg (fun b => Host.Outcome.next (takeLines c b s)) hfields

/-- A header that was fetched ends the channel or starts its entry (R183, R184). -/
theorem exec_decodeHeader (h : Byte) (c : Channel) (s : State) :
    exec (decodeHeader c h) s = .next (if h = 0x00 then takeTerminator c s else takeLines c h s) := by
  by_cases h0 : h = 0x00
  · rw [if_pos h0, decodeHeader, if_pos h0]; rfl
  · rw [if_neg h0, decodeHeader, if_neg h0]; exact exec_linesRow h c s

/-- In direct mode a header's entry has no pointer to fetch (R183). -/
theorem takeLines_direct {c : Channel} {s : State} (h : Byte) (hd : ctrlInd (s.ch c).dmap = false) :
    takeLines c h s = s.updCh c (loadLines h) := by
  have hdmap : ((s.updCh c (loadLines h)).ch c).dmap = (s.ch c).dmap := by rw [ch_updCh_same]; rfl
  rw [takeLines, hdmap, hd]
  rfl

/-- A run of table fetches charges `unit_cost` for each byte it reads. -/
theorem TableRun.cycles {s t : State} {l : List Action} (ht : TableRun s t l) (hrun : EngineRun s t l) :
    t.cycles = s.cycles + (readsOf l).length * s.plat.unitCost := by
  rw [hrun.cycles, ht.cost]

/-- Settles O37, by the addressing mode: in direct mode nothing is fetched, in indirect mode the pointer. -/
theorem lineHeadersStartTheirEntry : Obligations.LineHeadersStartTheirEntry := by
  unfold Obligations.LineHeadersStartTheirEntry
  intro h c s h0
  rw [exec_linesRow]
  cases hd : ctrlInd (s.ch c).dmap with
  | false =>
    rw [takeLines_direct h hd]
    have ht := tableRun_updCh c s (loadLines h)
    exact ⟨_, 0, 0, [], rfl, rfl, rfl, ht.cycles (engineRun_updCh s c _), rfl, fun x hx => ch_updCh_other s c x _ hx,
      rfl, rfl, rfl, rfl, rfl, rfl, ht.mem, ht.bytes, fun _ => ⟨rfl, ch_updCh_same s c _, sameOutside_refl s⟩, nofun⟩
  | true =>
    obtain ⟨lo, hi, l, hl, ht, hreads, hch⟩ := takeLines_spec c h s
    rw [if_pos hd] at hreads hch
    exact ⟨_, lo, hi, l, rfl, hl.run.trace, ht.writes, ht.cycles hl.run, hl.run.mdr, hl.others, hl.mdmaen, hl.hdmaen,
      hl.run.plat, hl.run.pending, hl.run.alone, hl.run.reply, ht.mem, ht.bytes, nofun, fun _ => ⟨hreads, hch⟩⟩

/-! ### An entry that is loaded alone (R183) -/

theorem step_loadEntry {s : State} {c : Channel} (ha : s.alone = some (.entry c)) :
    step s = .next (loadEntry c { s with alone := none }) :=
  (step_part ha rfl rfl).trans (exec_decodeHeader ..)

/-- Settles O35: the step is `LoadEntry`, in the closed form of `loadEntry_spec`. -/
theorem entryRequestLoadsTheEntry : Obligations.EntryRequestLoadsTheEntry := by
  unfold Obligations.EntryRequestLoadsTheEntry
  intro s c ha
  obtain ⟨h, lo, hi, l, hl, ht, hreads, hch⟩ := loadEntry_spec c { s with alone := none }
  exact ⟨_, h, lo, hi, l, step_loadEntry ha, hl.run.trace, hreads, ht.writes, ht.bytes, hch, hl.others, hl.mdmaen,
    hl.hdmaen, ht.mem, ht.cycles hl.run, hl.run.mdr, hl.run.plat, hl.run.pending, hl.run.alone, hl.run.reply⟩

/-! ### One unit (R188 to R190) -/

theorem exec_addressingRow (ind : Bool) (c : Channel) (d : Dir) (u z f : Bool) (p : BitVec 3) (s : State) :
    exec (addressingRow ind c d u z f p) s = .next (hdmaUnit d ind p c s) := by
  cases ind <;> rfl

/-- The address of data byte `k` of a unit: the pointer of the addressing mode, `k` further in its bank (R193). -/
theorem dataAddr_unitAfter (ind : Bool) (k : Nat) (r : ChannelRegs) :
    dataAddr ind (unitAfter ind k r) =
      if ind then busAddr r.dasb (r.das + BitVec.ofNat 16 k) else busAddr r.a1b (r.a2a + BitVec.ofNat 16 k) := by
  cases ind <;> rfl

/-- Settles O38: the row is one unit, in the closed form of `hdmaUnit_spec`, read in each addressing mode. -/
theorem addressingRowsMoveOneUnit : Obligations.AddressingRowsMoveOneUnit := by
  unfold Obligations.AddressingRowsMoveOneUnit
  intro ind c d u z f p s
  obtain ⟨l, hl, hcost, haccesses, hmoved, hch⟩ := hdmaUnit_spec d ind p c s
  refine ⟨_, l, exec_addressingRow ind c d u z f p s, hl.run.trace, ?_, ?_, fun hb => hmoved fun k hk => ?_,
    by rw [hl.run.cycles, hcost], hl.run.mdr, hl.run.carries, hl.run.follows,
    fun a hs ha => hl.run.mem a hs (not_written ha), hl.others, hl.mdmaen, hl.hdmaen, hl.run.plat, hl.run.pending,
    hl.run.alone, hl.run.reply⟩
  · rintro rfl
    exact ⟨hch, haccesses⟩
  · rintro rfl
    exact ⟨hch, haccesses⟩
  · rw [dataAddr_unitAfter]
    exact hb k hk

end Sys2Proof.Machine
end

section
/-! HDMA: the frame start and the scanline, what each moves and what it leaves of every channel. -/

namespace Sys2Proof.Machine

/-! ### The frame start (R182) -/

/-- With no channel enabled the frame start clears the flags and does nothing else (R182). -/
theorem hdmaInit_idle {s : State} (h : s.hdmaen = 0x00) : hdmaInit s = clearAllHidden s :=
  if_pos (c := (clearAllHidden s).hdmaen = 0x00) h

/-- The action of the frame start before its table fetches (R182). -/
def setupCharge (s : State) : List Action := if s.hdmaen = 0x00 then [] else [.charge s.plat.hdmaSetupCost]

theorem setupCharge_noAccess (s : State) : readsOf (setupCharge s) = [] ∧ writesOf (setupCharge s) = [] := by
  unfold setupCharge
  split <;> exact ⟨rfl, rfl⟩

theorem charged_setupCharge {s : State} (h : s.hdmaen ≠ 0x00) : charged (setupCharge s) = s.plat.hdmaSetupCost :=
  congrArg charged (if_neg h)

/-- Settles O39: the closed form of `HdmaInit`; with no channel enabled it made no actions, for the trace did not
grow. -/
theorem frameStartLoadsEveryEnabledChannel : Obligations.FrameStartLoadsEveryEnabledChannel := by
  unfold Obligations.FrameStartLoadsEveryEnabledChannel
  intro s
  obtain ⟨e, l, (hrun : EngineRun s (hdmaInit s) (l ++ setupCharge s)), ht, hfetched, hch, hmdmaen, hhdmaen⟩ :=
    hdmaInit_spec s
  obtain ⟨hsetupReads, hsetupWrites⟩ := setupCharge_noAccess s
  have hreads : readsOf (l ++ setupCharge s) = readsOf l := by
    rw [readsOf_append, hsetupReads, List.nil_append]
  refine ⟨hdmaInit s, _, fun c => (e c).1, fun c => (e c).2.1, fun c => (e c).2.2, rfl, hrun.trace,
    fun c hc => ?_, fun c hc => ?_, ?_, hreads.trans hfetched, hreads ▸ ht.bytes, fun h0 => ?_, fun h0 => ?_,
    hrun.cycles, hrun.mdr, ht.mem, hmdmaen, hhdmaen, hrun.plat, hrun.pending, hrun.alone, hrun.reply⟩
  · rw [hch, startAfter, hc]; rfl
  · rw [hch, startAfter, hc]; rfl
  · rw [writesOf_append, hsetupWrites, ht.writes]; rfl
  · rw [hdmaInit_idle h0] at hrun ⊢
    exact ⟨List.self_eq_append_left.mp hrun.trace, sameOutside_refl s⟩
  · rw [hrun.cycles, hreads, charged_append, ht.cost, charged_setupCharge h0]
    omega

/-! ### A scanline (R185) -/

theorem anyActive_of_active {s : State} {c : Channel} (h : active c s = true) : anyActive s = true :=
  List.any_eq_true.mpr ⟨c, mem_channels c, h⟩

theorem anyActive_false {s : State} (h : ∀ c, active c s = false) : anyActive s = false :=
  List.any_eq_false.mpr fun c _ => Bool.eq_false_iff.mp (h c)

/-! The setup charge moves no byte, so what the two passes do to the Bus and to storage does not depend on it. -/

theorem lastDriven_append_charge (b : Byte) (l : List Action) (n : Nat) :
    lastDriven b (l ++ [.charge n]) = lastDriven b l := by
  rw [lastDriven_append]; rfl

theorem carriesBusByte_of_append_charge {b : Byte} {l : List Action} {n : Nat}
    (h : carriesBusByte b (l ++ [.charge n])) : carriesBusByte b l := ((carriesBusByte_append ..).mp h).1

theorem storageFollows_of_append_charge {s t : State} {l : List Action} {n : Nat}
    (h : StorageFollows s t (l ++ [.charge n])) : StorageFollows s t l := by
  obtain ⟨hbytes, hreads⟩ := h
  exact ⟨fun a ha => (hbytes a ha).trans (memAfter_append ..), ((readsStorage_append ..).mp hreads).1⟩

theorem not_write_of_noWrites {l : List Action} (h : writesOf l = []) (a : Addr) : Access.write a ∉ accessesOf l := by
  intro ha
  obtain ⟨v, hv⟩ := write_mem_accessesOf ha
  simp [h] at hv

/-- Settles O40: the closed form of `HdmaLine`, with the setup charge taken off the front of its actions. -/
theorem scanlineIsTwoPasses : Obligations.ScanlineIsTwoPasses := by
  unfold Obligations.ScanlineIsTwoPasses
  refine ⟨fun s h => congrArg Host.Outcome.next (hdmaLine_idle (anyActive_false h)), fun s ⟨c, hc⟩ => ?_⟩
  obtain ⟨e, l, m, hrun, hcost, haccesses, hmoved, hwrites, mcost, hbytes, hreads, hch, hmdmaen, hhdmaen⟩ :=
    hdmaLine_spec s (anyActive_of_active hc)
  rw [← List.append_assoc] at hrun
  refine ⟨hdmaLine s, l, m, fun c => (e c).1, fun c => (e c).2.1, fun c => (e c).2.2, rfl, hrun.trace, haccesses,
    fun hb => hmoved fun c ht => ?_, hwrites, hreads, hbytes, hrun.mdr.trans (lastDriven_append_charge ..),
    carriesBusByte_of_append_charge hrun.carries, fun hw => storageFollows_of_append_charge (hrun.follows hw),
    fun c hc => (hch c).trans (if_pos hc), fun c hc => (hch c).trans (if_neg (Bool.eq_false_iff.mp hc)), ?_,
    fun a hs ha => hrun.mem a hs (not_written ?_), hmdmaen, hhdmaen, hrun.plat, hrun.pending, hrun.alone, hrun.reply⟩
  · obtain ⟨hactive, htransfer⟩ := Bool.and_eq_true_iff.mp ht
    exact hb c hactive htransfer
  · rw [hrun.cycles, charged_append, charged_append, hcost, mcost]
    simp only [charged, Nat.add_mul]
    have hunits : (channels.map fun c => passBytes s.hdmaen c (s.ch c)) = channels.map fun c =>
        if active c s && (s.ch c).doTransfer then unitSize (ctrlPat (s.ch c).dmap) else 0 := rfl
    rw [hunits]
    omega
  · rw [accessesOf_append, accessesOf_append, List.mem_append, List.mem_append]
    rintro (hsetup | hpass1 | hpass2)
    · exact List.not_mem_nil hsetup
    · exact ha hpass1
    · exact not_write_of_noWrites hwrites a hpass2

/-! ### What the two events never write (R197) -/

/-- What the two HDMA events leave of a channel: the programmed registers, `A1T`, and `DAS` in direct mode (R197). -/
structure HdmaLeaves (r q : ChannelRegs) : Prop where
  fixed : q.sameFixed r
  a1t : q.a1t = r.a1t
  das : ctrlInd r.dmap = false → q.das = r.das

theorem hdmaLeaves_refl (r : ChannelRegs) : HdmaLeaves r r := ⟨sameFixed_refl r, rfl, fun _ => rfl⟩

theorem HdmaLeaves.trans {r q p : ChannelRegs} (h : HdmaLeaves r q) (k : HdmaLeaves q p) : HdmaLeaves r p := by
  obtain ⟨hdmap, -⟩ := h.fixed
  exact ⟨sameFixed_trans k.fixed h.fixed, k.a1t.trans h.a1t, fun hd => (k.das (hdmap ▸ hd)).trans (h.das hd)⟩

theorem hdmaLeaves_transferAfter (r : ChannelRegs) : HdmaLeaves r (transferAfter r) := by
  refine ⟨transferAfter_sameFixed r, ?_, fun hd => ?_⟩
  · unfold transferAfter unitAfter
    split_ifs <;> rfl
  · unfold transferAfter unitAfter
    rw [hd]
    split <;> rfl

theorem hdmaLeaves_entryAfter (r : ChannelRegs) (h lo hi : Byte) : HdmaLeaves r (entryAfter r h lo hi) := by
  refine ⟨entryAfter_sameFixed r h lo hi, ?_, fun hd => ?_⟩
  · unfold entryAfter
    split_ifs <;> rfl
  · unfold entryAfter
    rw [hd]
    split <;> rfl

theorem hdmaLeaves_lineAfter (r : ChannelRegs) (h lo hi : Byte) : HdmaLeaves r (lineAfter r h lo hi) := by
  obtain ⟨hfixed, ha1t, hdas⟩ := hdmaLeaves_transferAfter r
  have hcount : HdmaLeaves r (countLine (transferAfter r)) := ⟨hfixed, ha1t, hdas⟩
  unfold lineAfter
  split
  · exact hcount.trans (hdmaLeaves_entryAfter ..)
  · exact hcount

theorem hdmaLeaves_startAfter (m : Byte) (c : Channel) (r : ChannelRegs) (e : Byte × Byte × Byte) :
    HdmaLeaves r (startAfter m c r e) := by
  have hrestart : HdmaLeaves r (restarted r) := ⟨sameFixed_refl r, rfl, fun _ => rfl⟩
  unfold startAfter
  split
  · exact hrestart.trans (hdmaLeaves_entryAfter ..)
  · exact hdmaLeaves_refl r

theorem hdmaLine_leaves (s : State) (c : Channel) : HdmaLeaves (s.ch c) ((hdmaLine s).ch c) := by
  cases hc : active c s with
  | false => rw [hdmaLine_inactive hc]; exact hdmaLeaves_refl _
  | true =>
    obtain ⟨h, lo, hi, hch⟩ := hdmaLine_active hc
    rw [hch]
    exact hdmaLeaves_lineAfter ..

theorem hdmaInit_leaves (s : State) (c : Channel) : HdmaLeaves (s.ch c) ((hdmaInit s).ch c) := by
  obtain ⟨e, hch⟩ := hdmaInit_ch s c
  have hclear : HdmaLeaves (s.ch c) (clearHidden (s.ch c)) := ⟨sameFixed_refl _, rfl, fun _ => rfl⟩
  rw [hch]
  exact hclear.trans (hdmaLeaves_startAfter ..)

/-- Of a channel that is not enabled the frame start clears the two flags only (R182). -/
theorem hdmaInit_disabled {s : State} {c : Channel} (h : maskBit s.hdmaen c = false) :
    (hdmaInit s).ch c = clearHidden (s.ch c) := by
  obtain ⟨e, hch⟩ := hdmaInit_ch s c
  rw [hch, startAfter, h]
  rfl

theorem active_of_disabled {s : State} {c : Channel} (h : maskBit s.hdmaen c = false) : active c s = false := by
  simp [active, h]

/-- Settles O42, by the event. -/
theorem hdmaNeverWritesProgrammedRegisters : Obligations.HdmaNeverWritesProgrammedRegisters := by
  unfold Obligations.HdmaNeverWritesProgrammedRegisters
  rintro i s (rfl | rfl)
  · have hleaves := hdmaInit_leaves s
    obtain ⟨hmdmaen, hhdmaen⟩ := hdmaInit_masks s
    exact ⟨hdmaInit s, rfl, hmdmaen, hhdmaen, fun c => ⟨(hleaves c).fixed, (hleaves c).a1t⟩,
      fun c hc => ⟨fun _ => hdmaInit_disabled hc, nofun⟩, fun c => (hleaves c).das⟩
  · have hleaves := hdmaLine_leaves s
    obtain ⟨hmdmaen, hhdmaen⟩ := hdmaLine_masks s
    exact ⟨hdmaLine s, rfl, hmdmaen, hhdmaen, fun c => ⟨(hleaves c).fixed, (hleaves c).a1t⟩,
      fun c hc => ⟨nofun, fun _ => hdmaLine_inactive (active_of_disabled hc)⟩, fun c => (hleaves c).das⟩

/-! ### The line counter (R198) -/

theorem lineCount_eq_zero_iff (n : Byte) : lineCount n = 0 ↔ n = 0x00 ∨ n = 0x80 := by
  revert n
  decide +kernel

theorem reloads_iff (r : ChannelRegs) : reloads r = true ↔ r.nltr - 1 = 0x00 ∨ r.nltr - 1 = 0x80 :=
  decide_eq_true_iff.trans (lineCount_eq_zero_iff _)

/-- A line of an active channel before any table fetch: its transfer, then its count (R185, R198). -/
def countedLine (r : ChannelRegs) : ChannelRegs := countLine (transferAfter r)

theorem countedLine_nltr (r : ChannelRegs) : (countedLine r).nltr = r.nltr - 1 := by
  obtain ⟨hnltr, -⟩ := transferAfter_keeps r
  exact congrArg (· - 1) hnltr

theorem countedLine_doTransfer (r : ChannelRegs) : (countedLine r).doTransfer = repeatFlag (r.nltr - 1) :=
  congrArg repeatFlag (countedLine_nltr r)

theorem countedLine_done (r : ChannelRegs) : (countedLine r).done = r.done := by
  obtain ⟨-, hdone, -⟩ := transferAfter_keeps r
  exact hdone

theorem lineAfter_counts {r : ChannelRegs} (hr : ¬ reloads r = true) (h lo hi : Byte) :
    lineAfter r h lo hi = countedLine r := if_neg hr

theorem lineAfter_reloads {r : ChannelRegs} (hr : reloads r = true) (h lo hi : Byte) :
    lineAfter r h lo hi = entryAfter (countedLine r) h lo hi := if_pos hr

theorem sub_one_eq_ofNat (n : Byte) : n - 1 = BitVec.ofNat 8 ((n.toNat + 255) % 256) := by
  apply BitVec.eq_of_toNat_eq
  rw [BitVec.toNat_sub, BitVec.toNat_ofNat]
  simp [Nat.add_comm]

theorem done_of_active {s : State} {c : Channel} (h : active c s = true) : (s.ch c).done = false := by
  simpa using (Bool.and_eq_true_iff.mp h).2

/-- Settles O41: an active channel ends a line as `lineAfter`, by whether it reloads. -/
theorem lineCounter : Obligations.LineCounter := by
  unfold Obligations.LineCounter
  refine ⟨fun s c hc => ?_, reloads_iff⟩
  obtain ⟨h, lo, hi, hch⟩ := hdmaLine_active hc
  refine ⟨hdmaLine s, rfl, fun ⟨h0, h80⟩ => ?_, fun hlast => ⟨h, lo, hi, ?_⟩⟩
  · have hr : ¬ reloads (s.ch c) = true := fun hr => ((reloads_iff _).mp hr).elim h0 h80
    rw [hch, lineAfter_counts hr, countedLine_nltr, countedLine_doTransfer, countedLine_done, ← sub_one_eq_ofNat]
    refine ⟨rfl, rfl, done_of_active hc, fun hn => ?_, fun hn => ?_⟩
    · rw [hn]; decide
    · rw [hn]; decide
  · have hr : reloads (s.ch c) = true := by
      rw [reloads_iff]
      rcases hlast with hn | hn <;> rw [hn] <;> decide
    rw [hch, lineAfter_reloads hr]
    rfl

/-! ### A channel enabled in mid-frame (R196) -/

/-- Settles O44: the frame start leaves the channel its registers with both flags clear, so its first line moves no
unit. -/
theorem enabledInMidFrame : Obligations.EnabledInMidFrame := by
  unfold Obligations.EnabledInMidFrame
  intro s c v hoff hon
  have hstale : (storeHdmaen v (hdmaInit s)).ch c = clearHidden (s.ch c) := hdmaInit_disabled hoff
  have hactive : active c (storeHdmaen v (hdmaInit s)) = true := by
    rw [active, hstale, storeHdmaen_hdmaen, hon]; rfl
  obtain ⟨h, lo, hi, hch⟩ := hdmaLine_active hactive
  have hreloads := reloads_iff (clearHidden (s.ch c))
  rw [hstale] at hch
  refine ⟨_, _, _, rfl, rfl, hactive, rfl, fun ⟨h0, h80⟩ => ?_, fun hlast => ⟨h, lo, hi, ?_⟩⟩
  · exact hch.trans (lineAfter_counts (fun hr => (hreloads.mp hr).elim h0 h80) h lo hi)
  · exact hch.trans (lineAfter_reloads (hreloads.mpr hlast) h lo hi)

end Sys2Proof.Machine
end

section
/-! HDMA: how many lines an entry lasts, and what it moves on each. -/

namespace Sys2Proof.Machine

/-! ### Lines one after the other (R186, R187) -/

/-- A step that serves a scanline takes an active channel through its line and leaves the requests behind it. -/
theorem step_line {s : State} {c : Channel} {rest : List Request} (ha : s.alone = none)
    (hp : s.pending = .event .hdmaLine :: rest) (hc : active c s = true) :
    ∃ t h lo hi, step s = .next t ∧ t.alone = none ∧ t.pending = rest ∧ t.hdmaen = s.hdmaen ∧
      t.ch c = lineAfter (s.ch c) h lo hi := by
  obtain ⟨l, hrun⟩ := hdmaLine_run { s with pending := rest }
  obtain ⟨-, hhdmaen⟩ := hdmaLine_masks { s with pending := rest }
  obtain ⟨h, lo, hi, hch⟩ := hdmaLine_active (s := { s with pending := rest }) hc
  exact ⟨_, h, lo, hi, step_event s .hdmaLine rest ha hp rfl, hrun.alone.trans ha, hrun.pending, hhdmaen, hch⟩

/-- An active channel over `k` lines that do not reload it, and one more. -/
theorem run_lines (k : Nat) {s : State} {c : Channel} {rest : List Request} (ha : s.alone = none)
    (hp : s.pending = List.replicate (k + 1) (.event .hdmaLine) ++ rest) (hc : active c s = true)
    (hcount : ∀ j < k, ¬ reloads (countedLine^[j] (s.ch c)) = true) :
    ∃ t h lo hi, core.run (k + 1) s = .next t ∧ t.ch c = lineAfter (countedLine^[k] (s.ch c)) h lo hi := by
  induction k generalizing s with
  | zero =>
    obtain ⟨t, h, lo, hi, hstep, -, -, -, hch⟩ := step_line ha hp hc
    exact ⟨t, h, lo, hi, run_succ (M := core) hstep 0, hch⟩
  | succ k ih =>
    obtain ⟨u, h, lo, hi, hstep, halone, hpending, hhdmaen, hch⟩ := step_line ha hp hc
    rw [lineAfter_counts (r := s.ch c) (hcount 0 k.succ_pos)] at hch
    have hactive : active c u = true := by
      rw [active, hhdmaen, hch, countedLine_done]; exact hc
    obtain ⟨t, h, lo, hi, hrun, ht⟩ := ih halone hpending hactive fun j hj => by
      rw [hch, ← Function.iterate_succ_apply]
      exact hcount (j + 1) (Nat.succ_lt_succ hj)
    rw [hch, ← Function.iterate_succ_apply] at ht
    exact ⟨t, h, lo, hi, (run_succ (M := core) hstep (k + 1)).trans hrun, ht⟩

/-- An entry that lasts `n` lines, where the `n`-th reloads: the channel after `k` of them. -/
theorem run_entryLines {n k : Nat} {s : State} {c : Channel} {rest : List Request} (ha : s.alone = none)
    (hp : s.pending = List.replicate k (.event .hdmaLine) ++ rest) (hc : active c s = true)
    (hlast : ∀ j < n, (reloads (countedLine^[j] (s.ch c)) = true ↔ j + 1 = n)) (hpos : 1 ≤ k) (hk : k ≤ n) :
    ∃ t, core.run k s = .next t ∧ (k < n → t.ch c = countedLine^[k] (s.ch c)) ∧
      (k = n → ∃ h lo hi, t.ch c = entryAfter (countedLine^[k] (s.ch c)) h lo hi) := by
  obtain ⟨k, rfl⟩ : ∃ j, k = j + 1 := ⟨k - 1, by omega⟩
  obtain ⟨t, h, lo, hi, hrun, ht⟩ := run_lines k ha hp hc fun j hj hr => by
    have := (hlast j (by omega)).mp hr
    omega
  refine ⟨t, hrun, fun hlt => ?_, fun heq => ⟨h, lo, hi, ?_⟩⟩
  · rw [ht, lineAfter_counts fun hr => hlt.ne ((hlast k hk).mp hr), Function.iterate_succ_apply']
  · rw [ht, lineAfter_reloads ((hlast k hk).mpr heq), Function.iterate_succ_apply']

theorem active_of_flags {s : State} {c : Channel} (hm : maskBit s.hdmaen c = true) (hd : (s.ch c).done = false) :
    active c s = true := by
  rw [active, hm, hd]; rfl

/-! ### The channel after `k` lines of an entry -/

theorem repeatFlag_iff (n : Byte) : repeatFlag n = true ↔ 0x80 ≤ n.toNat := by
  revert n
  decide +kernel

theorem iterate_countedLine_nltr (k : Nat) (r : ChannelRegs) :
    (countedLine^[k] r).nltr = r.nltr - BitVec.ofNat 8 k := by
  induction k with
  | zero => exact (BitVec.sub_zero _).symm
  | succ k ih =>
    rw [Function.iterate_succ_apply', countedLine_nltr, ih, BitVec.ofNat_add, sub_sub]
    rfl

/-- The count of an entry's header, `k` lines later. -/
theorem toNat_sub_ofNat {n : Byte} {k : Nat} (hk : k ≤ n.toNat) : (n - BitVec.ofNat 8 k).toNat = n.toNat - k := by
  have := n.isLt
  rw [BitVec.toNat_sub, BitVec.toNat_ofNat]
  omega

theorem sub_ofNat_eq_iff {n b : Byte} {k : Nat} (hk : k ≤ n.toNat) :
    n - BitVec.ofNat 8 k = b ↔ k + b.toNat = n.toNat := by
  rw [← BitVec.toNat_inj, toNat_sub_ofNat hk]
  omega

/-- The line after `j` others reloads if it is the last of a ONCE or of a REPEAT entry. -/
theorem reloads_iterate_iff {j : Nat} {r : ChannelRegs} (hj : j + 1 ≤ r.nltr.toNat) :
    reloads (countedLine^[j] r) = true ↔ j + 1 = r.nltr.toNat ∨ j + 1 + 0x80 = r.nltr.toNat := by
  rw [reloads_iff, ← countedLine_nltr, ← Function.iterate_succ_apply' countedLine, iterate_countedLine_nltr,
    sub_ofNat_eq_iff hj, sub_ofNat_eq_iff hj]
  rfl

/-- A channel that has moved `n` bytes of its entry, with this count and this flag. -/
def inEntry (n : Nat) (count : Byte) (transfer : Bool) (r : ChannelRegs) : ChannelRegs :=
  { unitAfter (ctrlInd r.dmap) n r with nltr := count, doTransfer := transfer }

theorem inEntry_zero {r : ChannelRegs} : inEntry 0 r.nltr r.doTransfer r = r := by
  unfold inEntry unitAfter
  split <;> simp

/-- A line on which no unit is moved. -/
theorem countedLine_inEntry_quiet (n : Nat) (count : Byte) (r : ChannelRegs) :
    countedLine (inEntry n count false r) = inEntry n (count - 1) (repeatFlag (count - 1)) r := rfl

/-- A line on which one unit is moved. -/
theorem countedLine_inEntry_unit (n : Nat) (count : Byte) (r : ChannelRegs) :
    countedLine (inEntry n count true r) =
      inEntry (n + unitSize (ctrlPat r.dmap)) (count - 1) (repeatFlag (count - 1)) r := by
  cases hd : ctrlInd r.dmap <;>
    simp [countedLine, countLine, transferAfter, inEntry, unitAfter, hd, BitVec.ofNat_add, BitVec.add_assoc]

theorem sub_ofNat_succ (n : Byte) (k : Nat) : n - BitVec.ofNat 8 k - 1 = n - BitVec.ofNat 8 (k + 1) := by
  rw [BitVec.ofNat_add, sub_sub]
  rfl

theorem repeatFlag_count {n : Byte} {k : Nat} (hk : k ≤ n.toNat) :
    repeatFlag (n - BitVec.ofNat 8 k) = true ↔ k + 0x80 ≤ n.toNat := by
  rw [repeatFlag_iff, toNat_sub_ofNat hk]
  omega

/-- A ONCE entry: one unit on its first line and none after it (R186). -/
theorem iterate_countedLine_once {r : ChannelRegs} (ht : r.doTransfer = true) (hn : r.nltr.toNat ≤ 0x80) {k : Nat}
    (hk : k + 1 ≤ r.nltr.toNat) : countedLine^[k + 1] r =
      inEntry (unitSize (ctrlPat r.dmap)) (r.nltr - BitVec.ofNat 8 (k + 1)) false r := by
  have hflag {j : Nat} (hj : j + 1 ≤ r.nltr.toNat) : repeatFlag (r.nltr - BitVec.ofNat 8 (j + 1)) = false := by
    rw [Bool.eq_false_iff, Ne, repeatFlag_count hj]
    omega
  induction k with
  | zero =>
    have hfirst := countedLine_inEntry_unit 0 r.nltr r
    rw [← ht, inEntry_zero] at hfirst
    rw [Function.iterate_one, hfirst, Nat.zero_add]
    exact congrArg (inEntry _ _ · r) (hflag hk)
  | succ k ih =>
    rw [Function.iterate_succ_apply', ih (by omega), countedLine_inEntry_quiet, sub_ofNat_succ, hflag hk]

/-- A REPEAT entry: one unit on each of its lines (R187). -/
theorem iterate_countedLine_repeat {r : ChannelRegs} (ht : r.doTransfer = true) {k : Nat}
    (hk : k + 0x80 ≤ r.nltr.toNat) : countedLine^[k] r =
      inEntry (k * unitSize (ctrlPat r.dmap)) (r.nltr - BitVec.ofNat 8 k) true r := by
  induction k with
  | zero =>
    rw [Nat.zero_mul, ← ht, BitVec.sub_zero, inEntry_zero]
    rfl
  | succ k ih =>
    rw [Function.iterate_succ_apply', ih (by omega), countedLine_inEntry_unit, sub_ofNat_succ,
      (repeatFlag_count (by omega)).mpr hk, Nat.succ_mul]

/-- Settles O45: only the last line of the entry leaves a count of zero, and the lines before it move one unit. -/
theorem onceEntryLasts : Obligations.OnceEntryLasts := by
  unfold Obligations.OnceEntryLasts
  intro s c k rest ha hm hd ht hlo hhi hpos hk hp
  have hlast : ∀ j < (s.ch c).nltr.toNat,
      (reloads (countedLine^[j] (s.ch c)) = true ↔ j + 1 = (s.ch c).nltr.toNat) := fun j hj => by
    rw [reloads_iterate_iff hj]
    omega
  obtain ⟨t, hrun, hquiet, hreload⟩ := run_entryLines ha hp (active_of_flags hm hd) hlast hpos hk
  obtain ⟨k, rfl⟩ : ∃ j, k = j + 1 := ⟨k - 1, by omega⟩
  rw [iterate_countedLine_once ht hhi hk] at hquiet hreload
  refine ⟨t, hrun, hquiet, fun hn => ?_⟩
  have hcount : (s.ch c).nltr - BitVec.ofNat 8 (k + 1) = 0x00 := (sub_ofNat_eq_iff hk).mpr hn
  rw [hcount] at hreload
  exact hreload hn

/-- Settles O46: only the last line of the entry leaves a count of `0x80`, and every line moves one unit. -/
theorem repeatEntryLasts : Obligations.RepeatEntryLasts := by
  unfold Obligations.RepeatEntryLasts
  intro s c k rest ha hm hd ht hlo hpos hk hp
  have hlast : ∀ j < (s.ch c).nltr.toNat - 0x80,
      (reloads (countedLine^[j] (s.ch c)) = true ↔ j + 1 = (s.ch c).nltr.toNat - 0x80) := fun j hj => by
    rw [reloads_iterate_iff (by omega)]
    omega
  obtain ⟨t, hrun, hquiet, hreload⟩ := run_entryLines ha hp (active_of_flags hm hd) hlast hpos hk
  rw [iterate_countedLine_repeat ht (by omega)] at hquiet hreload
  refine ⟨t, hrun, hquiet, fun hn => ?_⟩
  have hcount : (s.ch c).nltr - BitVec.ofNat 8 k = 0x80 :=
    (sub_ofNat_eq_iff (by omega)).mpr (show k + 0x80 = (s.ch c).nltr.toNat by omega)
  rw [hcount] at hreload
  exact hreload hn

end Sys2Proof.Machine
end

section
/-! No state change depends on the costs (R218): the engine on two states that differ in the cost parameters, the counter
and the trace only. -/

namespace Sys2Proof.Machine

/-! ### Two states that differ in the costs only -/

/-- `s` with the cost parameters, the counter and the trace of `e`. -/
def State.withCosts (s e : State) : State :=
  { s with
    cycles := e.cycles
    trace := e.trace
    plat := { s.plat with
      unitCost := e.plat.unitCost
      setupCost := e.plat.setupCost
      hdmaSetupCost := e.plat.hdmaSetupCost } }

theorem sameButCosts_withCosts (s e : State) : State.sameButCosts s (s.withCosts e) :=
  ⟨⟨rfl, rfl, rfl⟩, rfl, rfl, rfl, rfl, rfl, rfl, rfl, rfl, rfl, rfl⟩

theorem eq_withCosts {s s' : State} (h : State.sameButCosts s s') : s' = s.withCosts s' := by
  obtain ⟨⟨hchans, hmdmaen, hhdmaen⟩, hmem, hmdr, hdeviceIn, hdraws, hreply, hpending, halone, hblocked, hregions,
    hport⟩ := h
  simp only [State.withCosts, hchans, hmdmaen, hhdmaen, hmem, hmdr, hdeviceIn, hdraws, hreply, hpending, halone,
    hblocked, hregions, hport]

/-- What `x` reads off a state does not depend on the costs, the counter and the trace. -/
def CostBlind {α : Type} (x : State → α) : Prop := ∀ s s' : State, State.sameButCosts s s' → x s = x s'

theorem costBlind_of_withCosts {α : Type} {x : State → α} (h : ∀ s e : State, x (s.withCosts e) = x s) :
    CostBlind x := fun s s' hs => by rw [eq_withCosts hs, h]

theorem costBlind_ch (c : Channel) : CostBlind fun s => s.ch c := costBlind_of_withCosts fun _ _ => rfl

theorem costBlind_blocked (a : Addr) : CostBlind fun s => aSideBlocked s.plat a := costBlind_of_withCosts fun _ _ => rfl

theorem CostBlind.map {α β : Type} {x : State → α} (h : CostBlind x) (f : α → β) : CostBlind fun s => f (x s) :=
  fun s s' hs => congrArg f (h s s' hs)

/-! ### Operations that change the same and access the same, whatever the costs -/

/-- From two states that differ in the costs only, `f` leads to two such states by the same bus accesses in the same
order (R218). -/
structure CostFree (f : State → State) : Prop where
  agrees : ∀ s s' : State, State.sameButCosts s s' → State.sameButCosts (f s) (f s') ∧
    ∃ l l', (f s).trace = l ++ s.trace ∧ (f s').trace = l' ++ s'.trace ∧ accessesOf l = accessesOf l'

theorem costFree_id : CostFree id := ⟨fun _ _ hs => ⟨hs, [], [], rfl, rfl, rfl⟩⟩

/-- One operation after another. -/
theorem CostFree.comp {f g : State → State} (hg : CostFree g) (hf : CostFree f) : CostFree fun s => g (f s) := by
  refine ⟨fun s s' hs => ?_⟩
  obtain ⟨hsame, l, l', hl, hl', haccesses⟩ := hf.agrees s s' hs
  obtain ⟨ksame, m, m', hm, hm', kaccesses⟩ := hg.agrees _ _ hsame
  refine ⟨ksame, m ++ l, m' ++ l', ?_, ?_, ?_⟩
  · rw [hm, hl, List.append_assoc]
  · rw [hm', hl', List.append_assoc]
  · rw [accessesOf_append, accessesOf_append, haccesses, kaccesses]

/-- An operation that takes an argument off the state it starts from. -/
theorem CostFree.bind {α : Type} {x : State → α} {f : α → State → State} (hx : CostBlind x)
    (hf : ∀ a, CostFree (f a)) : CostFree fun s => f (x s) s := by
  refine ⟨fun s s' hs => ?_⟩
  simp only [← hx s s' hs]
  exact (hf (x s)).agrees s s' hs

theorem CostFree.ite {p : State → Prop} [DecidablePred p] {f g : State → State} (hp : CostBlind p)
    (hf : CostFree f) (hg : CostFree g) : CostFree fun s => if p s then f s else g s := by
  refine ⟨fun s s' hs => ?_⟩
  simp only [← hp s s' hs]
  split
  · exact hf.agrees s s' hs
  · exact hg.agrees s s' hs

theorem CostFree.foldl {α : Type} {f : State → α → State} (hf : ∀ a, CostFree fun s => f s a) (as : List α) :
    CostFree fun s => as.foldl f s := by
  induction as with
  | nil => exact costFree_id
  | cons a as ih => exact ih.comp (hf a)

/-- An operation that makes no action and does not look at the costs. -/
theorem costFree_of_silent {f : State → State} (hf : ∀ s e : State, f (s.withCosts e) = (f s).withCosts e)
    (ht : ∀ s, (f s).trace = s.trace) : CostFree f := by
  refine ⟨fun s s' hs => ⟨?_, [], [], ht s, ht s', rfl⟩⟩
  rw [eq_withCosts hs, hf]
  exact sameButCosts_withCosts ..

/-- An operation that takes its arguments from the registers of channel `c`. -/
theorem costFree_fromRegs {f : ChannelRegs → State → State} (c : Channel) (hf : ∀ r, CostFree (f r)) :
    CostFree fun s => f (s.ch c) s := .bind (costBlind_ch c) hf

/-- An operation that gives a byte: the same byte, and else as `CostFree` says. -/
structure ReadsCostFree (r : State → Byte × State) : Prop where
  byte : CostBlind fun s => (r s).1
  state : CostFree fun s => (r s).2

theorem ReadsCostFree.ite {p : State → Prop} [DecidablePred p] {r q : State → Byte × State} (hp : CostBlind p)
    (hr : ReadsCostFree r) (hq : ReadsCostFree q) : ReadsCostFree fun s => if p s then r s else q s := by
  refine ⟨fun s s' hs => ?_, by simpa only [apply_ite Prod.snd] using CostFree.ite hp hr.state hq.state⟩
  simp only [← hp s s' hs]
  split
  · exact hr.byte s s' hs
  · exact hq.byte s s' hs

theorem ReadsCostFree.fromRegs {f : ChannelRegs → State → Byte × State} (c : Channel) (hf : ∀ r, ReadsCostFree (f r)) :
    ReadsCostFree fun s => f (s.ch c) s := by
  refine ⟨fun s s' hs => ?_, costFree_fromRegs (f := fun r s => (f r s).2) c fun r => (hf r).state⟩
  simp only [← costBlind_ch c s s' hs]
  exact (hf (s.ch c)).byte s s' hs

/-- The byte is given before another operation. -/
theorem ReadsCostFree.andThen {r : State → Byte × State} {g : State → State} (hr : ReadsCostFree r)
    (hg : CostFree g) : ReadsCostFree fun s => ((r s).1, g (r s).2) := ⟨hr.byte, hg.comp hr.state⟩

/-- What is done with the byte that was given. -/
theorem ReadsCostFree.bind {r : State → Byte × State} {f : Byte → State → State} (hr : ReadsCostFree r)
    (hf : ∀ v, CostFree (f v)) : CostFree fun s => f (r s).1 (r s).2 :=
  CostFree.bind (f := fun v s => f v (r s).2) hr.byte fun v => (hf v).comp hr.state

/-! ### The Bus and the counter -/

/-- A charge moves the counter and is no access, whatever it charges. -/
theorem costFree_charge (n : State → Nat) : CostFree fun s => charge (n s) s :=
  ⟨fun _ _ hs => ⟨hs, [.charge _], [.charge _], rfl, rfl, rfl⟩⟩

theorem costFree_updCh (c : Channel) (f : ChannelRegs → ChannelRegs) : CostFree fun s => s.updCh c f :=
  costFree_of_silent (fun _ _ => rfl) fun _ => rfl

theorem resolveRead_withCosts (a : Addr) (s e : State) :
    resolveRead a (s.withCosts e) = ((resolveRead a s).1, (resolveRead a s).2.withCosts e) := by
  have hkind : regionKind (s.withCosts e).plat a = regionKind s.plat a := rfl
  simp only [resolveRead, hkind, deviceRead, actAnswer]
  split
  · rfl
  · rfl
  · simp only [State.withCosts]
    split
    · split <;> rfl
    · rfl
  · rfl

theorem reads_memRead (a : Addr) : ReadsCostFree (memRead a) := by
  refine ⟨costBlind_of_withCosts fun s e => ?_, ⟨fun s s' hs =>
    ⟨?_, [.read a _], [.read a _], memRead_trace a s, memRead_trace a s', rfl⟩⟩⟩
  · simp only [memRead, resolveRead_withCosts]
  · rw [eq_withCosts hs]
    simp only [memRead, resolveRead_withCosts]
    exact sameButCosts_withCosts (memRead a s).2 _

theorem resolveWrite_withCosts (a : Addr) (v : Byte) (s e : State) :
    resolveWrite a v (s.withCosts e) = (resolveWrite a v s).withCosts e := by
  have hkind : regionKind (s.withCosts e).plat a = regionKind s.plat a := rfl
  simp only [resolveWrite, hkind, deviceWrite]
  split
  · rfl
  · rfl
  · simp only [State.withCosts]
    split <;> rfl
  · rfl

theorem costFree_memWrite (a : Addr) (v : Byte) : CostFree (memWrite a v) := by
  refine ⟨fun s s' hs => ⟨?_, [.write a v], [.write a v], memWrite_trace a v s, memWrite_trace a v s', rfl⟩⟩
  rw [eq_withCosts hs]
  simp only [memWrite, resolveWrite_withCosts]
  exact sameButCosts_withCosts (memWrite a v s) _

theorem reads_aSideRead (a : Addr) : ReadsCostFree (aSideRead a) :=
  .ite ((costBlind_blocked a).map (· = true)) ⟨costBlind_of_withCosts fun _ _ => rfl, costFree_id⟩ (reads_memRead a)

theorem costFree_aSideWrite (a : Addr) (v : Byte) : CostFree (aSideWrite a v) :=
  .ite ((costBlind_blocked a).map (· = true)) costFree_id (costFree_memWrite a v)

/-- A byte transfer (R152). -/
theorem costFree_xferByte (d : Dir) (a : Addr) (p : Byte) : CostFree (xferByte d a p) := by
  have hmove : CostFree (moveByte d a p) := by
    cases d with
    | busToPort => exact (reads_aSideRead a).bind fun v => costFree_memWrite (portAddr p) v
    | portToBus => exact (reads_memRead (portAddr p)).bind fun v => costFree_aSideWrite a v
  exact (costFree_charge fun t => t.plat.unitCost).comp hmove

/-! ### General DMA (R150, R151) -/

/-- The transfer of the channel's current byte. -/
theorem costFree_currentByte (pat : List Byte) (d : Dir) (c : Channel) (i : Nat) :
    CostFree fun s => xferByte d (dmaAddr (s.ch c)) (portOf (s.ch c).bbad pat i) s :=
  costFree_fromRegs (f := fun r => xferByte d (dmaAddr r) (portOf r.bbad pat i)) c fun _ => costFree_xferByte ..

theorem costFree_transferByte (pat : List Byte) (d : Dir) (z f : Bool) (c : Channel) (i : Nat) :
    CostFree (transferByte pat d z f c i) :=
  (costFree_updCh c fun r => { r with a1t := stepOffset f z r.a1t, das := r.das - 1 }).comp
    (costFree_currentByte pat d c i)

theorem costFree_transferLoop (pat : List Byte) (d : Dir) (z f : Bool) (c : Channel) (fuel i : Nat) :
    CostFree (transferLoop pat d z f c fuel i) := by
  induction fuel generalizing i with
  | zero => exact costFree_id
  | succ fuel ih =>
    have hlast : CostBlind fun t => (t.ch c).das = 0 := (costBlind_ch c).map fun r => r.das = 0
    exact (CostFree.ite hlast costFree_id (ih (i + 1))).comp (costFree_transferByte pat d z f c i)

theorem costFree_runChannel (pat : List Byte) (d : Dir) (z f : Bool) (c : Channel) :
    CostFree (runChannel pat d z f c) :=
  (costFree_transferLoop pat d z f c (2 ^ 16) 0).comp (costFree_charge fun s => s.plat.setupCost)

theorem costFree_runChannelRegs (c : Channel) : CostFree (runChannelRegs c) :=
  costFree_fromRegs
    (f := fun r => runChannel (pattern (ctrlPat r.dmap)) (ctrlDir r.dmap) (ctrlDec r.dmap) (ctrlFix r.dmap) c) c
    fun _ => costFree_runChannel ..

theorem costFree_serveDma (c : Channel) : CostFree fun s => serveDma s c := by
  have hstarted : CostBlind fun s => maskBit s.mdmaen c = true := costBlind_of_withCosts fun _ _ => rfl
  have hclear : CostFree fun s => { s with mdmaen := clearMaskBit s.mdmaen c } :=
    costFree_of_silent (fun _ _ => rfl) fun _ => rfl
  exact .ite hstarted (hclear.comp (costFree_runChannelRegs c)) costFree_id

theorem costFree_runDma : CostFree runDma := .foldl costFree_serveDma channels

/-- The start of a general DMA by a mask byte (R121). -/
theorem costFree_start (m : Byte) : CostFree fun s => runDma (storeMdmaen m s) :=
  costFree_runDma.comp (costFree_of_silent (fun _ _ => rfl) fun _ => rfl)

/-! ### HDMA (R182, R183, R185) -/

theorem reads_tableByte (c : Channel) : ReadsCostFree (tableByte c) := by
  have hread : ReadsCostFree fun s => memRead (tableAddr (s.ch c)) s :=
    .fromRegs (f := fun r => memRead (tableAddr r)) c fun r => reads_memRead (tableAddr r)
  exact hread.andThen ((costFree_charge fun t => t.plat.unitCost).comp (costFree_updCh c _))

theorem costFree_loadPointer (c : Channel) : CostFree (loadPointer c) :=
  (reads_tableByte c).bind (f := fun lo s => (tableByte c s).2.updCh c fun q =>
      { q with das := joinBytes (tableByte c s).1 lo }) fun lo =>
    (reads_tableByte c).bind (f := fun hi s => s.updCh c fun q => { q with das := joinBytes hi lo }) fun _ =>
      costFree_updCh c _

theorem costFree_takeTerminator (c : Channel) : CostFree (takeTerminator c) := costFree_updCh c _

theorem costFree_takeLines (c : Channel) (h : Byte) : CostFree (takeLines c h) := by
  have hindirect : CostBlind fun t => ctrlInd (t.ch c).dmap = true := (costBlind_ch c).map fun r => ctrlInd r.dmap = true
  exact (CostFree.ite hindirect (costFree_loadPointer c) costFree_id).comp (costFree_updCh c (loadLines h))

theorem costFree_loadEntry (c : Channel) : CostFree (loadEntry c) :=
  (reads_tableByte c).bind (f := fun h s => if h = 0x00 then takeTerminator c s else takeLines c h s) fun h => by
    split
    · exact costFree_takeTerminator c
    · exact costFree_takeLines c h

theorem costFree_hdmaByte (d : Dir) (ind : Bool) (c : Channel) (off : Byte) :
    CostFree fun s => hdmaByte d ind c s off := by
  have hxfer (a : Addr) : CostFree fun t => xferByte d a ((t.ch c).bbad + off) t :=
    costFree_fromRegs (f := fun r => xferByte d a (r.bbad + off)) c fun _ => costFree_xferByte ..
  exact costFree_fromRegs
    (f := fun r s =>
      xferByte d (dataAddr ind r) (((s.updCh c (stepData ind)).ch c).bbad + off) (s.updCh c (stepData ind)))
    c fun r => (hxfer (dataAddr ind r)).comp (costFree_updCh c (stepData ind))

theorem costFree_hdmaUnit (d : Dir) (ind : Bool) (p : BitVec 3) (c : Channel) : CostFree (hdmaUnit d ind p c) :=
  .foldl (costFree_hdmaByte d ind c) (pattern p)

theorem costBlind_active (c : Channel) : CostBlind (active c) := costBlind_of_withCosts fun _ _ => rfl

theorem costFree_hdmaTransfer (c : Channel) : CostFree fun s => hdmaTransfer s c := by
  have hmoves : CostBlind fun s => (active c s && (s.ch c).doTransfer) = true := costBlind_of_withCosts fun _ _ => rfl
  have hunit : CostFree fun s =>
      hdmaUnit (ctrlDir (s.ch c).dmap) (ctrlInd (s.ch c).dmap) (ctrlPat (s.ch c).dmap) c s :=
    costFree_fromRegs (f := fun r => hdmaUnit (ctrlDir r.dmap) (ctrlInd r.dmap) (ctrlPat r.dmap) c) c fun _ =>
      costFree_hdmaUnit ..
  exact .ite hmoves hunit costFree_id

theorem costFree_hdmaCount (c : Channel) : CostFree fun s => hdmaCount s c := by
  have hactive : CostBlind fun s => active c s = true := (costBlind_active c).map (· = true)
  have hreload : CostBlind fun t => lineCount (t.ch c).nltr = 0 := (costBlind_ch c).map fun r => lineCount r.nltr = 0
  exact .ite hactive ((CostFree.ite hreload (costFree_loadEntry c) costFree_id).comp (costFree_updCh c countLine))
    costFree_id

theorem costFree_hdmaLine : CostFree hdmaLine := by
  have hany : CostBlind fun s => anyActive s = true := costBlind_of_withCosts fun _ _ => rfl
  have hpasses : CostFree fun s => channels.foldl hdmaCount (channels.foldl hdmaTransfer s) :=
    (CostFree.foldl costFree_hdmaCount channels).comp (.foldl costFree_hdmaTransfer channels)
  exact .ite hany (hpasses.comp (costFree_charge fun s => s.plat.hdmaSetupCost)) costFree_id

theorem costFree_hdmaStart (c : Channel) : CostFree fun s => hdmaStart s c := by
  have henabled : CostBlind fun s => maskBit s.hdmaen c = true := costBlind_of_withCosts fun _ _ => rfl
  exact .ite henabled ((costFree_loadEntry c).comp (costFree_updCh c restarted)) costFree_id

theorem costFree_clearAllHidden : CostFree clearAllHidden :=
  .foldl (f := clearFlags) (fun c => costFree_updCh c clearHidden) channels

theorem costFree_hdmaInit : CostFree hdmaInit := by
  have hnone : CostBlind fun t => t.hdmaen = 0x00 := costBlind_of_withCosts fun _ _ => rfl
  have hload : CostFree fun t => channels.foldl hdmaStart (charge t.plat.hdmaSetupCost t) :=
    (CostFree.foldl costFree_hdmaStart channels).comp (costFree_charge fun t => t.plat.hdmaSetupCost)
  have hstart : CostFree fun t => if t.hdmaen = 0x00 then t
      else channels.foldl hdmaStart (charge t.plat.hdmaSetupCost t) := .ite hnone costFree_id hload
  exact hstart.comp (f := clearAllHidden) costFree_clearAllHidden

/-! ### Reset (R250) and the instructions -/

theorem costFree_resetEngine (k : ResetKind) : CostFree (resetEngine k) := by
  have hmasks : CostFree fun s => { s with mdmaen := 0x00, hdmaen := 0x00 } :=
    costFree_of_silent (fun _ _ => rfl) fun _ => rfl
  have hcontrol : CostFree resetControl := CostFree.comp (f := clearAllHidden) hmasks costFree_clearAllHidden
  have hstep (c : Channel) : CostFree fun s => powerOnStep s c := costFree_of_silent (fun _ _ => rfl) fun _ => rfl
  have hpowerOn : CostFree fun s => channels.foldl powerOnStep (resetControl s) :=
    CostFree.comp (f := resetControl) (.foldl hstep channels) hcontrol
  cases k with
  | soft => exact hcontrol
  | powerOn => exact hpowerOn

/-- Instruction `i` always completes, and its effect does not depend on the costs. -/
def RunsCostFree (i : Instr) : Prop := ∃ f, (∀ s, exec i s = .next (f s)) ∧ CostFree f

theorem runsCostFree_silent {i : Instr} {f : State → State} (he : ∀ s, exec i s = .next (f s))
    (hf : ∀ s e : State, f (s.withCosts e) = (f s).withCosts e) (ht : ∀ s, (f s).trace = s.trace) : RunsCostFree i :=
  ⟨f, he, costFree_of_silent hf ht⟩

theorem runsCostFree (i : Instr) : RunsCostFree i := by
  cases i with
  | wrMdmaen v =>
    rcases eq_or_ne v 0x00 with rfl | hv
    · exact runsCostFree_silent (f := storeMdmaen 0x00) (fun _ => rfl) (fun _ _ => rfl) fun _ => rfl
    · exact ⟨_, fun s => congrArg Host.Outcome.next (writeMdmaen_start s hv), costFree_start v⟩
  | mdmaenStart m => exact ⟨_, fun _ => rfl, costFree_start m⟩
  | rdMdmaen | wrHdmaen | rdHdmaen | mdmaenNone | hdmaenSet
  | wrDmap | rdDmap | wrBbad | rdBbad | wrA1tl | rdA1tl | wrA1th | rdA1th | wrA1b | rdA1b | wrDasl | rdDasl
  | wrDash | rdDash | wrDasb | rdDasb | wrA2al | rdA2al | wrA2ah | rdA2ah | wrNltr | rdNltr
  | wrUnusedB | rdUnusedB | wrUnusedF | rdUnusedF | wrUnmappedC | rdUnmappedC | wrUnmappedD | rdUnmappedD
  | wrUnmappedE | rdUnmappedE | stepFixed | stepInc | stepDec | hdrTerminate =>
    exact runsCostFree_silent (fun _ => rfl) (fun _ _ => rfl) fun _ => rfl
  | pat0 | pat1 | pat2 | pat3 | pat4 | pat5 | pat6 | pat7 => exact ⟨_, fun _ => rfl, costFree_runChannel ..⟩
  | dirBusToPort c n u z f p | dirPortToBus c n u z f p =>
    exact ⟨_, fun _ => rfl, costFree_currentByte (pattern p) _ c 0⟩
  | hdmaDirect | hdmaIndirect => exact ⟨_, fun _ => rfl, costFree_hdmaUnit ..⟩
  | hdrOnce128 | hdrOnce | hdrRepeat => exact ⟨_, fun _ => rfl, costFree_takeLines ..⟩
  | evReset kind => exact ⟨_, fun _ => rfl, costFree_resetEngine kind⟩
  | evHdmainit => exact ⟨_, fun _ => rfl, costFree_hdmaInit⟩
  | evHdmaline => exact ⟨_, fun _ => rfl, costFree_hdmaLine⟩

/-- Settles O52: every instruction is made of operations that charge, or that do not look at the costs. -/
theorem engineIgnoresTheCosts : Obligations.EngineIgnoresTheCosts := by
  unfold Obligations.EngineIgnoresTheCosts
  intro i s s' hs
  obtain ⟨f, hexec, hfree⟩ := runsCostFree i
  obtain ⟨hsame, haccesses⟩ := hfree.agrees s s' hs
  exact ⟨f s, f s', hexec s, hexec s', hsame, haccesses⟩

end Sys2Proof.Machine
end

section
/-! What a general DMA and the two HDMA events charge (R219, R220). -/

namespace Sys2Proof.Machine

/-! ### The charge of a general DMA (R219) -/

theorem sum_dmaCost (p : Platform) (s : State) (cs : List Channel) :
    (cs.map fun c => dmaCost p (s.ch c)).sum =
      cs.length * p.setupCost + (cs.map fun c => byteCount (s.ch c).das).sum * p.unitCost := by
  simp [dmaCost, List.sum_map_add, List.sum_map_mul_right]

theorem runDma_cycles (m : Byte) (s : State) : (runDma (storeMdmaen m s)).cycles =
    s.cycles + (channels.filter (maskBit m)).length * s.plat.setupCost +
      ((channels.filter (maskBit m)).map fun c => byteCount (s.ch c).das).sum * s.plat.unitCost := by
  obtain ⟨l, hrun, hcost, -⟩ := runDma_spec (storeMdmaen m s)
  rw [hrun.cycles, hcost, sum_dmaCost, ← Nat.add_assoc]
  rfl

theorem filter_maskBit_single (c : Channel) : channels.filter (maskBit (1#8 <<< c.val)) = [c] := by
  revert c
  decide

/-- The charge of a start of one channel. -/
theorem start_single_cycles {c : Channel} {s t : State} (h : exec (.wrMdmaen (1#8 <<< c.val)) s = .next t) :
    t.cycles = s.cycles + s.plat.setupCost + byteCount (s.ch c).das * s.plat.unitCost := by
  rw [exec_start s (single_ne_zero c) (by simp)] at h
  obtain rfl := Host.Outcome.next.inj h
  rw [runDma_cycles, filter_maskBit_single]
  simp

/-- Settles O26: `runDma_cycles`, and its case of one channel. -/
theorem startMaskCost : Obligations.StartMaskCost := by
  unfold Obligations.StartMaskCost
  refine ⟨fun m s hm i hi => ⟨_, exec_start s hm hi, runDma_cycles m s⟩, fun c s t => start_single_cycles,
    fun c s t h hdas hsetup hunit => ?_⟩
  have hbytes : byteCount (s.ch c).das = 16 := by rw [hdas]; decide
  rw [start_single_cycles h, hbytes, hsetup, hunit]

/-! ### The charges of the two HDMA events (R220) -/

theorem entryReads_length (r : ChannelRegs) (h lo hi : Byte) :
    (entryReads r h lo hi).length = if h = 0x00 ∨ ctrlInd r.dmap = false then 1 else 3 := by
  unfold entryReads
  split <;> rfl

/-- `LoadEntry` leaves the header it read in the line counter (R183, R184). -/
theorem entryAfter_nltr (r : ChannelRegs) (h lo hi : Byte) : (entryAfter r h lo hi).nltr = h := by
  unfold entryAfter
  split_ifs with h0
  · exact h0.symm
  · rfl
  · rfl

/-- `LoadEntry` sets `done` at a terminator and leaves it else (R184). -/
theorem entryAfter_done {r : ChannelRegs} (hr : r.done = false) (h lo hi : Byte) :
    (entryAfter r h lo hi).done = true ↔ h = 0x00 := by
  unfold entryAfter
  split_ifs with h0
  · exact iff_of_true rfl h0
  · exact iff_of_false (Bool.eq_false_iff.mp hr) h0
  · exact iff_of_false (Bool.eq_false_iff.mp hr) h0

/-- The table bytes of an enabled channel at the frame start, told from what it holds afterwards. -/
theorem startReads_length (m : Byte) (c : Channel) (r : ChannelRegs) (e : Byte × Byte × Byte) :
    (startReads m c (clearHidden r) e).length = if maskBit m c then
      (if (startAfter m c (clearHidden r) e).nltr = 0x00 ∨ ctrlInd r.dmap = false then 1 else 3) else 0 := by
  cases hm : maskBit m c with
  | false => simp [startReads, hm]
  | true =>
    simp only [startReads, startAfter, hm, if_true, entryReads_length, entryAfter_nltr]
    rfl

theorem hdmaInit_cycles (s : State) : (hdmaInit s).cycles = s.cycles +
    (if s.hdmaen = 0x00 then 0 else s.plat.hdmaSetupCost + s.plat.unitCost *
      (channels.map fun c => if maskBit s.hdmaen c then
        (if ((hdmaInit s).ch c).nltr = 0x00 ∨ ctrlInd (s.ch c).dmap = false then 1 else 3) else 0).sum) := by
  obtain ⟨e, l, (hrun : EngineRun s (hdmaInit s) (l ++ setupCharge s)), ht, hreads, hch, -⟩ := hdmaInit_spec s
  by_cases h0 : s.hdmaen = 0x00
  · rw [if_pos h0, hdmaInit_idle h0]
    rfl
  · have hbytes : (readsOf l).length = (channels.map fun c => if maskBit s.hdmaen c then
        (if ((hdmaInit s).ch c).nltr = 0x00 ∨ ctrlInd (s.ch c).dmap = false then 1 else 3) else 0).sum := by
      simp only [hreads, List.length_flatMap, startReads_length, hch]
    rw [if_neg h0, hrun.cycles, charged_append, ht.cost, charged_setupCharge h0, hbytes]
    ring

/-- The table bytes of an active channel that reloads, told from what it holds afterwards. -/
theorem lineReads_length {r : ChannelRegs} (hd : r.done = false) (hr : reloads r = true) (h lo hi : Byte) :
    (entryReads (countLine (transferAfter r)) h lo hi).length =
      if (lineAfter r h lo hi).done = true ∨ ctrlInd r.dmap = false then 1 else 3 := by
  have hdmap : (countLine (transferAfter r)).dmap = r.dmap := (transferAfter_sameFixed r).1
  have hdone := entryAfter_done ((countedLine_done r).trans hd) h lo hi
  simp only [entryReads_length, hdmap, lineAfter_reloads hr, hdone]

theorem hdmaLine_cycles {s : State} (ha : anyActive s = true) : (hdmaLine s).cycles = s.cycles +
    (s.plat.hdmaSetupCost + s.plat.unitCost *
      ((channels.map fun c => if active c s && (s.ch c).doTransfer then unitSize (ctrlPat (s.ch c).dmap) else 0).sum +
       (channels.map fun c => if active c s && reloads (s.ch c) then
        (if ((hdmaLine s).ch c).done = true ∨ ctrlInd (s.ch c).dmap = false then 1 else 3) else 0).sum)) := by
  obtain ⟨e, l, m, hrun, hcost, -, -, -, mcost, -, hreads, hch, -⟩ := hdmaLine_spec s ha
  have hpass : (channels.map fun c => passBytes s.hdmaen c (s.ch c)) = channels.map fun c =>
      if active c s && (s.ch c).doTransfer then unitSize (ctrlPat (s.ch c).dmap) else 0 := rfl
  have hbytes : (readsOf m).length = (channels.map fun c => if active c s && reloads (s.ch c) then
      (if ((hdmaLine s).ch c).done = true ∨ ctrlInd (s.ch c).dmap = false then 1 else 3) else 0).sum := by
    rw [hreads, List.length_flatMap]
    refine congrArg List.sum (List.map_congr_left fun c _ => ?_)
    rw [hch]
    split
    · next hc =>
      obtain ⟨hactive, hreload⟩ := Bool.and_eq_true_iff.mp hc
      rw [if_pos hactive]
      exact lineReads_length (done_of_active hactive) hreload ..
    · rfl
  rw [hrun.cycles, charged_append, charged_append, hcost, mcost, hpass, hbytes]
  simp only [charged]
  ring

/-- Settles O43: the closed forms of the two events, with each entry's bytes counted by what it left. -/
theorem hdmaCost : Obligations.HdmaCost := by
  unfold Obligations.HdmaCost
  refine ⟨fun s => ⟨hdmaInit s, rfl, hdmaInit_cycles s⟩, fun s => ⟨hdmaLine s, rfl, ?_⟩⟩
  by_cases hnone : ∀ c, active c s = false
  · rw [if_pos hnone, hdmaLine_idle (anyActive_false hnone)]
    rfl
  · obtain ⟨c, hc⟩ := not_forall.mp hnone
    rw [if_neg hnone]
    exact hdmaLine_cycles (anyActive_of_active (Bool.eq_true_of_not_eq_false hc))

end Sys2Proof.Machine
end

section
/-! What the actions of an instruction account for; no step stops; the order of the platform's queue. -/

namespace Sys2Proof.Machine

/-! ### What the actions account for (R43, R60, R66, R77, R218) -/

/-- Settles O48: an instruction is its register access and then a run of the engine, and the access leaves the counter,
the trace and storage. -/
theorem actionsAccountForTheBus : Obligations.ActionsAccountForTheBus := by
  unfold Obligations.ActionsAccountForTheBus
  intro i s
  obtain ⟨u, t, l, hexec, hport, hdriven, hrun⟩ := exec_run i s
  obtain ⟨hmem, hcycles, htrace, hdeviceIn, -, hplat, -⟩ := hport
  have hcost : t.cycles = s.cycles + charged l := by rw [hrun.cycles, hcycles]
  have hacts (a : Addr) : u.deviceStores a → s.deviceStores a := by
    rw [State.deviceStores, State.deviceStores, hdeviceIn]
    exact id
  refine ⟨t, l, hexec, by rw [hrun.trace, htrace], hcost, by omega, hdriven ▸ hrun.mdr, hdriven ▸ hrun.carries,
    fun hw => ?_, fun a ha hwrite => ?_⟩
  · rw [← List.append_nil l]
    exact (storageFollows_nil hmem.symm).trans (hrun.follows (hmem ▸ hw)) hplat.symm hacts
  · rw [hrun.mem a (fun hd => ha (hacts a hd)) (not_written hwrite), hmem]

/-! ### No step stops (R210) -/

theorem exec_completes (i : Instr) (s : State) : ∃ t, exec i s = .next t :=
  let ⟨_, t, _, h⟩ := exec_run i s
  ⟨t, h.outcome⟩

/-- Settles O5, by the cases of a step: each answers a state at once or runs an instruction. -/
theorem noStepStops : Obligations.NoStepStops := by
  unfold Obligations.NoStepStops
  refine ⟨fun s => ?_, step_idle⟩
  unfold State.goesOn
  cases step_case s with
  | idle ha hp hs => exact ⟨_, hs⟩
  | bus a rest ha hp hs => exact ⟨_, hs⟩
  | engine a rest i ha hp hr hd hs => rw [hs]; exact exec_completes ..
  | event e rest ha hp hs => rw [hs]; exact exec_completes ..
  | part p i ha hd hs => rw [hs]; exact exec_completes ..

/-! ### The platform's queue (R214, R223, R252) -/

/-- Settles O58: the events of a boundary by whether a Reset falls on it, and what `issue` and `deliver` append. -/
theorem boundaryOrder : Obligations.BoundaryOrder := by
  unfold Obligations.BoundaryOrder
  refine ⟨fun _ _ => rfl, rfl, fun _ _ _ => rfl, fun s as b b' => ?_⟩
  simp [State.deliver, State.issue]

end Sys2Proof.Machine
end

section
/-! No instruction faults or is refused. -/

namespace Sys2Proof.Machine

/-! ### Totality (R230) -/

/-- Settles O4, by `exec_run`, as `exec_completes` reads it: each constructor of `Instr` is a register access, a run of
the engine or both, and so ends in the state these reach. -/
theorem noInstructionStops : Obligations.NoInstructionStops := by
  unfold Obligations.NoInstructionStops
  exact exec_completes

end Sys2Proof.Machine
end

section
/-! What a Reset leaves, and that the engine it leaves is idle. -/

namespace Sys2Proof.Machine

/-! ### The engine is idle with no channel enabled and no flag set (R182, R185) -/

theorem clearHidden_eq_self {r : ChannelRegs} (hdone : r.done = false) (htransfer : r.doTransfer = false) :
    clearHidden r = r := by
  cases r
  cases hdone
  cases htransfer
  rfl

theorem clearAllHidden_eq_self {s : State} (h : ∀ c, (s.ch c).done = false ∧ (s.ch c).doTransfer = false) :
    clearAllHidden s = s := by
  have hch (c : Channel) : (clearAllHidden s).ch c = s.ch c := by
    obtain ⟨hdone, htransfer⟩ := h c
    rw [ch_clearAllHidden, clearHidden_eq_self hdone htransfer]
  have hchans : (clearAllHidden s).chans = s.chans := chans_ext hch
  calc clearAllHidden s = { s with chans := (clearAllHidden s).chans } := rfl
    _ = s := by rw [hchans]

theorem anyActive_of_noneEnabled {s : State} (h : s.hdmaen = 0x00) : anyActive s = false :=
  anyActive_false fun c => active_of_disabled (by rw [h]; exact BitVec.getLsbD_zero)

/-! ### What a Reset leaves beside the engine (R250) -/

theorem foldl_powerOn_mem (cs : List Channel) (s : State) : (cs.foldl powerOnStep s).mem = s.mem := by
  induction cs generalizing s with
  | nil => rfl
  | cons c cs ih => exact ih (powerOnStep s c)

/-- A Reset leaves storage and the devices' acts exactly; `EngineRun` speaks of storage byte by byte only. -/
theorem resetEngine_storage (k : ResetKind) (s : State) :
    (resetEngine k s).mem = s.mem ∧ (resetEngine k s).deviceIn = s.deviceIn := by
  cases k with
  | soft => exact ⟨rfl, rfl⟩
  | powerOn =>
    obtain ⟨-, -, -, -, hdeviceIn, -⟩ := foldl_powerOn_same channels (resetControl s)
    exact ⟨foldl_powerOn_mem channels (resetControl s), hdeviceIn⟩

/-- Settles O57: a Reset is a run without actions that clears masks and flags, and on what it leaves the frame start
only clears flags that are clear and the scanline finds no active channel. -/
theorem resetKinds : Obligations.ResetKinds := by
  unfold Obligations.ResetKinds
  refine ⟨fun k s => ?_, fun s => ⟨resetEngine .soft s, rfl, ch_resetControl s⟩⟩
  obtain ⟨hrun, hmdmaen, hhdmaen, hhidden⟩ := resetEngine_spec k s
  obtain ⟨hmem, hdeviceIn⟩ := resetEngine_storage k s
  have hflags (c : Channel) := (hhidden c).symm
  have hinit : hdmaInit (resetEngine k s) = resetEngine k s :=
    (hdmaInit_idle hhdmaen).trans (clearAllHidden_eq_self hflags)
  have hline : hdmaLine (resetEngine k s) = resetEngine k s := hdmaLine_idle (anyActive_of_noneEnabled hhdmaen)
  exact ⟨resetEngine k s, rfl, hmdmaen, hhdmaen, hflags, hmem, hrun.mdr, hrun.cycles, hrun.trace, hdeviceIn, hrun.reply,
    hrun.plat, hrun.pending, hrun.alone, congrArg Host.Outcome.next hinit, congrArg Host.Outcome.next hline⟩

end Sys2Proof.Machine
end
